-- ==== Sys2Proof/Word.lean ====
section
/-! DEFINITION. The word types of the block: bytes of the buffers and the stream, and the 16-bit host operation word. -/

namespace Sys2Proof

/-- A byte of a buffer, of a frame or of the transport stream (R12, R50). -/
abbrev Byte := BitVec 8

/-- A host operation word, the value written to `HOP` (R70). -/
abbrev HopWord := BitVec 16

end Sys2Proof
end

