-- ==== Sys2Proof/Config.lean ====
section
/-! DEFINITION. The implementation parameters of R10 with their constraints, and the free values: the answers of the
transport and the losses that no list of State fixes. -/

namespace Sys2Proof

/-- `DRAIN_TIMEOUT_MS`: a natural, or the value `INFINITE` (R10, D16). -/
inductive DrainTimeout where
  | infinite
  | ms (n : Nat)
  deriving DecidableEq, Repr, Inhabited

/-- `BIT_ORDER` (R10, R141). -/
inductive BitOrder where
  | msbFirst
  | lsbFirst
  deriving DecidableEq, Repr, Inhabited

/-- The parameters of R10, as plain data. A field with a default here is one R10 gives a value for; the fields
without one are marked `OPEN` there. -/
structure Params where
  chunkSize : Nat
  eraseWaitMs : Nat := 6000
  drainTimeout : DrainTimeout
  paceDrain : Bool := true
  bitOrder : BitOrder := .msbFirst
  threshold : Nat := 128
  maxDim : Nat := 65535
  imgCap : Nat
  frameHome : List Byte
  frameCenter : List Byte
  framePreview : List Byte
  frameUp : List Byte
  frameDown : List Byte
  frameLeft : List Byte
  frameRight : List Byte
  framePause : List Byte
  frameReset : List Byte
  frameErase : List Byte
  frameStart : List Byte
  btPrefix : List Byte
  btSuffix : List Byte
  maxFrame : Nat := 16
  /-- `PORT_ID`, an opaque identifier: a number here, only ever handed to `TxOpen`. -/
  portId : Nat
  deriving DecidableEq, Repr

/-- The eleven parameterless frames of R10. -/
def Params.frames (p : Params) : List (List Byte) :=
  [p.frameHome, p.frameCenter, p.framePreview, p.frameUp, p.frameDown, p.frameLeft, p.frameRight, p.framePause,
    p.frameReset, p.frameErase, p.frameStart]

/-- The constraints of R10. -/
abbrev Params.wf (p : Params) : Prop :=
  (1 ≤ p.chunkSize ∧ p.chunkSize ≤ 32768) ∧ p.threshold ≤ 256 ∧ (1 ≤ p.maxDim ∧ p.maxDim ≤ 65535) ∧
    786432 ≤ p.imgCap ∧ 1 ≤ p.maxFrame ∧ (∀ f ∈ p.frames, 1 ≤ f.length ∧ f.length ≤ p.maxFrame) ∧
    p.btPrefix.length ≤ p.maxFrame ∧ p.btSuffix.length ≤ p.maxFrame

/-- Some legal parameters. They are no machine's: they only show that `Config` has a member, which Lean asks for
before it admits a constant without a body. -/
def Params.someLegal : Params where
  chunkSize := 1
  drainTimeout := .infinite
  imgCap := 786432
  frameHome := [0]
  frameCenter := [0]
  framePreview := [0]
  frameUp := [0]
  frameDown := [0]
  frameLeft := [0]
  frameRight := [0]
  framePause := [0]
  frameReset := [0]
  frameErase := [0]
  frameStart := [0]
  btPrefix := []
  btSuffix := []
  portId := 0

/-- Parameters together with the proof that they meet R10: no instance of the model exists outside the constraints
(R257 (2), I21). -/
structure Config where
  params : Params := Params.someLegal
  legal : params.wf := by decide
  deriving DecidableEq, Repr, Inhabited

/-- The parameters of the machine that `State.reset` describes: a free value (no body), so that what is proved of it
holds for every legal instance (R10: "the model must quantify over the parameter or take it as given").
DESIGN CHOICE, safe: log entry 1. -/
opaque Config.machine : Config

/-- One answer of the transport agent, a draw (R254). `ok` is `Ok` (else `Err`, or `TimedOut` for a drain). `count` is,
for a write, the m of `Ok(m)` or the drawn prefix j of `Err`; it is cut to the request's length where it is used, so
that every value is a legal draw. -/
structure Answer where
  ok : Bool
  count : Nat
  deriving DecidableEq, Repr, Inhabited

/-- The n-th free answer of the transport, once the list in State is used up (R254, I18): no body, nothing constrains
it. Log entry 3, safe. -/
opaque Config.freeAnswer : Nat → Answer

/-- Whether *lost* is asserted in a gap that the list in State does not describe (R253, R254, I18): no body. Log entry
4, safe. -/
opaque Config.freeLost : Nat → Bool

/-- What a 32-bit register shows of a natural of 2^32 or more, which the spec does not state (R30, R32): no body. Log
entry 13, safe. -/
opaque Config.tooWide32 : Nat → BitVec 32

/-- What the cursor registers `TX_OFF` and `TX_SENT` hold from an operation's end on, where R33 leaves them
unspecified, a natural from 0 to 32768: no body. Log entry 8, safe. -/
opaque Config.freeCursor : Nat → Fin 32769

end Sys2Proof
end

