-- ==== Sys2Proof/Machine/CommandEncoder.lean ====
section
/-! DEFINITION. The command-frame encoder (R75 to R78, R100 to R113): combinational, it reads only the parameters. -/

namespace Sys2Proof.Machine

/-- The twelve Command variants, in the order of their tags (R75). -/
inductive Command where
  | home
  | center
  | preview
  | moveUp
  | moveDown
  | moveLeft
  | moveRight
  | pause
  | reset
  | erase
  | setBurnTime (v : Byte)
  | start (v : Byte)
  deriving DecidableEq, Repr

/-- The variant tag (R75). It appears on no wire. -/
def commandTag : Command → Nat
  | .home => 0
  | .center => 1
  | .preview => 2
  | .moveUp => 3
  | .moveDown => 4
  | .moveLeft => 5
  | .moveRight => 6
  | .pause => 7
  | .reset => 8
  | .erase => 9
  | .setBurnTime _ => 10
  | .start _ => 11

/-- `encode(SetBurnTime(v))` (R77, R112). -/
def burnTimeFrame (p : Params) (v : Byte) : List Byte := p.btPrefix ++ [v] ++ p.btSuffix

/-- `encode : Command -> byte list`, total and pure (R100, R102 to R113). -/
def encodeCommand (p : Params) : Command → List Byte
  | .home => p.frameHome
  | .center => p.frameCenter
  | .preview => p.framePreview
  | .moveUp => p.frameUp
  | .moveDown => p.frameDown
  | .moveLeft => p.frameLeft
  | .moveRight => p.frameRight
  | .pause => p.framePause
  | .reset => p.frameReset
  | .erase => p.frameErase
  | .setBurnTime v => burnTimeFrame p v
  | .start v => burnTimeFrame p v ++ p.frameStart

end Sys2Proof.Machine
end

