-- ==== Sys2Proof/Syntax.lean ====
section
/-! DEFINITION. The host operations (R72) as one inductive type: one constructor for each row of the opcode table. -/

namespace Sys2Proof

/-- A host operation. The nineteen operations of R72, and the table's row "(reserved)": a word that is none of them
(R73), with its two fields. -/
inductive Instr where
  /-- `OPEN`, 0x01 (R204). -/
  | openPort
  /-- `CLOSE`, 0x02 (R205). -/
  | close
  /-- `HOME`, 0x10 (R206). -/
  | home
  /-- `CENTER`, 0x11 (R207). -/
  | center
  /-- `PREVIEW`, 0x12 (R208). -/
  | preview
  /-- `MOVE_UP`, 0x13 (R209). -/
  | moveUp
  /-- `MOVE_DOWN`, 0x14 (R210). -/
  | moveDown
  /-- `MOVE_LEFT`, 0x15 (R211). -/
  | moveLeft
  /-- `MOVE_RIGHT`, 0x16 (R212). -/
  | moveRight
  /-- `PAUSE`, 0x20 (R213). -/
  | pause
  /-- `RESET`, 0x21, the device reset command (R214). -/
  | reset
  /-- `START v`, 0x22, with the burn time v = ARG (R215, R71). -/
  | start (v : Byte)
  /-- `ERASE`, 0x30 (R216). -/
  | erase
  /-- `ERASE_SETTLED`, 0x31 (R217). -/
  | eraseSettled
  /-- `UPLOAD_IMAGE`, 0x40 (R218). -/
  | uploadImage
  /-- `UPLOAD_RAW`, 0x41 (R219). -/
  | uploadRaw
  /-- `AWAIT_DRAIN`, 0x50 (R220). -/
  | awaitDrain
  /-- `CONVERT`, 0x60 (R144). -/
  | convert
  /-- `UNPACK`, 0x61 (R146). -/
  | unpack
  /-- A word that is no operation: a reserved OP, or a defined OP other than START with a non-zero ARG (R73). -/
  | reserved (op arg : Byte)
  deriving DecidableEq, Repr

end Sys2Proof
end

