-- ==== Sys2Proof/Machine/State.lean ====
section
/-! DEFINITION. The state of the block, as plain data: the registers and buffers of R38, the transport stream, the
parameters of the instance, and the moves of the two agents outside (host and transport) that the machine reads. -/

namespace Sys2Proof.Machine

/-- The session state (R22). The register is 3 bits wide; the code 7 is never held, so it has no name. -/
inductive Session where
  | disconnected
  | idle
  | erasing
  | uploading
  | ready
  | engraving
  | paused
  deriving DecidableEq, Repr

/-- The contents of `STATUS`: `OK` or an error kind of R250. Codes 9 to 255 are never written, so they have no name. -/
inductive Status where
  | ok
  | connectionFailed
  | notConnected
  | invalidImage
  | invalidPayloadSize
  | transmissionFailed
  | timedOut
  | invalidState
  | invalidOperation
  deriving DecidableEq, Repr

/-- The three byte buffers (R37, R50). The fourth space, the transport stream, has no addresses. -/
inductive Space where
  | img
  | payload
  | bmp
  deriving DecidableEq, Repr

/-- The content of a buffer: the bytes written since block reset, addresses strictly rising. An address that is not
listed is unwritten and holds no value (R56). -/
abbrev Memory := List Host.Cell

/-- A request of the sequencer to the transport (R14). -/
inductive TxRequest where
  /-- `TxOpen(id)` -/
  | openPort (id : Nat)
  /-- `TxWrite(s)` -/
  | write (bytes : List Byte)
  /-- `TxDrain(t)` -/
  | drain (t : DrainTimeout)
  /-- `TxClose()` -/
  | close
  deriving DecidableEq, Repr

/-- A move of an agent outside the block: a host access (R35, R51), the *lost* event (R253) or block reset (R280).
Writing register 0, `HOP`, issues an operation (R70). -/
inductive Input where
  | regRead (num : Nat)
  | regWrite (num value : Nat)
  | memRead (sp : Space) (addr : Nat)
  | memWrite (sp : Space) (addr : Nat) (b : Byte)
  | lost
  | blockReset
  deriving DecidableEq, Repr

/-- The machine. -/
structure State where
  /-- MODEL: the parameters of this instance (R10), which no step changes (R65, R281). Log entry 1. -/
  cfg : Config
  /-- `SESSION` (R22). -/
  session : Session
  /-- `SPENT` (R23). -/
  spent : Bool
  /-- `BUSY` (R24). -/
  busy : Bool
  /-- `LOST` (R25). -/
  lost : Bool
  /-- `IMG_W` (R26). -/
  imgW : BitVec 16
  /-- `IMG_H` (R26). -/
  imgH : BitVec 16
  /-- `IMG_FMT` (R27). -/
  imgFmt : BitVec 8
  /-- `PAYLOAD_LEN` (R29). -/
  payloadLen : BitVec 32
  /-- `STATUS` (R30). -/
  status : Status
  /-- `COUNT` (R30). -/
  count : BitVec 32
  /-- `TX_OFF` (R33): a natural, beyond 32768 only inside the send of a longer frame (DESIGN CHOICE, log entry 25). -/
  txOff : Nat
  /-- `TX_SENT` (R33): a natural, as `TX_OFF` (log entry 25). -/
  txSent : Nat
  /-- Buffer `IMG` (R37, R50 (1)). -/
  img : Memory
  /-- Buffer `PAYLOAD` (R37, R50 (2)). -/
  payload : Memory
  /-- Buffer `BMP` (R37, R50 (3)). -/
  bmp : Memory
  /-- The transport stream, first byte first (R50 (4), R62). -/
  stream : List Byte
  /-- MODEL: the requests issued to the transport, first one first (R14). -/
  requests : List TxRequest
  /-- MODEL: the values the host's reads returned, first one first, zero-extended to 32 bits (R35, R51). -/
  reads : List (BitVec 32)
  /-- MODEL: the inputs still to come while no operation is in progress, next one first (R200). Log entry 10. -/
  inbox : List Input
  /-- MODEL: for each coming gap between two sequencer steps of an operation, the inputs that land in it (R15, R253).
  Log entries 2 and 4. -/
  gaps : List (List Input)
  /-- MODEL: the coming answers of the transport, one for each request but `TxClose` (R254). Log entry 3. -/
  answers : List Answer
  /-- MODEL: the number of free values taken, their index (R254, I18). Log entry 10. -/
  draws : Nat
  deriving DecidableEq, Repr

/-- Why the machine stops with a fault. -/
inductive Fault where
  /-- `UNWRITTEN_READ(space, addr)` (R56, R257 (1)): raised by a read of a buffer byte nothing has written, by the
  converter, by `unpack` and by a host read of BMP. Safe: the spec itself gives the byte no value. -/
  | unwrittenRead (sp : Space) (addr : Nat)
  /-- A `TxDrain(INFINITE)` that the transport never answers (R254, I19 "stuck"): raised by the drain request. Safe:
  the run hangs and its state is not final. -/
  | drainNeverAnswered
  deriving DecidableEq, Repr

/-- Why the machine refuses a move: it "has no step" (R257 (2), I20). -/
inductive Refusal where
  /-- An instruction that has no meaning yet. Raised by no arm of `exec`. Safe. -/
  | notModelled (mnemonic : String)
  /-- A host access made while `BUSY = 1`, other than reading STATE, STATUS or COUNT (R24, R35, R52, R200): raised by
  issuing an operation and by the host ports. Safe: R35 gives it no step. -/
  | accessWhileBusy
  /-- A register number outside R35's table: raised by the register port. Safe: R35 gives it no step. -/
  | noSuchRegister (num : Nat)
  /-- A host read of the write-only `HOP` (R35): raised by the register port. Safe. -/
  | registerNotReadable (num : Nat)
  /-- A host write to a read-only register (R35): raised by the register port. Safe. -/
  | registerNotWritable (num : Nat)
  /-- A value that is no value of the register's width (R35, R55): raised by the register port. Safe. Log entry 16. -/
  | valueTooWide (num value : Nat)
  /-- A memory-port address outside the space (R52): raised by the memory port. Safe. -/
  | addressOutsideSpace (sp : Space) (addr : Nat)
  /-- A memory-port access of a kind R51 does not give the host: raised by the memory port. Safe. -/
  | accessNotGiven (sp : Space)
  deriving DecidableEq, Repr

/-- The machine after block reset (R38, R280). `TX_OFF` and `TX_SENT` are unspecified there: 0 is a DESIGN CHOICE, log
entry 8. The stream, the logs and the agents' lists are empty: DESIGN CHOICE, log entries 9 and 10. -/
def State.reset : State where
  cfg := Config.machine
  session := .disconnected
  spent := false
  busy := false
  lost := false
  imgW := 0
  imgH := 0
  imgFmt := 0
  payloadLen := 0
  status := .ok
  count := 0
  txOff := 0
  txSent := 0
  img := []
  payload := []
  bmp := []
  stream := []
  requests := []
  reads := []
  inbox := []
  gaps := []
  answers := []
  draws := 0

end Sys2Proof.Machine
end

