-- ==== Sys2Proof/Machine/Flags.lean ====
section
/-! DEFINITION. The encodings of results (R80): the codes of `SESSION` (R22) and `STATUS` (R250) and the view `STATE`
(R28). The block has no other flags (R34). -/

namespace Sys2Proof.Machine

/-- The code of a session state in `STATE[2:0]` (R22). -/
def sessionCode : Session → BitVec 3
  | .disconnected => 0
  | .idle => 1
  | .erasing => 2
  | .uploading => 3
  | .ready => 4
  | .engraving => 5
  | .paused => 6

/-- The code in `STATUS` (R250). -/
def statusCode : Status → BitVec 8
  | .ok => 0
  | .connectionFailed => 1
  | .notConnected => 2
  | .invalidImage => 3
  | .invalidPayloadSize => 4
  | .transmissionFailed => 5
  | .timedOut => 6
  | .invalidState => 7
  | .invalidOperation => 8

/-- The read-only view `STATE`: `00`, LOST, BUSY, SPENT, SESSION from bit 7 down (R28). -/
def stateView (s : State) : BitVec 8 :=
  (0 : BitVec 2) ++ BitVec.ofBool s.lost ++ BitVec.ofBool s.busy ++ BitVec.ofBool s.spent ++ sessionCode s.session

end Sys2Proof.Machine
end

