-- ==== Sys2Proof/Machine/Ops.lean ====
section
/-! DEFINITION. The named operations: byte lists (R12, R13), the buffers (R14, R50, R56), the end of an operation
(`finish` and `raise`, R31), transport loss (R253), block reset (R280), and how the steps of an operation are put
together. The block has no traps and no return from one (R256): an error is `raise`, the one shared operation. -/

namespace Sys2Proof.Machine

/-- What one step of the machine answers. -/
abbrev Result := Host.Outcome State Fault Refusal

/-! ### Numbers and byte lists -/

/-- `ceil_div(a, b)` (R12). -/
def ceilDiv (a b : Nat) : Nat := (a + b - 1) / b

/-- A natural in a 32-bit register (R30, R32): itself, or a free value if it does not fit (log entry 13). -/
def word32 (n : Nat) : BitVec 32 := if n < 2 ^ 32 then BitVec.ofNat 32 n else Config.tooWide32 n

/-- `slice(s, i, n)` (R13). -/
def slice (l : List Byte) (i n : Nat) : List Byte := (l.drop i).take n

/-- Apply a computation that may stop to every element, in order, stopping at the first that does. -/
def collect {ε α β : Type} (f : α → Except ε β) : List α → Except ε (List β)
  | [] => .ok []
  | a :: rest =>
    match f a with
    | .error e => .error e
    | .ok b =>
      match collect f rest with
      | .error e => .error e
      | .ok bs => .ok (b :: bs)

/-! ### Buffers -/

/-- The byte at an address, none if it is unwritten (R56). -/
def Memory.readByte : Memory → Nat → Option Byte
  | [], _ => none
  | cell :: rest, a => if cell.1 = a then some cell.2 else Memory.readByte rest a

/-- The cells of consecutive bytes from an address on. -/
def cellsFrom : Nat → List Byte → Memory
  | _, [] => []
  | a, b :: bs => (a, b) :: cellsFrom (a + 1) bs

/-- `MemWrite(space, a, n, bytes)` on the content of a buffer (R14): the n bytes from `a` on become `bytes`. -/
def Memory.writeBytes (m : Memory) (a : Nat) (bytes : List Byte) : Memory :=
  m.filter (fun cell => decide (cell.1 < a)) ++ cellsFrom a bytes ++
    m.filter (fun cell => decide (a + bytes.length ≤ cell.1))

/-- The canonical form of a buffer's content: addresses strictly rising, all below the capacity (R50). -/
abbrev Memory.wf (m : Memory) (cap : Nat) : Prop :=
  m.Pairwise (fun c d => c.1 < d.1) ∧ ∀ c ∈ m, c.1 < cap

/-- The number of bytes of BMP and of PAYLOAD (`BMP_BYTES`, R8). -/
def bmpBytes : Nat := 32768

/-- The capacity of a buffer (R50). -/
def capacity (cfg : Config) : Space → Nat
  | .img => cfg.params.imgCap
  | .payload => bmpBytes
  | .bmp => bmpBytes

/-- The content of a buffer. -/
def State.buffer (s : State) : Space → Memory
  | .img => s.img
  | .payload => s.payload
  | .bmp => s.bmp

/-- The state with another content of a buffer. -/
def State.setBuffer (s : State) (sp : Space) (m : Memory) : State :=
  match sp with
  | .img => { s with img := m }
  | .payload => { s with payload := m }
  | .bmp => { s with bmp := m }

/-- `MemRead(space, a, 1)`; an unwritten byte is the fault `UNWRITTEN_READ` (R56). -/
def memReadByte (s : State) (sp : Space) (a : Nat) : Except Fault Byte :=
  match (s.buffer sp).readByte a with
  | some b => .ok b
  | none => .error (.unwrittenRead sp a)

/-- `MemRead(space, a, n)`, byte by byte from `a` up (R14). -/
def memRead (s : State) (sp : Space) (a n : Nat) : Except Fault (List Byte) :=
  collect (memReadByte s sp) (List.range' a n)

/-- `MemWrite(space, a, n, bytes)` (R14). -/
def memWrite (s : State) (sp : Space) (a : Nat) (bytes : List Byte) : State :=
  s.setBuffer sp ((s.buffer sp).writeBytes a bytes)

/-! ### The transport held, its loss and its release -/

/-- A transport is held: `SESSION ≠ Disconnected` (R253). -/
def State.held (s : State) : Bool := decide (s.session ≠ .disconnected)

/-- Record a request to the transport (R14). -/
def logRequest (r : TxRequest) (s : State) : State := { s with requests := s.requests ++ [r] }

/-- The end of a lost session: `TxClose()`, `SESSION <- Disconnected`, `SPENT <- 1` (R31 step 3, R253). -/
def release (s : State) : State :=
  logRequest .close { s with session := .disconnected, spent := true }

/-- The *lost* event (R253): it can occur only while a transport is held (DEDUCED, log entry 5: otherwise nothing
happens). It sets `LOST`; with `BUSY = 0` the session ends at once. -/
def loseTransport (s : State) : State :=
  if s.held then
    if s.busy then { s with lost := true } else release { s with lost := true }
  else s

/-! ### The end of an operation -/

/-- The end of an operation leaves the cursor unspecified (R33): `TX_OFF` and `TX_SENT` take free values (log entry 8).
Nothing reads them before the next send writes them. -/
def endCursor (s : State) : State :=
  { s with txOff := Config.freeCursor s.draws, txSent := Config.freeCursor (s.draws + 1), draws := s.draws + 2 }

/-- `finish(status, count)` (R31), the one way an operation ends: the results, the end of the session if the transport
held was lost (step 3), and `BUSY <- 0`. -/
def finish (st : Status) (c : Nat) (s : State) : State :=
  endCursor
    (if s.held && s.lost then { release { s with status := st, count := word32 c } with busy := false }
    else { s with status := st, count := word32 c, busy := false })

/-- `raise E(count)`, short for `finish(E, count)` (R14, R250). Taking an error saves nothing else and goes nowhere
else (R256). -/
def raiseError (e : Status) (c : Nat) (s : State) : State := finish e c s

/-! ### Block reset -/

/-- Block reset (R280): every register and buffer at its value of R38, any transport dropped without sending anything.
The parameters are not changed (R281); the stream, the logs and the agents' moves are not the block's registers and
stay (DESIGN CHOICE, log entry 11). -/
def blockReset (s : State) : State :=
  { State.reset with
    cfg := s.cfg, stream := s.stream, requests := s.requests, reads := s.reads, inbox := s.inbox, gaps := s.gaps,
    answers := s.answers, draws := s.draws }

/-! ### Steps put together -/

/-- What a part of an operation answers: it goes on with a value and a state, or the machine's step ends here. -/
inductive Run (α : Type) where
  /-- The operation goes on. -/
  | go (a : α) (s : State)
  /-- The step ends: a fault, a refusal, or the state a block reset left. -/
  | stop (r : Host.Outcome State Fault Refusal)

/-- One part of an operation after another. -/
def Run.bind {α β : Type} (r : Run α) (f : α → State → Run β) : Run β :=
  match r with
  | .go a s => f a s
  | .stop o => .stop o

/-- The last part of an operation: it answers the step. -/
def Run.andThen {α : Type} (r : Run α) (f : α → State → Result) : Result :=
  match r with
  | .go a s => f a s
  | .stop o => o

end Sys2Proof.Machine
end

