-- ==== Sys2Proof/Machine/Operands.lean ====
section
/-! DEFINITION. The operands of the operations: the interface registers as the operations check them (R130, R145), the
register port of the host (R35) and its memory port (R51, R52). -/

namespace Sys2Proof.Machine

/-! ### Operand checks -/

/-- The admitted pixel formats (R27). -/
inductive PixelFormat where
  | gray8
  | rgb888
  deriving DecidableEq, Repr

/-- The format a value of `IMG_FMT` names; 2 to 255 are not admitted (R27). -/
def pixelFormat (fmt : BitVec 8) : Option PixelFormat :=
  if fmt = 0 then some .gray8 else if fmt = 1 then some .rgb888 else none

/-- `bpp`: bytes for each pixel (R27). -/
def bpp : PixelFormat → Nat
  | .gray8 => 1
  | .rgb888 => 3

/-- `valid_image()` (R130): the format of the image if it is valid, else none. -/
def validImage (s : State) : Option PixelFormat :=
  if (1 ≤ s.imgW.toNat ∧ s.imgW.toNat ≤ s.cfg.params.maxDim) ∧ (1 ≤ s.imgH.toNat ∧ s.imgH.toNat ≤ s.cfg.params.maxDim) then
    match pixelFormat s.imgFmt with
    | some f => if s.imgW.toNat * s.imgH.toNat * bpp f ≤ s.cfg.params.imgCap then some f else none
    | none => none
  else none

/-- `PAYLOAD_LEN = 32768` (R145). -/
def validPayloadLen (s : State) : Bool := decide (s.payloadLen.toNat = bmpBytes)

/-! ### The register port -/

/-- The registers of R35's table. -/
inductive Reg where
  | hop
  | status
  | count
  | state
  | imgW
  | imgH
  | imgFmt
  | payloadLen
  | eraseWait
  | chunk
  deriving DecidableEq, Repr

/-- The register of a number (R35). -/
def regOfNumber : Nat → Option Reg
  | 0 => some .hop
  | 1 => some .status
  | 2 => some .count
  | 3 => some .state
  | 4 => some .imgW
  | 5 => some .imgH
  | 6 => some .imgFmt
  | 7 => some .payloadLen
  | 8 => some .eraseWait
  | 9 => some .chunk
  | _ => none

/-- The width of a register in bits (R35). -/
def regWidth : Reg → Nat
  | .hop => 16
  | .status => 8
  | .count => 32
  | .state => 8
  | .imgW => 16
  | .imgH => 16
  | .imgFmt => 8
  | .payloadLen => 32
  | .eraseWait => 32
  | .chunk => 32

/-- The value the host reads from a register, none for the write-only `HOP` (R35). `ERASE_WAIT` and `CHUNK` are
hardwired to parameters (R32; log entry 13 for a parameter that does not fit). -/
def regValue (s : State) : Reg → Option (BitVec 32)
  | .hop => none
  | .status => some ((statusCode s.status).zeroExtend 32)
  | .count => some s.count
  | .state => some ((stateView s).zeroExtend 32)
  | .imgW => some (s.imgW.zeroExtend 32)
  | .imgH => some (s.imgH.zeroExtend 32)
  | .imgFmt => some (s.imgFmt.zeroExtend 32)
  | .payloadLen => some s.payloadLen
  | .eraseWait => some (word32 s.cfg.params.eraseWaitMs)
  | .chunk => some (word32 s.cfg.params.chunkSize)

/-- The registers the host may read at any time, also while `BUSY = 1` (R200). -/
def readableWhileBusy : Reg → Bool
  | .status => true
  | .count => true
  | .state => true
  | .hop => false
  | .imgW => false
  | .imgH => false
  | .imgFmt => false
  | .payloadLen => false
  | .eraseWait => false
  | .chunk => false

/-- A host read of a register (R35, R200). It has no side effect on the block (R58); its value goes to the host. -/
def hostRegRead (num : Nat) (s : State) : Result :=
  match regOfNumber num with
  | none => .refused (.noSuchRegister num)
  | some r =>
    if s.busy && !readableWhileBusy r then .refused .accessWhileBusy
    else
      match regValue s r with
      | none => .refused (.registerNotReadable num)
      | some v => .next { s with reads := s.reads ++ [v] }

/-- A host write of a register other than `HOP` (R35): the four read/write registers take the value whole, every other
has no step. A write of a 16-bit value to `HOP` is no matter of this operation: it issues an operation (R70,
`Sys2Proof.Machine.fetch`). -/
def hostRegWrite (num value : Nat) (s : State) : Result :=
  match regOfNumber num with
  | none => .refused (.noSuchRegister num)
  | some r =>
    if s.busy then .refused .accessWhileBusy
    else if 2 ^ regWidth r ≤ value then .refused (.valueTooWide num value)
    else
      match r with
      | .imgW => .next { s with imgW := BitVec.ofNat 16 value }
      | .imgH => .next { s with imgH := BitVec.ofNat 16 value }
      | .imgFmt => .next { s with imgFmt := BitVec.ofNat 8 value }
      | .payloadLen => .next { s with payloadLen := BitVec.ofNat 32 value }
      | .hop => .refused (.registerNotWritable num)
      | .status => .refused (.registerNotWritable num)
      | .count => .refused (.registerNotWritable num)
      | .state => .refused (.registerNotWritable num)
      | .eraseWait => .refused (.registerNotWritable num)
      | .chunk => .refused (.registerNotWritable num)

/-! ### The memory port -/

/-- A host read through the memory port: of BMP only, one byte (R51, R52, R56). -/
def hostMemRead (sp : Space) (a : Nat) (s : State) : Result :=
  if s.busy then .refused .accessWhileBusy
  else if sp ≠ .bmp then .refused (.accessNotGiven sp)
  else if capacity s.cfg sp ≤ a then .refused (.addressOutsideSpace sp a)
  else
    match memReadByte s sp a with
    | .ok b => .next { s with reads := s.reads ++ [b.zeroExtend 32] }
    | .error f => .fault f

/-- A host write through the memory port: to IMG and PAYLOAD only, one byte (R51, R52). -/
def hostMemWrite (sp : Space) (a : Nat) (b : Byte) (s : State) : Result :=
  if s.busy then .refused .accessWhileBusy
  else if sp = .bmp then .refused (.accessNotGiven sp)
  else if capacity s.cfg sp ≤ a then .refused (.addressOutsideSpace sp a)
  else .next (memWrite s sp a [b])

/-- One input, in any state: a host access, the loss event or block reset. -/
def applyInput (inp : Input) (s : State) : Result :=
  match inp with
  | .regRead num => hostRegRead num s
  | .regWrite num value => hostRegWrite num value s
  | .memRead sp a => hostMemRead sp a s
  | .memWrite sp a b => hostMemWrite sp a b s
  | .lost => .next (loseTransport s)
  | .blockReset => .next (blockReset s)

end Sys2Proof.Machine
end

