-- ==== Sys2Proof/Machine/Transport.lean ====
section
/-! DEFINITION. The sequencer's dealings with the agents outside during an operation: acceptance (R70, R200), the gaps
between its steps, in which inputs land (R15, R253), and the requests to the transport (R14, R254). -/

namespace Sys2Proof.Machine

/-- The inputs of one gap, in order. A host access and a loss leave the operation running; block reset ends it (R280,
log entry 11). -/
def applyInputs : List Input → State → Run Unit
  | [], s => .go () s
  | inp :: rest, s =>
    match applyInput inp s with
    | .next s' => if inp = .blockReset then .stop (.next s') else applyInputs rest s'
    | .fault f => .stop (.fault f)
    | .refused r => .stop (.refused r)

/-- A gap the list in State does not describe: the transport may be lost in it, a free value (R254, I18; log entry 4). -/
def freeGap (s : State) : State :=
  { s with lost := s.lost || (s.held && Config.freeLost s.draws), draws := s.draws + 1 }

/-- The gap between two sequencer steps of an operation (R15): what lands in it comes from `gaps`. -/
def gap (s : State) : Run Unit :=
  match s.gaps with
  | inputs :: rest => applyInputs inputs { s with gaps := rest }
  | [] => .go () (freeGap s)

/-- A write to `HOP` is accepted while `BUSY = 0` and has no step while `BUSY = 1` (R70, R200): `BUSY <- 1`, then the
sequencer's first step. -/
def accept (s : State) : Run Unit :=
  if s.busy then .stop (.refused .accessWhileBusy) else gap { s with busy := true }

/-- The transport's next answer and the state after the draw (R254): from `answers`, else a free value. -/
def drawAnswer (s : State) : Answer × State :=
  match s.answers with
  | a :: rest => (a, { s with answers := rest })
  | [] => (Config.freeAnswer s.draws, { s with draws := s.draws + 1 })

/-- `TxOpen(PORT_ID)`, answered `Ok` (true) or `Err` (R14, R254). -/
def txOpen (s : State) : Run Bool :=
  let (a, s1) := drawAnswer (logRequest (.openPort s.cfg.params.portId) s)
  (gap s1).bind fun _ s2 => .go a.ok s2

/-- Bytes arrive at the end of the transport stream (R62). -/
def appendStream (bytes : List Byte) (s : State) : State := { s with stream := s.stream ++ bytes }

/-- `TxWrite(bytes)`, answered `Ok(m)` (some m) or `Err` (none), with m at most the length (R254). On `Ok(m)` the first
m bytes are appended to the stream; on `Err` a drawn prefix is (R174, I17). -/
def txWrite (bytes : List Byte) (s : State) : Run (Option Nat) :=
  let (a, s1) := drawAnswer (logRequest (.write bytes) s)
  let m := min a.count bytes.length
  (gap (appendStream (bytes.take m) s1)).bind fun _ s2 => .go (if a.ok then some m else none) s2

/-- `TxDrain(DRAIN_TIMEOUT_MS)`, answered `Ok` (true) or `TimedOut` (false). With `INFINITE` it is never `TimedOut`: a
transport that does not answer `Ok` never drains, and the run hangs (R254, I19; log entry 7). -/
def txDrain (s : State) : Run Bool :=
  let (a, s1) := drawAnswer (logRequest (.drain s.cfg.params.drainTimeout) s)
  (gap s1).bind fun _ s2 =>
    if !a.ok && decide (s.cfg.params.drainTimeout = .infinite) then .stop (.fault .drainNeverAnswered)
    else .go a.ok s2

end Sys2Proof.Machine
end

