-- ==== Sys2Proof/Machine/Connection.lean ====
section
/-! DEFINITION. The checks of every operation (R201) and the operations of the connection: `OPEN` (R204), `CLOSE` (R205),
and a word that is no operation (R73). -/

namespace Sys2Proof.Machine

/-- Steps 2 and 3 of R201 for an operation that needs the transport: NotConnected in Disconnected, InvalidState where
R202 does not allow the operation, else the operation's own steps. -/
def checked (allowed : Session → Bool) (s : State) (body : State → Result) : Result :=
  if s.session = .disconnected then .next (raiseError .notConnected 0 s)
  else if allowed s.session then body s
  else .next (raiseError .invalidState 0 s)

/-- Every connected state (R202). -/
def inAnySession : Session → Bool
  | _ => true

/-- `OPEN` (R204). -/
def execOpen (s : State) : Result :=
  (accept s).andThen fun _ s1 =>
    if s1.spent then .next (raiseError .notConnected 0 s1)
    else if s1.session ≠ .disconnected then .next (raiseError .invalidState 0 s1)
    else
      (txOpen s1).andThen fun ok s2 =>
        .next (if ok then finish .ok 0 { s2 with session := .idle } else raiseError .connectionFailed 0 s2)

/-- `CLOSE` (R205): it always succeeds and sends no frame. Until SESSION is written, after `TxClose`, the transport can
still be lost (R253; log entry 14). -/
def execClose (s : State) : Result :=
  (accept s).andThen fun _ s1 =>
    checked inAnySession s1 fun s2 =>
      (gap (logRequest .close s2)).andThen fun _ s3 =>
        .next (finish .ok 0 { s3 with session := .disconnected, spent := true })

/-- A word that is no operation (R73): `raise InvalidOperation(0)`, whatever its fields. -/
def execReserved (_op _arg : Byte) (s : State) : Result :=
  (accept s).andThen fun _ s1 => .next (raiseError .invalidOperation 0 s1)

end Sys2Proof.Machine
end

