-- ==== Sys2Proof/Machine/Transmission.lean ====
section
/-! DEFINITION. The transmission engine (R170 to R181): the chunk split, the chunked and paced send, and awaitDrain. -/

namespace Sys2Proof.Machine

/-- The number of chunks of a payload (R170). -/
def chunkCount (c len : Nat) : Nat := ceilDiv len c

/-- `chunk_i(p)` (R170). -/
def chunk (c : Nat) (p : List Byte) (i : Nat) : List Byte := slice p (i * c) (min c (p.length - i * c))

/-- The chunks of a payload, in order (R170). -/
def chunks (c : Nat) (p : List Byte) : List (List Byte) := (List.range (chunkCount c p.length)).map (chunk c p)

/-- What a send returns: `Done(k)` or `Failed(k)`, with k the bytes acknowledged (R172). -/
inductive SendResult where
  | done (k : Nat)
  | failed (k : Nat)
  deriving DecidableEq, Repr

/-- `TX_OFF <- off ; TX_SENT <- sent`: the cursor moves (R33; beyond 32768 in a longer frame: DESIGN CHOICE, log entry
25). -/
def setCursor (off sent : Nat) (s : State) : State := { s with txOff := off, txSent := sent }

/-- The pacing drain after an acknowledged chunk (R175, R176): true if the send goes on. -/
def paceDrain (s : State) : Run Bool :=
  if s.cfg.params.paceDrain then
    if s.lost then .go false s else txDrain s
  else .go true s

/-- The loop of `send(p)` (R172), at most `fuel` times round; each round sends one chunk of at least one byte, so the
length of p is fuel enough. R33 bounds the cursor to 0 to 32768, but R10 bounds no frame's length: in a frame of more
than 32768 bytes the model's cursor runs on past the bound to the frame's end (DESIGN CHOICE, log entry 25). -/
def sendLoop (p : List Byte) : Nat → State → Run SendResult
  | 0, s => .go (.done s.txSent) s
  | fuel + 1, s =>
    if s.txOff < p.length then
      let n := min s.cfg.params.chunkSize (p.length - s.txOff)
      if s.lost then .go (.failed s.txSent) s
      else
        (txWrite (slice p s.txOff n) s).bind fun answer s1 =>
          match answer with
          | none => .go (.failed s1.txSent) s1
          | some m =>
            if m < n then .go (.failed (s1.txSent + m)) (setCursor s1.txOff (s1.txSent + m) s1)
            else
              (paceDrain (setCursor (s1.txOff + n) (s1.txSent + m) s1)).bind fun goOn s3 =>
                if goOn then sendLoop p fuel s3 else .go (.failed s3.txSent) s3
    else .go (.done s.txSent) s

/-- `send(p)` (R172). -/
def send (p : List Byte) (s : State) : Run SendResult :=
  sendLoop p p.length (setCursor 0 0 s)

/-- `awaitDrain(DRAIN_TIMEOUT_MS)` (R180): true is `Ok`, false `TimedOut`; with `LOST = 1` nothing is issued. -/
def awaitDrain (s : State) : Run Bool :=
  if s.lost then .go false s else txDrain s

end Sys2Proof.Machine
end

