-- ==== Sys2Proof/Machine/Commands.lean ====
section
/-! DEFINITION. The operations that send one command frame (R203): motion (R206 to R212), engraving control (R213 to
R215) and erase (R216); and `ERASE_SETTLED` (R217) and `AWAIT_DRAIN` (R220), which send none. -/

namespace Sys2Proof.Machine

/-- The command-send template (R203): the checks, one `send(encode(cmd))`, the success or the failure transition, and
COUNT the bytes acknowledged. -/
def sendCommand (cmd : Command) (allowed : Session → Bool) (onDone onFailed : Session → Session) (s : State) : Result :=
  (accept s).andThen fun _ s1 =>
    checked allowed s1 fun s2 =>
      (send (encodeCommand s2.cfg.params cmd) s2).andThen fun r s3 =>
        match r with
        | .done k => .next (finish .ok k { s3 with session := onDone s3.session })
        | .failed k => .next (raiseError .transmissionFailed k { s3 with session := onFailed s3.session })

/-- Motion is allowed in Idle and Ready (R202, R206). -/
def inIdleOrReady (x : Session) : Bool := x == .idle || x == .ready

/-- The session state unchanged. -/
def unchanged (x : Session) : Session := x

/-- `HOME` (R206). -/
def execHome (s : State) : Result := sendCommand .home inIdleOrReady unchanged unchanged s

/-- `CENTER` (R207). -/
def execCenter (s : State) : Result := sendCommand .center inIdleOrReady unchanged unchanged s

/-- `PREVIEW` (R208). -/
def execPreview (s : State) : Result := sendCommand .preview inIdleOrReady unchanged unchanged s

/-- `MOVE_UP` (R209). -/
def execMoveUp (s : State) : Result := sendCommand .moveUp inIdleOrReady unchanged unchanged s

/-- `MOVE_DOWN` (R210). -/
def execMoveDown (s : State) : Result := sendCommand .moveDown inIdleOrReady unchanged unchanged s

/-- `MOVE_LEFT` (R211). -/
def execMoveLeft (s : State) : Result := sendCommand .moveLeft inIdleOrReady unchanged unchanged s

/-- `MOVE_RIGHT` (R212). -/
def execMoveRight (s : State) : Result := sendCommand .moveRight inIdleOrReady unchanged unchanged s

/-- `PAUSE` (R213): in Engraving only, to Paused. -/
def execPause (s : State) : Result := sendCommand .pause (fun x => x == .engraving) (fun _ => .paused) unchanged s

/-- `RESET` (R214): in every connected state, to Idle, also when the send fails. -/
def execReset (s : State) : Result := sendCommand .reset inAnySession (fun _ => .idle) (fun _ => .idle) s

/-- `START v` (R215): in Ready and Paused, to Engraving. -/
def execStart (v : Byte) (s : State) : Result :=
  sendCommand (.start v) (fun x => x == .ready || x == .paused) (fun _ => .engraving) unchanged s

/-- `ERASE` (R216): in Idle only, to Erasing. -/
def execErase (s : State) : Result := sendCommand .erase (fun x => x == .idle) (fun _ => .erasing) unchanged s

/-- `ERASE_SETTLED` (R217): in Erasing only, to Idle; no byte is sent. -/
def execEraseSettled (s : State) : Result :=
  (accept s).andThen fun _ s1 =>
    checked (fun x => x == .erasing) s1 fun s2 => .next (finish .ok 0 { s2 with session := .idle })

/-- `AWAIT_DRAIN` (R220): one drain, in every connected state. -/
def execAwaitDrain (s : State) : Result :=
  (accept s).andThen fun _ s1 =>
    checked inAnySession s1 fun s2 =>
      (awaitDrain s2).andThen fun ok s3 =>
        .next (if ok then finish .ok 0 s3 else raiseError .timedOut 0 s3)

end Sys2Proof.Machine
end

