-- ==== Sys2Proof/Machine/ImageConverter.lean ====
section
/-! DEFINITION. The image rasterizer and monochrome converter (R130 to R146): the five stages in their order (R131),
`convert`, `unpack` and `packedBytes`. -/

namespace Sys2Proof.Machine

/-- A source pixel (R134). -/
inductive Pixel where
  | gray (g : Byte)
  | rgb (r g b : Byte)
  deriving DecidableEq, Repr

/-- The index sampled on an axis of the given size, `((2x + 1) × size) div 1024`: `sx` with W, `sy` with H (R132). -/
def sampleIndex (size x : Nat) : Nat := (2 * x + 1) * size / 1024

/-- The byte address of pixel (i, j) (R53, R134). -/
def pixelAddr (w : Nat) (f : PixelFormat) (i j : Nat) : Nat := (j * w + i) * bpp f

/-- `pix(i, j)` (R134): one byte, or R, G and B at rising addresses (R53). -/
def readPixel (s : State) (f : PixelFormat) (i j : Nat) : Except Fault Pixel :=
  let a := pixelAddr s.imgW.toNat f i j
  match f with
  | .gray8 =>
    match memReadByte s .img a with
    | .ok g => .ok (.gray g)
    | .error e => .error e
  | .rgb888 =>
    match memReadByte s .img a with
    | .error e => .error e
    | .ok r =>
      match memReadByte s .img (a + 1) with
      | .error e => .error e
      | .ok g =>
        match memReadByte s .img (a + 2) with
        | .error e => .error e
        | .ok b => .ok (.rgb r g b)

/-- The luminance Y of a pixel, 0 to 255 (R136). -/
def luminance : Pixel → Nat
  | .gray g => g.toNat
  | .rgb r g b => (299 * r.toNat + 587 * g.toNat + 114 * b.toNat + 500) / 1000

/-- Scale: `S(x, y)` (R132). -/
def scaled (s : State) (f : PixelFormat) (x y : Nat) : Except Fault Pixel :=
  readPixel s f (sampleIndex s.imgW.toNat x) (sampleIndex s.imgH.toNat y)

/-- Monochromize: `M(x, y)`, white is 1 (R137). -/
def monochrome (s : State) (f : PixelFormat) (x y : Nat) : Except Fault Bool :=
  match scaled s f x y with
  | .ok p => .ok (decide (s.cfg.params.threshold ≤ luminance p))
  | .error e => .error e

/-- Mirror: `F(x, y) = M(511 - x, y)` (R138). -/
def mirrored (s : State) (f : PixelFormat) (x y : Nat) : Except Fault Bool := monochrome s f (511 - x) y

/-- Invert: `B(x, y) = 1 - F(x, y)`; 1 means engrave (R139). -/
def inverted (s : State) (f : PixelFormat) (x y : Nat) : Except Fault Bool :=
  match mirrored s f x y with
  | .ok b => .ok (!b)
  | .error e => .error e

/-- The number whose binary digits are the given bits, the first one the most significant. -/
def bitsToNat (bits : List Bool) : Nat := bits.foldl (fun acc b => 2 * acc + b.toNat) 0

/-- A byte from the bits of 8 pixels, leftmost first: `MSB_FIRST` puts the leftmost in bit 7, `LSB_FIRST` in bit 0
(R141). -/
def packBits (order : BitOrder) (bits : List Bool) : Byte :=
  match order with
  | .msbFirst => BitVec.ofNat 8 (bitsToNat bits)
  | .lsbFirst => BitVec.ofNat 8 (bitsToNat bits.reverse)

/-- Pack: the byte at BMP address `y × 64 + j`, of the pixels (8j, y) to (8j + 7, y) (R54, R141). -/
def packedByte (s : State) (f : PixelFormat) (a : Nat) : Except Fault Byte :=
  match collect (fun k => inverted s f (8 * (a % 64) + k) (a / 64)) (List.range 8) with
  | .ok bits => .ok (packBits s.cfg.params.bitOrder bits)
  | .error e => .error e

/-- `convert()` of a valid image (R142): all 32768 bytes of BMP are written, from IMG alone. The first unwritten byte
met, row by row, is the fault's (DESIGN CHOICE, log entry 12). -/
def convertImage (s : State) (f : PixelFormat) : Except Fault State :=
  match collect (packedByte s f) (List.range bmpBytes) with
  | .ok bytes => .ok (memWrite s .bmp 0 bytes)
  | .error e => .error e

/-- `unpack()` of a payload of the right length (R145): PAYLOAD is copied to BMP unchanged. -/
def unpackPayload (s : State) : Except Fault State :=
  match memRead s .payload 0 bmpBytes with
  | .ok bytes => .ok (memWrite s .bmp 0 bytes)
  | .error e => .error e

/-- `packedBytes()` (R143): `MemRead(BMP, 0, 32768)`. -/
def packedBytes (s : State) : Except Fault (List Byte) := memRead s .bmp 0 bmpBytes

end Sys2Proof.Machine
end

