-- ==== Sys2Proof/Machine/Images.lean ====
section
/-! DEFINITION. The operations on images: `CONVERT` (R144), `UNPACK` (R146), `UPLOAD_IMAGE` (R218), `UPLOAD_RAW` (R219). -/

namespace Sys2Proof.Machine

/-- The part the two uploads share (R218, R219): `SESSION <- Uploading`, send the bitmap, then Ready, or Idle on
failure. -/
def uploadBitmap (s : State) : Result :=
  match packedBytes s with
  | .error f => .fault f
  | .ok p =>
    (send p { s with session := .uploading }).andThen fun r s1 =>
      match r with
      | .done k => .next (finish .ok k { s1 with session := .ready })
      | .failed k => .next (raiseError .transmissionFailed k { s1 with session := .idle })

/-- `CONVERT` (R144): allowed in every session state, it sends nothing. -/
def execConvert (s : State) : Result :=
  (accept s).andThen fun _ s1 =>
    match validImage s1 with
    | none => .next (raiseError .invalidImage 0 s1)
    | some f =>
      match convertImage s1 f with
      | .ok s2 => .next (finish .ok 0 s2)
      | .error e => .fault e

/-- `UNPACK` (R146): allowed in every session state, it sends nothing. -/
def execUnpack (s : State) : Result :=
  (accept s).andThen fun _ s1 =>
    if validPayloadLen s1 then
      match unpackPayload s1 with
      | .ok s2 => .next (finish .ok 0 s2)
      | .error e => .fault e
    else .next (raiseError .invalidPayloadSize 0 s1)

/-- `UPLOAD_IMAGE` (R218): in Idle only; convert, then send the bitmap. -/
def execUploadImage (s : State) : Result :=
  (accept s).andThen fun _ s1 =>
    checked (fun x => x == .idle) s1 fun s2 =>
      match validImage s2 with
      | none => .next (raiseError .invalidImage 0 s2)
      | some f =>
        match convertImage s2 f with
        | .ok s3 => uploadBitmap s3
        | .error e => .fault e

/-- `UPLOAD_RAW` (R219): in Idle only; unpack, then send the bitmap. -/
def execUploadRaw (s : State) : Result :=
  (accept s).andThen fun _ s1 =>
    checked (fun x => x == .idle) s1 fun s2 =>
      if validPayloadLen s2 then
        match unpackPayload s2 with
        | .ok s3 => uploadBitmap s3
        | .error e => .fault e
      else .next (raiseError .invalidPayloadSize 0 s2)

end Sys2Proof.Machine
end

