-- ==== Sys2Proof/Machine/Dispatch.lean ====
section
/-! DEFINITION. The dispatch of operations: one arm for each constructor of `Instr`, each one call of its meaning. -/

namespace Sys2Proof.Machine

def exec (i : Instr) (s : State) : Host.Outcome State Fault Refusal :=
  match i with
  | .openPort => Sys2Proof.Machine.execOpen s
  | .close => Sys2Proof.Machine.execClose s
  | .home => Sys2Proof.Machine.execHome s
  | .center => Sys2Proof.Machine.execCenter s
  | .preview => Sys2Proof.Machine.execPreview s
  | .moveUp => Sys2Proof.Machine.execMoveUp s
  | .moveDown => Sys2Proof.Machine.execMoveDown s
  | .moveLeft => Sys2Proof.Machine.execMoveLeft s
  | .moveRight => Sys2Proof.Machine.execMoveRight s
  | .pause => Sys2Proof.Machine.execPause s
  | .reset => Sys2Proof.Machine.execReset s
  | .start v => Sys2Proof.Machine.execStart v s
  | .erase => Sys2Proof.Machine.execErase s
  | .eraseSettled => Sys2Proof.Machine.execEraseSettled s
  | .uploadImage => Sys2Proof.Machine.execUploadImage s
  | .uploadRaw => Sys2Proof.Machine.execUploadRaw s
  | .awaitDrain => Sys2Proof.Machine.execAwaitDrain s
  | .convert => Sys2Proof.Machine.execConvert s
  | .unpack => Sys2Proof.Machine.execUnpack s
  | .reserved op arg => Sys2Proof.Machine.execReserved op arg s

end Sys2Proof.Machine
end

