-- ==== Sys2Proof/WellFormed.lean ====
section
/-! DEFINITION. Which terms of `Instr` stand for a word: all but a `reserved` that names a defined operation. -/

namespace Sys2Proof

/-- The operation codes of R72 that take no operand; 0x22 (`START`) is the one that takes its ARG. -/
def plainOps : List Byte :=
  [0x01, 0x02, 0x10, 0x11, 0x12, 0x13, 0x14, 0x15, 0x16, 0x20, 0x21, 0x30, 0x31, 0x40, 0x41, 0x50, 0x60, 0x61]

/-- The word `OP × 256 + ARG` is no operation of R72 (R73): OP is not `START`'s, and it is not an operandless
operation with ARG = 0. -/
def isReserved (op arg : Byte) : Bool :=
  !(op == 0x22) && !(plainOps.contains op && arg == 0)

/-- A well-formed instruction: one that some word stands for. -/
def Instr.wf : Instr → Bool
  | .openPort => true
  | .close => true
  | .home => true
  | .center => true
  | .preview => true
  | .moveUp => true
  | .moveDown => true
  | .moveLeft => true
  | .moveRight => true
  | .pause => true
  | .reset => true
  | .start _ => true
  | .erase => true
  | .eraseSettled => true
  | .uploadImage => true
  | .uploadRaw => true
  | .awaitDrain => true
  | .convert => true
  | .unpack => true
  | .reserved op arg => isReserved op arg

end Sys2Proof
end

