-- ==== Sys2Proof/Decode.lean ====
section
/-! DEFINITION. Decoding of host operation words (R70 to R73), total on every word and refusing by name what is no word,
and after it the encoder, from the same table. -/

namespace Sys2Proof

/-- Field `OP`, bits 15:8 of the word (R70). -/
def opField (w : HopWord) : Byte := w.extractLsb' 8 8

/-- Field `ARG`, bits 7:0 of the word, unsigned and unscaled (R70, R71). -/
def argField (w : HopWord) : Byte := w.extractLsb' 0 8

/-- The word with the given fields, `OP × 256 + ARG` (R70, R74). -/
def hopWord (op arg : Byte) : HopWord := op ++ arg

/-- The operation of a plain OP with ARG = 0 (R72). -/
def decodePlain (op : Byte) : Option Instr :=
  match op.toNat with
  | 0x01 => some .openPort
  | 0x02 => some .close
  | 0x10 => some .home
  | 0x11 => some .center
  | 0x12 => some .preview
  | 0x13 => some .moveUp
  | 0x14 => some .moveDown
  | 0x15 => some .moveLeft
  | 0x16 => some .moveRight
  | 0x20 => some .pause
  | 0x21 => some .reset
  | 0x30 => some .erase
  | 0x31 => some .eraseSettled
  | 0x40 => some .uploadImage
  | 0x41 => some .uploadRaw
  | 0x50 => some .awaitDrain
  | 0x60 => some .convert
  | 0x61 => some .unpack
  | _ => none

/-- Decoding from the two fields: `START` takes every ARG; every other operation needs ARG = 0; the rest is reserved
(R71, R72, R73). -/
def decodeFields (op arg : Byte) : Instr :=
  if op = 0x22 then .start arg
  else if arg = 0 then (decodePlain op).getD (.reserved op arg)
  else .reserved op arg

/-- The decoder of a host operation word: total, every word has exactly one row (R73). -/
def decode (w : HopWord) : Instr := decodeFields (opField w) (argField w)

/-- Why a string of bits is no host operation word. -/
inductive DecodeError where
  /-- More than 16 bits: there is exactly one length, 16 bits (R70). Safe: no write to HOP has another length. -/
  | longerThanOneWord (nbits : Nat)
  /-- The number does not fit in the given bits. Safe: it is no string of that many bits. -/
  | notThatManyBits (nbits w : Nat)
  deriving DecidableEq, Repr

/-- Decoding of `nbits` bits whose number is `w`; the bits above them, up to the sixteenth, are 0. -/
def decodeBits (nbits w : Nat) : Except DecodeError Instr :=
  if 16 < nbits then .error (.longerThanOneWord nbits)
  else if 2 ^ nbits ≤ w then .error (.notThatManyBits nbits w)
  else .ok (decode (BitVec.ofNat 16 w))

/-- The instruction the decoder reads from a row's word, bit 0 the least significant; none where it refuses. -/
def decodeTableWord (nbits w : Nat) : Option Instr :=
  match decodeBits nbits w with
  | .ok i => some i
  | .error _ => none

/-- The OP of an instruction (R72). -/
def opCode : Instr → Byte
  | .openPort => 0x01
  | .close => 0x02
  | .home => 0x10
  | .center => 0x11
  | .preview => 0x12
  | .moveUp => 0x13
  | .moveDown => 0x14
  | .moveLeft => 0x15
  | .moveRight => 0x16
  | .pause => 0x20
  | .reset => 0x21
  | .start _ => 0x22
  | .erase => 0x30
  | .eraseSettled => 0x31
  | .uploadImage => 0x40
  | .uploadRaw => 0x41
  | .awaitDrain => 0x50
  | .convert => 0x60
  | .unpack => 0x61
  | .reserved op _ => op

/-- The ARG of an instruction: the burn time for `START`, 0 for every other operation (R71). -/
def argCode : Instr → Byte
  | .start v => v
  | .reserved _ arg => arg
  | .openPort => 0
  | .close => 0
  | .home => 0
  | .center => 0
  | .preview => 0
  | .moveUp => 0
  | .moveDown => 0
  | .moveLeft => 0
  | .moveRight => 0
  | .pause => 0
  | .reset => 0
  | .erase => 0
  | .eraseSettled => 0
  | .uploadImage => 0
  | .uploadRaw => 0
  | .awaitDrain => 0
  | .convert => 0
  | .unpack => 0

/-- The encoder: the word of an instruction (R74: `OP × 256 + ARG`). -/
def encode (i : Instr) : HopWord := hopWord (opCode i) (argCode i)

end Sys2Proof
end

