-- ==== Sys2Proof/Machine/Fetch.lean ====
section
/-! DEFINITION. What the block turns to next. It fetches no instructions (R21): operations arrive one at a time from
the host, as writes to `HOP` (R70, R200). -/

namespace Sys2Proof.Machine

/-- What the block turns to next. -/
inductive Fetched where
  /-- Nothing: no input is there, the block is quiescent (R265). -/
  | quiet
  /-- A word written to `HOP` (R70). -/
  | operation (w : HopWord) (s : State)
  /-- Another input. -/
  | other (inp : Input) (s : State)

/-- The word an input writes to `HOP`, register 0, if it does: its value is one of 16 bits (R35, R70). -/
def hopWrite : Input → Option HopWord
  | .regWrite 0 value => if value < 2 ^ 16 then some (BitVec.ofNat 16 value) else none
  | .regWrite (_ + 1) _ => none
  | .regRead _ => none
  | .memRead _ _ => none
  | .memWrite _ _ _ => none
  | .lost => none
  | .blockReset => none

/-- Take the next input. -/
def fetch (s : State) : Fetched :=
  match s.inbox with
  | [] => .quiet
  | inp :: rest =>
    match hopWrite inp with
    | some w => .operation w { s with inbox := rest }
    | none => .other inp { s with inbox := rest }

/-- The state in which the host's next move is the write of a word to `HOP`. -/
def placeWord (s : State) (w : Nat) : State := { s with inbox := .regWrite 0 w :: s.inbox }

end Sys2Proof.Machine
end

