-- ==== Sys2Proof/Machine/Step.lean ====
section
/-! DEFINITION. One step of the machine: the next input, an operation from acceptance to `finish` if it is a write to
`HOP`. Without an input the block stays as it is (R265, R281; log entry 20). -/

namespace Sys2Proof.Machine

def step (s : State) : Host.Outcome State Fault Refusal :=
  match fetch s with
  | .quiet => .next s
  | .operation w s1 => exec (decode w) s1
  | .other inp s1 => applyInput inp s1

/-- The state with a host operation word placed where `step` takes its next one: the host's next move writes it to
`HOP` (R70). `nbits` is at most the one length, 16 bits; the bits above it are 0. Log entry 10. -/
def State.withFetchWord (s : State) (_nbits w : Nat) : State := placeWord s w

end Sys2Proof.Machine
end

