-- ==== Sys2Proof/Machine/Program.lean ====
section
/-! DEFINITION. Host programs (R74): the items a program is written in, the host accesses they stand for, and the
syntax of a line. -/

namespace Sys2Proof.Machine

/-- One item of a host program: an operation or one of the three directives (R74). -/
inductive ProgramItem where
  | op (i : Instr)
  /-- `WR reg, value`; with `HOP` it issues an operation (DESIGN CHOICE, log entry 19). -/
  | wr (num value : Nat)
  /-- `POKE space, addr, byte` -/
  | poke (sp : Space) (addr : Nat) (b : Byte)
  /-- `FILL space, addr, n, byte` -/
  | fill (sp : Space) (addr n : Nat) (b : Byte)
  deriving DecidableEq, Repr

/-- The host accesses an item stands for: an operation is a write of its word to `HOP`, `FILL` is n `POKE`s (R74). `WR`
of any register is a write at the register port; R74 leaves open whether `WR` may name `HOP`, which R35 lists as
host write-only: here it may, and `WR HOP, v` issues the operation of the word v (DESIGN CHOICE, log entry 19). -/
def itemInputs : ProgramItem → List Input
  | .op i => [.regWrite 0 (encode i).toNat]
  | .wr num value => [.regWrite num value]
  | .poke sp a b => [.memWrite sp a b]
  | .fill sp a n b => (List.range' a n).map fun addr => .memWrite sp addr b

/-- The host is about to run a program: its accesses are the next inputs, after those already there. -/
def loadProgram (items : List ProgramItem) (s : State) : State :=
  { s with inbox := s.inbox ++ items.flatMap itemInputs }

/-! ### The syntax of a line -/

/-- The characters between the parts of a line. -/
def isBlank (c : Char) : Bool := c == ' ' || c == '\t'

/-- Without the blanks at both ends. -/
def trimBlanks (cs : List Char) : List Char := ((cs.dropWhile isBlank).reverse.dropWhile isBlank).reverse

/-- The fields between commas. -/
def splitCommas : List Char → List (List Char)
  | [] => [[]]
  | c :: cs =>
    if c = ',' then [] :: splitCommas cs
    else
      match splitCommas cs with
      | [] => [[c]]
      | field :: fields => (c :: field) :: fields

/-- The value of a digit in a base of at most 16. -/
def digitValue (base : Nat) (c : Char) : Option Nat :=
  let n := c.toNat
  let v := if 48 ≤ n ∧ n ≤ 57 then n - 48 else if 65 ≤ n ∧ n ≤ 70 then n - 55 else if 97 ≤ n ∧ n ≤ 102 then n - 87 else 16
  if v < base then some v else none

/-- The value of digits, most significant first, on top of a value already read. -/
def digitsValue (base : Nat) : Nat → List Char → Option Nat
  | acc, [] => some acc
  | acc, c :: cs =>
    match digitValue base c with
    | some d => digitsValue base (base * acc + d) cs
    | none => none

/-- A decimal number or a `0x` hexadecimal number (R74). -/
def parseNumber : List Char → Option Nat
  | [] => none
  | ['0', 'x'] => none
  | '0' :: 'x' :: ds => digitsValue 16 0 ds
  | ds => digitsValue 10 0 ds

/-- The mnemonics of the operations without operand (R72). -/
def plainMnemonics : List (String × Instr) :=
  [("OPEN", .openPort), ("CLOSE", .close), ("HOME", .home), ("CENTER", .center), ("PREVIEW", .preview),
    ("MOVE_UP", .moveUp), ("MOVE_DOWN", .moveDown), ("MOVE_LEFT", .moveLeft), ("MOVE_RIGHT", .moveRight),
    ("PAUSE", .pause), ("RESET", .reset), ("ERASE", .erase), ("ERASE_SETTLED", .eraseSettled),
    ("UPLOAD_IMAGE", .uploadImage), ("UPLOAD_RAW", .uploadRaw), ("AWAIT_DRAIN", .awaitDrain), ("CONVERT", .convert),
    ("UNPACK", .unpack)]

/-- The names of the registers with their numbers (R35), all of which `WR` may name: R74 asks for a host-writable one and
leaves `HOP` open (DESIGN CHOICE, log entry 19: `WR HOP, v` issues an operation); the register port refuses the
read-only ones. -/
def regNames : List (String × Nat) :=
  [("HOP", 0), ("STATUS", 1), ("COUNT", 2), ("STATE", 3), ("IMG_W", 4), ("IMG_H", 5), ("IMG_FMT", 6),
    ("PAYLOAD_LEN", 7), ("ERASE_WAIT", 8), ("CHUNK", 9)]

/-- The names of the buffers (R50). -/
def spaceNames : List (String × Space) := [("IMG", .img), ("PAYLOAD", .payload), ("BMP", .bmp)]

/-- The entry of a name in a table. -/
def named {α : Type} (table : List (String × α)) (cs : List Char) : Option α :=
  (table.find? fun entry => decide (entry.1.toList = cs)).map (·.2)

/-- A number that is one byte. -/
def parseByte (cs : List Char) : Option Byte :=
  match parseNumber cs with
  | some n => if n < 256 then some (BitVec.ofNat 8 n) else none
  | none => none

/-- An item from its mnemonic and its operand fields (R74). -/
def parseItem (mnemonic : List Char) (fields : List (List Char)) : Option ProgramItem :=
  match fields with
  | [] => none
  | [a] =>
    if a = [] then (named plainMnemonics mnemonic).map ProgramItem.op
    else if mnemonic = "START".toList then (parseByte a).map fun v => .op (.start v)
    else none
  | [a, b] =>
    if mnemonic = "WR".toList then
      match named regNames a, parseNumber b with
      | some num, some value => some (.wr num value)
      | _, _ => none
    else none
  | [a, b, c] =>
    if mnemonic = "POKE".toList then
      match named spaceNames a, parseNumber b, parseByte c with
      | some sp, some addr, some v => some (.poke sp addr v)
      | _, _, _ => none
    else none
  | [a, b, c, d] =>
    if mnemonic = "FILL".toList then
      match named spaceNames a, parseNumber b, parseNumber c, parseByte d with
      | some sp, some addr, some n, some v => some (.fill sp addr n v)
      | _, _, _, _ => none
    else none
  | _ => none

/-- What a line of a host program is. -/
inductive Line where
  /-- Nothing but blanks and a comment. -/
  | blank
  | item (it : ProgramItem)
  /-- No line of R74's syntax. -/
  | malformed
  deriving DecidableEq, Repr

/-- One line of a host program: an item, with a comment from `;` on left out (R74; log entry 19). -/
def parseLine (line : String) : Line :=
  let text := trimBlanks (line.toList.takeWhile fun c => c != ';')
  if text = [] then .blank
  else
    let mnemonic := text.takeWhile fun c => !isBlank c
    let operands := text.dropWhile fun c => !isBlank c
    match parseItem mnemonic ((splitCommas operands).map trimBlanks) with
    | some it => .item it
    | none => .malformed

end Sys2Proof.Machine
end

