-- ==== Sys2Proof/Safety.lean ====
section
/-! DEFINITION. The terms claims about runs are stated in: the invariant of the machine between operations, what the
agents outside do in a run (quiet gaps, good answers, no block reset), and the transition table of R202. -/

namespace Sys2Proof.Safety

open Sys2Proof.Machine

/-! ### The machine between operations -/

/-- What holds whenever no operation is in progress (R221 (1), (3), (4)), and the canonical form of the buffers. A loss
has ended the session, so `LOST = 1` also means `SPENT = 1` (R31, R253). -/
abbrev Inv (s : State) : Prop :=
  s.busy = false ∧ s.session ≠ .uploading ∧ (s.spent = true → s.session = .disconnected) ∧
    (s.lost = true → s.session = .disconnected ∧ s.spent = true) ∧
    s.img.wf (capacity s.cfg .img) ∧ s.payload.wf (capacity s.cfg .payload) ∧ s.bmp.wf (capacity s.cfg .bmp)

/-- No operation is in progress, and a loss has ended the session (R221 (4), R253). -/
abbrev Settled (s : State) : Prop := s.busy = false ∧ (s.lost = true → s.session = .disconnected)

/-! ### What the agents outside do -/

/-- No input lands in the next n gaps. -/
abbrev QuietGaps (s : State) (n : Nat) : Prop := s.gaps.take n = List.replicate n []

/-- What a request of a send asks of the transport: to take n bytes, or to drain (R172, R175). -/
inductive Asked where
  | write (n : Nat)
  | drain
  deriving DecidableEq, Repr

/-- A good answer: to a write, `Ok` of all its bytes (a greater count is cut to them: log entry 3); to a drain, `Ok`. -/
def goodAnswer : Asked → Answer → Bool
  | .write n, a => a.ok && decide (n ≤ a.count)
  | .drain, a => a.ok

/-- The transport's next answers are good, one for each of the things asked. -/
def answersGood : List Asked → List Answer → Bool
  | [], _ => true
  | _ :: _, [] => false
  | q :: qs, a :: as => goodAnswer q a && answersGood qs as

/-- What the send of a chunk of n bytes asks: a write of them, and a drain if `PACE_DRAIN` (R172, R175). -/
def askedOfChunk (p : Params) (n : Nat) : List Asked := if p.paceDrain then [.write n, .drain] else [.write n]

/-- What the send of the first n chunks of a payload of the given length asks, each write with its chunk's own length
(R170). -/
def askedOfChunks (p : Params) (len n : Nat) : List Asked :=
  (List.range n).flatMap fun i => askedOfChunk p (min p.chunkSize (len - i * p.chunkSize))

/-- The transport's next answers are good for the first n chunks of a payload of the given length. -/
abbrev GoodAnswers (s : State) (len n : Nat) : Prop :=
  answersGood (askedOfChunks s.cfg.params len n) s.answers = true

/-- No block reset lands in a gap of an operation. -/
abbrev NoBlockReset (s : State) : Prop := ∀ g ∈ s.gaps, Input.blockReset ∉ g

/-- How many requests the send of one chunk makes: a write, and a drain if `PACE_DRAIN` (R172, R175). -/
def requestsPerChunk (p : Params) : Nat := if p.paceDrain then 2 else 1

/-- How many requests the send of a payload of the given length makes, if nothing fails. -/
def sendRequestCount (p : Params) (len : Nat) : Nat := chunkCount p.chunkSize len * requestsPerChunk p

/-- The requests of one chunk (R172, R175). -/
def chunkRequests (p : Params) (c : List Byte) : List TxRequest :=
  if p.paceDrain then [.write c, .drain p.drainTimeout] else [.write c]

/-- The requests of the send of a payload, if nothing fails: the chunks in order, each once (R170, R172, R177). -/
def sendRequests (p : Params) (payload : List Byte) : List TxRequest :=
  (chunks p.chunkSize payload).flatMap (chunkRequests p)

/-- Nothing lands in the gaps of an operation that sends a payload of the given length, the gap of its acceptance
included, and the transport answers every request of the send well. -/
abbrev GoodRun (s : State) (len : Nat) : Prop :=
  QuietGaps s (sendRequestCount s.cfg.params len + 1) ∧ GoodAnswers s len (chunkCount s.cfg.params.chunkSize len)

/-- The state after the good send of a payload. -/
def sent (s : State) (payload : List Byte) : State :=
  let n := sendRequestCount s.cfg.params payload.length
  { s with
    txOff := payload.length, txSent := payload.length, stream := s.stream ++ payload,
    requests := s.requests ++ sendRequests s.cfg.params payload, answers := s.answers.drop n, gaps := s.gaps.drop n }

/-- The state after an operation that sent a payload without a failure and went to the given session state: `STATUS` is
`OK` and `COUNT` the payload's length (R172, R203). -/
def sentAndFinished (s : State) (payload : List Byte) (x : Session) : State :=
  let n := sendRequestCount s.cfg.params payload.length
  endCursor { s with
    session := x, status := .ok, count := word32 payload.length, stream := s.stream ++ payload,
    requests := s.requests ++ sendRequests s.cfg.params payload, answers := s.answers.drop n,
    gaps := s.gaps.drop (n + 1) }

/-- How an operation ends whose transport was lost in it, by the state its steps left (R31, R253, R259): its own results,
Disconnected and spent, with the transport released (log entry 14). -/
def endedLost (s : State) (st : Status) (c : Nat) : State :=
  endCursor { s with
    session := .disconnected, spent := true, status := st, count := word32 c, requests := s.requests ++ [.close],
    busy := false }

/-- The state after an operation that ends with the given results, its gap of acceptance gone. -/
def finished (s : State) (st : Status) (c : Nat) (x : Session) : State :=
  endCursor { s with status := st, count := word32 c, session := x, gaps := s.gaps.drop 1 }

/-! ### The bitmap -/

/-- The bit of a BMP byte that holds bitmap column x (R54, R141). -/
def columnBit (order : BitOrder) (b : Byte) (x : Nat) : Bool :=
  match order with
  | .msbFirst => b.getLsbD (7 - x % 8)
  | .lsbFirst => b.getLsbD (x % 8)

/-- The source pixel of bitmap pixel (x, y) is the given one (R132, R138). -/
abbrev SourcePixel (s : State) (f : PixelFormat) (x y : Nat) (p : Pixel) : Prop :=
  readPixel s f (sampleIndex s.imgW.toNat (511 - x)) (sampleIndex s.imgH.toNat y) = .ok p

/-- The packed bytes of the image in IMG (R140, R141): the bit of bitmap pixel (x, y) is 1 just where the luminance of
its source pixel is below the threshold. -/
def IsBitmapOf (s : State) (f : PixelFormat) (bytes : List Byte) : Prop :=
  bytes.length = 32768 ∧ ∀ x y, x < 512 → y < 512 → ∃ b p, bytes[y * 64 + x / 8]? = some b ∧ SourcePixel s f x y p ∧
    columnBit s.cfg.params.bitOrder b x = decide (luminance p < s.cfg.params.threshold)

/-- Every pixel that Scale samples has been written (R133, R134). -/
def SampledWritten (s : State) (f : PixelFormat) : Prop :=
  ∀ x y, x < 512 → y < 512 → ∃ p, scaled s f x y = .ok p

/-! ### Reserved operation codes -/

/-- The reserved OP values, as R73 lists them. -/
abbrev ReservedOp (n : Nat) : Prop :=
  n = 0x00 ∨ (0x03 ≤ n ∧ n ≤ 0x0F) ∨ (0x17 ≤ n ∧ n ≤ 0x1F) ∨ (0x23 ≤ n ∧ n ≤ 0x2F) ∨ (0x32 ≤ n ∧ n ≤ 0x3F) ∨
    (0x42 ≤ n ∧ n ≤ 0x4F) ∨ (0x51 ≤ n ∧ n ≤ 0x5F) ∨ (0x62 ≤ n ∧ n ≤ 0xFF)

/-! ### The transition table -/

/-- The operations that need the transport: every one but `OPEN`, `CONVERT` and `UNPACK` (R201 step 2); a reserved word
is turned away before. -/
def needsTransport : Instr → Bool
  | .openPort => false
  | .convert => false
  | .unpack => false
  | .reserved _ _ => false
  | .close => true
  | .home => true
  | .center => true
  | .preview => true
  | .moveUp => true
  | .moveDown => true
  | .moveLeft => true
  | .moveRight => true
  | .pause => true
  | .reset => true
  | .start _ => true
  | .erase => true
  | .eraseSettled => true
  | .uploadImage => true
  | .uploadRaw => true
  | .awaitDrain => true

/-- The operations that send a frame or the bitmap (R203, R218, R219): those that can fail with TransmissionFailed (R250). -/
def sendsBytes : Instr → Bool
  | .openPort => false
  | .close => false
  | .home => true
  | .center => true
  | .preview => true
  | .moveUp => true
  | .moveDown => true
  | .moveLeft => true
  | .moveRight => true
  | .pause => true
  | .reset => true
  | .start _ => true
  | .erase => true
  | .eraseSettled => false
  | .uploadImage => true
  | .uploadRaw => true
  | .awaitDrain => false
  | .convert => false
  | .unpack => false
  | .reserved _ _ => false

/-- The length of the Start frame (R78). -/
def startLength (p : Params) : Nat := p.btPrefix.length + 1 + p.btSuffix.length + p.frameStart.length

/-- How many bytes an operation has to send: its frame (R102 to R113), the bitmap (R218, R219), or none. -/
def payloadLength (p : Params) : Instr → Nat
  | .openPort => 0
  | .close => 0
  | .home => p.frameHome.length
  | .center => p.frameCenter.length
  | .preview => p.framePreview.length
  | .moveUp => p.frameUp.length
  | .moveDown => p.frameDown.length
  | .moveLeft => p.frameLeft.length
  | .moveRight => p.frameRight.length
  | .pause => p.framePause.length
  | .reset => p.frameReset.length
  | .start _ => startLength p
  | .erase => p.frameErase.length
  | .eraseSettled => 0
  | .uploadImage => 32768
  | .uploadRaw => 32768
  | .awaitDrain => 0
  | .convert => 0
  | .unpack => 0
  | .reserved _ _ => 0

/-- Where the table of R202 has no dash, for the connected states (Uploading is never observed at issue time). -/
def tableAllows : Instr → List Session
  | .openPort => []
  | .close => [.idle, .erasing, .ready, .engraving, .paused]
  | .home => [.idle, .ready]
  | .center => [.idle, .ready]
  | .preview => [.idle, .ready]
  | .moveUp => [.idle, .ready]
  | .moveDown => [.idle, .ready]
  | .moveLeft => [.idle, .ready]
  | .moveRight => [.idle, .ready]
  | .pause => [.engraving]
  | .reset => [.idle, .erasing, .ready, .engraving, .paused]
  | .start _ => [.ready, .paused]
  | .erase => [.idle]
  | .eraseSettled => [.erasing]
  | .uploadImage => [.idle]
  | .uploadRaw => [.idle]
  | .awaitDrain => [.idle, .erasing, .ready, .engraving, .paused]
  | .convert => [.idle, .erasing, .ready, .engraving, .paused]
  | .unpack => [.idle, .erasing, .ready, .engraving, .paused]
  | .reserved _ _ => []

/-- The session state after an operation that ends with `STATUS = OK` (R202). -/
def onSuccess : Instr → Session → Session
  | .openPort, _ => .idle
  | .close, _ => .disconnected
  | .home, x => x
  | .center, x => x
  | .preview, x => x
  | .moveUp, x => x
  | .moveDown, x => x
  | .moveLeft, x => x
  | .moveRight, x => x
  | .pause, _ => .paused
  | .reset, _ => .idle
  | .start _, _ => .engraving
  | .erase, _ => .erasing
  | .eraseSettled, _ => .idle
  | .uploadImage, _ => .ready
  | .uploadRaw, _ => .ready
  | .awaitDrain, x => x
  | .convert, x => x
  | .unpack, x => x
  | .reserved _ _, x => x

/-- The session state after an operation that ends with an error: unchanged (R203, R251), but that a `RESET` whose send
fails still goes to Idle (R214). -/
def onError : Instr → Session → Session
  | .reset, .disconnected => .disconnected
  | .reset, _ => .idle
  | _, x => x

end Sys2Proof.Safety
end

