-- ==== Sys2Proof/Certificates/Slice0/Obligations.lean ====
section
/-! DEFINITION. The statements about the block, from the numbered rules of the spec. The gaps, answers and inputs they
quantify over are the moves of the host and the transport (log entries 2 to 4); `Settled`, `QuietGaps`, `GoodAnswers`
and the rest are in Safety. Where an operation ends, the hidden cursor takes free values (`endCursor`: R33, log
entry 8). -/

open Sys2Proof Sys2Proof.Machine Sys2Proof.Safety

/-! ### Encoding -/

/-- Eight words written out from R72 and R74 decode to their operations, and two to the reserved row (R73, log entry
18). -/
def Obligations.SampleWordsDecode : Prop :=
  decode 0x0100 = .openPort ∧ decode 0x1000 = .home ∧ decode 0x2000 = .pause ∧ decode 0x2240 = .start 0x40 ∧
    decode 0x3000 = .erase ∧ decode 0x4100 = .uploadRaw ∧ decode 0x5000 = .awaitDrain ∧ decode 0x6100 = .unpack ∧
    decode 0x1001 = .reserved 0x10 0x01 ∧ decode 0xFF00 = .reserved 0xFF 0x00

/-- Decoding undoes encoding for every well-formed instruction, with every operand (R70 to R74). -/
def Obligations.DecodeOfEncode : Prop :=
  ∀ i : Instr, i.wf = true → decode (encode i) = i

/-- R73: every word is exactly one row (its decoding is well-formed and encodes back to it, and no other well-formed
instruction has that word); the words that are no operation are those with a listed reserved OP and those with a
non-zero ARG on an OP other than `START`; issuing one raises InvalidOperation, which changes nothing but STATUS and
COUNT (and its gap, and the cursor, which is unspecified then: R33, log entry 8). -/
def Obligations.ReservedWordsRaiseInvalidOperation : Prop :=
  (∀ w : HopWord, (decode w).wf = true ∧ encode (decode w) = w ∧
    (∀ i : Instr, i.wf = true → encode i = w → i = decode w) ∧
    ((∃ op arg, decode w = .reserved op arg) ↔
      (ReservedOp (w.toNat / 256) ∨ (w.toNat / 256 ≠ 0x22 ∧ w.toNat % 256 ≠ 0)))) ∧
  ∀ (op arg : Byte) (s : State), Settled s → QuietGaps s 1 →
    exec (.reserved op arg) s = .next (finished s .invalidOperation 0 s.session)

/-! ### The command encoder -/

/-- The frame of each of the twelve commands (R102 to R113), and the length of the parameterless ones (R76). -/
def Obligations.CommandFrames : Prop :=
  ∀ (cfg : Config) (v : Byte),
    encodeCommand cfg.params .home = cfg.params.frameHome ∧ encodeCommand cfg.params .center = cfg.params.frameCenter ∧
    encodeCommand cfg.params .preview = cfg.params.framePreview ∧ encodeCommand cfg.params .moveUp = cfg.params.frameUp ∧
    encodeCommand cfg.params .moveDown = cfg.params.frameDown ∧
    encodeCommand cfg.params .moveLeft = cfg.params.frameLeft ∧
    encodeCommand cfg.params .moveRight = cfg.params.frameRight ∧
    encodeCommand cfg.params .pause = cfg.params.framePause ∧ encodeCommand cfg.params .reset = cfg.params.frameReset ∧
    encodeCommand cfg.params .erase = cfg.params.frameErase ∧
    encodeCommand cfg.params (.setBurnTime v) = cfg.params.btPrefix ++ [v] ++ cfg.params.btSuffix ∧
    encodeCommand cfg.params (.start v) = encodeCommand cfg.params (.setBurnTime v) ++ cfg.params.frameStart ∧
    ∀ c ∈ [Command.home, .center, .preview, .moveUp, .moveDown, .moveLeft, .moveRight, .pause, .reset, .erase],
      1 ≤ (encodeCommand cfg.params c).length ∧ (encodeCommand cfg.params c).length ≤ cfg.params.maxFrame

/-- R114: the burn time stands at index `len(BT_PREFIX)`, nothing else of a Start frame depends on it, and no frame's
length does. -/
def Obligations.BurnTimePosition : Prop :=
  ∀ (p : Params) (v w : Byte),
    (encodeCommand p (.start v))[p.btPrefix.length]? = some v ∧
    (∀ i, i ≠ p.btPrefix.length → (encodeCommand p (.start v))[i]? = (encodeCommand p (.start w))[i]?) ∧
    (encodeCommand p (.start v)).length = (encodeCommand p (.start w)).length ∧
    (encodeCommand p (.setBurnTime v)).length = (encodeCommand p (.setBurnTime w)).length

/-! ### The image converter -/

/-- R130, R144: the image is valid just if the four conditions hold, and `CONVERT` of an invalid one reports
InvalidImage with BMP, and everything else, unchanged, whatever IMG holds. Only the cursor takes free values (R33, log
entry 8). -/
def Obligations.InvalidImageIsRejected : Prop :=
  ∀ s : State,
    ((validImage s).isSome = true ↔
      (1 ≤ s.imgW.toNat ∧ s.imgW.toNat ≤ s.cfg.params.maxDim) ∧ (1 ≤ s.imgH.toNat ∧ s.imgH.toNat ≤ s.cfg.params.maxDim) ∧
        (s.imgFmt.toNat = 0 ∨ s.imgFmt.toNat = 1) ∧
        s.imgW.toNat * s.imgH.toNat * (if s.imgFmt.toNat = 0 then 1 else 3) ≤ s.cfg.params.imgCap) ∧
    (Settled s → QuietGaps s 1 → validImage s = none →
      exec .convert s = .next (finished s .invalidImage 0 s.session))

/-- R132: the sampled index on each axis, and what follows: every sampled pixel is inside the image and inside the
buffer, and no intermediate value reaches 2^26. -/
def Obligations.SampledPixelsAreInside : Prop :=
  ∀ (s : State) (f : PixelFormat) (x y : Nat), validImage s = some f → x ≤ 511 → y ≤ 511 →
    let i := sampleIndex s.imgW.toNat x
    let j := sampleIndex s.imgH.toNat y
    i = (2 * x + 1) * s.imgW.toNat / 1024 ∧ j = (2 * y + 1) * s.imgH.toNat / 1024 ∧ scaled s f x y = readPixel s f i j ∧
      i ≤ s.imgW.toNat - 1 ∧ j ≤ s.imgH.toNat - 1 ∧ (2 * x + 1) * s.imgW.toNat < 2 ^ 26 ∧
      (2 * y + 1) * s.imgH.toNat < 2 ^ 26 ∧
      pixelAddr s.imgW.toNat f i j + bpp f ≤ s.imgW.toNat * s.imgH.toNat * bpp f ∧
      pixelAddr s.imgW.toNat f i j + bpp f ≤ s.cfg.params.imgCap

/-- The corner cases of Scale that R133 lists. -/
def Obligations.ScaleCornerCases : Prop :=
  ∀ x, x ≤ 511 →
    sampleIndex 512 x = x ∧ sampleIndex 1 x = 0 ∧ (x ≤ 255 → sampleIndex 2 x = 0) ∧ (256 ≤ x → sampleIndex 2 x = 1) ∧
      sampleIndex 256 x = x / 2 ∧ sampleIndex 1024 x = 2 * x + 1 ∧ sampleIndex 65535 0 = 63 ∧
      sampleIndex 65535 511 = 65471

/-- R148: Scale commutes with Mirror on an axis whose size is no multiple of 1024; at 1024 it does not. -/
def Obligations.ScaleCommutesWithMirror : Prop :=
  (∀ size x, 1 ≤ size → x ≤ 511 → ¬ 1024 ∣ size → sampleIndex size (511 - x) = size - 1 - sampleIndex size x) ∧
    sampleIndex 1024 0 = 1 ∧ sampleIndex 1024 511 = 1023

/-- R136: the luminance of a gray and of a color pixel, its range, and the values the rule lists. -/
def Obligations.LuminanceOfPixels : Prop :=
  (∀ g : Byte, luminance (.gray g) = g.toNat) ∧
    (∀ r g b : Byte, luminance (.rgb r g b) = (299 * r.toNat + 587 * g.toNat + 114 * b.toNat + 500) / 1000) ∧
    (∀ p : Pixel, luminance p ≤ 255) ∧ (∀ v : Byte, luminance (.rgb v v v) = v.toNat) ∧
    (∀ r g b : Byte, 299 * r.toNat + 587 * g.toNat + 114 * b.toNat + 500 ≤ 255500) ∧
    luminance (.rgb 255 0 0) = 76 ∧ luminance (.rgb 0 255 0) = 150 ∧ luminance (.rgb 0 0 255) = 29

/-- R140: the closed form of the pipeline, from the source pixel. -/
def Obligations.BitmapClosedForm : Prop :=
  ∀ (s : State) (f : PixelFormat) (x y : Nat) (p : Pixel), x ≤ 511 → y ≤ 511 → SourcePixel s f x y p →
    inverted s f x y = .ok (decide (luminance p < s.cfg.params.threshold))

/-- R141: after `convert` the bit of every bitmap pixel is its inverted bit, in the byte `y × 64 + x div 8` and in the
bit `BIT_ORDER` chooses; all 32768 bytes are written, and nothing else changes. -/
def Obligations.PackPlacesEveryPixel : Prop :=
  ∀ (s s' : State) (f : PixelFormat), convertImage s f = .ok s' →
    s' = { s with bmp := s'.bmp } ∧
    (∀ a, 32768 ≤ a → s'.bmp.readByte a = s.bmp.readByte a) ∧
    ∀ x y, x < 512 → y < 512 → ∃ b, s'.bmp.readByte (y * 64 + x / 8) = some b ∧
      inverted s f x y = .ok (columnBit s.cfg.params.bitOrder b x)

/-- `CONVERT` of a valid image whose sampled pixels are written completes (R142, R144): `STATUS = OK`, `COUNT = 0`, BMP
holds the bitmap of the image, and nothing else changes. -/
def Obligations.ConvertCompletes : Prop :=
  ∀ (s : State) (f : PixelFormat), Settled s → QuietGaps s 1 → validImage s = some f → SampledWritten s f →
    ∃ t bytes, exec .convert s = .next t ∧ t = { finished s .ok 0 s.session with bmp := t.bmp } ∧
      IsBitmapOf s f bytes ∧ (∀ a, a < 32768 → t.bmp.readByte a = bytes[a]?) ∧
      ∀ a, 32768 ≤ a → t.bmp.readByte a = s.bmp.readByte a

/-- `UNPACK` of a written payload of 32768 bytes completes (R145, R146): BMP holds the payload, byte for byte. With any
other `PAYLOAD_LEN` it reports InvalidPayloadSize and changes nothing else, whatever PAYLOAD holds. -/
def Obligations.UnpackCompletes : Prop :=
  ∀ s : State, Settled s → QuietGaps s 1 →
    (s.payloadLen.toNat = 32768 → (∀ a, a < 32768 → (s.payload.readByte a).isSome = true) →
      ∃ t, exec .unpack s = .next t ∧ t = { finished s .ok 0 s.session with bmp := t.bmp } ∧
        (∀ a, a < 32768 → t.bmp.readByte a = s.payload.readByte a) ∧
        ∀ a, 32768 ≤ a → t.bmp.readByte a = s.bmp.readByte a) ∧
    (s.payloadLen.toNat ≠ 32768 → exec .unpack s = .next (finished s .invalidPayloadSize 0 s.session))

/-- R147, its four laws: the bitmap has 32768 bytes; `unpack` then `packedBytes` gives the payload back; `unpack` fails
with InvalidPayloadSize exactly when `PAYLOAD_LEN ≠ 32768`; uniform images give uniform bitmaps. -/
def Obligations.BitmapLaws : Prop :=
  (∀ (s s' : State) (f : PixelFormat), convertImage s f = .ok s' ∨ unpackPayload s = .ok s' →
    ∃ bytes, packedBytes s' = .ok bytes ∧ bytes.length = 32768) ∧
  (∀ s s' : State, unpackPayload s = .ok s' → packedBytes s' = memRead s .payload 0 32768) ∧
  (∀ s : State, Settled s → QuietGaps s 1 →
    ((∃ t, exec .unpack s = .next t ∧ t.status = .invalidPayloadSize) ↔ s.payloadLen.toNat ≠ 32768)) ∧
  ∀ (s s' : State) (f : PixelFormat), convertImage s f = .ok s' →
    ((∀ x y p, x < 512 → y < 512 → scaled s f x y = .ok p → s.cfg.params.threshold ≤ luminance p) →
      ∀ a, a < 32768 → s'.bmp.readByte a = some 0x00) ∧
    ((∀ x y p, x < 512 → y < 512 → scaled s f x y = .ok p → luminance p < s.cfg.params.threshold) →
      ∀ a, a < 32768 → s'.bmp.readByte a = some 0xFF)

/-- `convert` depends on nothing but the parameters, the image registers and the sampled pixels (R133, I22): two states
that agree on them give the same bitmap, or the same fault. That it is the same address the fault names is the model's
choice: the spec leaves open which one it is (V-IC-24), and the model names the first one met (log entry 12). -/
def Obligations.ConvertReadsOnlySampledPixels : Prop :=
  ∀ (s1 s2 : State) (f : PixelFormat), s1.cfg = s2.cfg → s1.imgW = s2.imgW → s1.imgH = s2.imgH →
    (∀ x y k, x < 512 → y < 512 → k < bpp f →
      let a := pixelAddr s1.imgW.toNat f (sampleIndex s1.imgW.toNat x) (sampleIndex s1.imgH.toNat y) + k
      s1.img.readByte a = s2.img.readByte a) →
    (∀ t1, convertImage s1 f = .ok t1 → ∃ t2, convertImage s2 f = .ok t2 ∧
      ∀ a, a < 32768 → t1.bmp.readByte a = t2.bmp.readByte a) ∧
    ∀ e, convertImage s1 f = .error e → convertImage s2 f = .error e

/-- R56: reading an unwritten byte is the fault `UNWRITTEN_READ` with space and address, for a host read of BMP, for
`CONVERT` and an `UPLOAD_IMAGE` from Idle meeting an unwritten byte of a sampled pixel, and for `UNPACK` and an
`UPLOAD_RAW` from Idle meeting an unwritten byte of PAYLOAD (R134, R145, R218, R219). -/
def Obligations.UnwrittenReadFaults : Prop :=
  (∀ (s : State) (a : Nat), s.busy = false → a < 32768 → s.bmp.readByte a = none →
    applyInput (.memRead .bmp a) s = .fault (.unwrittenRead .bmp a)) ∧
  (∀ (s : State) (f : PixelFormat) (i : Instr), i = .convert ∨ (i = .uploadImage ∧ s.session = .idle) →
    s.busy = false → QuietGaps s 1 → validImage s = some f → ¬ SampledWritten s f →
    ∃ x y k, x < 512 ∧ y < 512 ∧ k < bpp f ∧
      let a := pixelAddr s.imgW.toNat f (sampleIndex s.imgW.toNat x) (sampleIndex s.imgH.toNat y) + k
      s.img.readByte a = none ∧ exec i s = .fault (.unwrittenRead .img a)) ∧
  ∀ (s : State) (a : Nat) (i : Instr), i = .unpack ∨ (i = .uploadRaw ∧ s.session = .idle) → s.busy = false →
    QuietGaps s 1 → s.payloadLen.toNat = 32768 → a < 32768 → s.payload.readByte a = none →
    ∃ b, b < 32768 ∧ s.payload.readByte b = none ∧ exec i s = .fault (.unwrittenRead .payload b)

/-! ### Transmission -/

/-- R171: the laws of the chunk split, and the numbers it gives for the bitmap. -/
def Obligations.ChunkLaws : Prop :=
  (∀ (c : Nat) (p : List Byte), 1 ≤ c →
    (chunks c p).flatten = p ∧ (chunks c p).length = chunkCount c p.length ∧
    (∀ q ∈ chunks c p, 1 ≤ q.length ∧ q.length ≤ c) ∧
    (∀ i, i + 1 < chunkCount c p.length → (chunk c p i).length = c) ∧
    (0 < chunkCount c p.length →
      (chunk c p (chunkCount c p.length - 1)).length = p.length - (chunkCount c p.length - 1) * c) ∧
    (p = [] → chunks c p = []) ∧ (p.length ≤ c → p ≠ [] → chunks c p = [p])) ∧
  ∀ p : List Byte, p.length = 32768 →
    chunkCount 100 32768 = 328 ∧ (chunk 100 p 327).length = 68 ∧ chunkCount 64 32768 = 512 ∧
      (∀ q ∈ chunks 64 p, q.length = 64) ∧ chunkCount 3277 32768 = 10 ∧ (chunk 3277 p 9).length = 3275 ∧
      chunkCount 32768 32768 = 1

/-- The send of a payload to a transport that answers everything well (R172, R175, R177): `Done` with its length, the
payload appended to the stream, and exactly the chunks requested, each once and, if `PACE_DRAIN`, each drained. -/
def Obligations.GoodSendDeliversPayload : Prop :=
  ∀ (p : List Byte) (s : State), s.lost = false →
    QuietGaps s (sendRequestCount s.cfg.params p.length) →
    GoodAnswers s p.length (chunkCount s.cfg.params.chunkSize p.length) →
    send p s = .go (.done p.length) (sent s p)

/-- From R178, for every transport: after `Done` the stream has had exactly the payload appended; after `Failed(k)` its
first k bytes and then a prefix of at most one chunk, empty unless the log of requests ends in a write of the bytes of
the chunk at k. That is weaker than R178, which asks for an `Err` answer to that write: the log, which may hold requests
from before the send, does not tell it from another write of the same bytes. -/
def Obligations.StreamHoldsWhatWasSent : Prop :=
  ∀ (p : List Byte) (s s' : State) (r : SendResult), s.busy = true → send p s = .go r s' →
    match r with
    | .done k => k = p.length ∧ s'.stream = s.stream ++ p
    | .failed k => k ≤ p.length ∧ ∃ j, s'.stream = s.stream ++ p.take k ++ (p.drop k).take j ∧
        (j ≠ 0 → ∃ before,
          s'.requests = before ++ [.write (slice p k (min s.cfg.params.chunkSize (p.length - k)))] ∧
            j ≤ min s.cfg.params.chunkSize (p.length - k))

/-- R174: a write error on chunk i, after i chunks were acknowledged, reports `i × CHUNK_SIZE` bytes; a drawn prefix of
the chunk may have reached the stream, and nothing more is requested. -/
def Obligations.WriteErrorReportsWholeChunks : Prop :=
  ∀ (p : List Byte) (s : State) (i : Nat) (a : Answer),
    let c := s.cfg.params.chunkSize
    let k := i * requestsPerChunk s.cfg.params
    i < chunkCount c p.length → s.lost = false → QuietGaps s (k + 1) → GoodAnswers s p.length i →
    s.answers[k]? = some a → a.ok = false →
    send p s = .go (.failed (i * c)) { s with
      txOff := i * c, txSent := i * c,
      stream := s.stream ++ p.take (i * c) ++ (chunk c p i).take a.count,
      requests := s.requests ++ ((chunks c p).take i).flatMap (chunkRequests s.cfg.params) ++ [.write (chunk c p i)],
      answers := s.answers.drop (k + 1), gaps := s.gaps.drop (k + 1) }

/-- R173: a write that acknowledges m bytes of a longer chunk counts them, ends the send and is not followed by another
request. -/
def Obligations.ShortWriteFails : Prop :=
  ∀ (p : List Byte) (s : State) (i : Nat) (a : Answer),
    let c := s.cfg.params.chunkSize
    let k := i * requestsPerChunk s.cfg.params
    i < chunkCount c p.length → s.lost = false → QuietGaps s (k + 1) → GoodAnswers s p.length i →
    s.answers[k]? = some a → a.ok = true → a.count < (chunk c p i).length →
    send p s = .go (.failed (i * c + a.count)) { s with
      txOff := i * c, txSent := i * c + a.count, stream := s.stream ++ p.take (i * c + a.count),
      requests := s.requests ++ ((chunks c p).take i).flatMap (chunkRequests s.cfg.params) ++ [.write (chunk c p i)],
      answers := s.answers.drop (k + 1), gaps := s.gaps.drop (k + 1) }

/-- R175: with `PACE_DRAIN`, a drain after chunk i that times out ends the send; the chunk just written counts. -/
def Obligations.DrainTimeoutFailsSend : Prop :=
  ∀ (p : List Byte) (s : State) (i : Nat) (w a : Answer),
    let c := s.cfg.params.chunkSize
    let k := 2 * i + 1
    s.cfg.params.paceDrain = true → s.cfg.params.drainTimeout ≠ .infinite →
    i < chunkCount c p.length → s.lost = false → QuietGaps s (k + 1) → GoodAnswers s p.length i →
    s.answers[2 * i]? = some w → goodAnswer (.write (chunk c p i).length) w = true →
    s.answers[k]? = some a → a.ok = false →
    send p s = .go (.failed (min ((i + 1) * c) p.length)) { s with
      txOff := min ((i + 1) * c) p.length, txSent := min ((i + 1) * c) p.length,
      stream := s.stream ++ p.take ((i + 1) * c),
      requests := s.requests ++ ((chunks c p).take (i + 1)).flatMap (chunkRequests s.cfg.params),
      answers := s.answers.drop (k + 1), gaps := s.gaps.drop (k + 1) }

/-- R176, R180: with `LOST = 1` no write and no drain is issued, by a send that has bytes left, by its pacing drain or
by awaitDrain. -/
def Obligations.LossStopsRequests : Prop :=
  ∀ (p : List Byte) (fuel : Nat) (s : State), s.lost = true →
    (s.txOff < p.length → sendLoop p (fuel + 1) s = .go (.failed s.txSent) s) ∧
      (s.cfg.params.paceDrain = true → paceDrain s = .go false s) ∧ awaitDrain s = .go false s

/-- No operation hands the transport a write of more than `CHUNK_SIZE` bytes, or an empty one (R170, R172, R179). -/
def Obligations.WritesStayWithinChunkSize : Prop :=
  ∀ (i : Instr) (s t : State), exec i s = .next t →
    ∃ new, t.requests = s.requests ++ new ∧
      ∀ bytes, TxRequest.write bytes ∈ new → 1 ≤ bytes.length ∧ bytes.length ≤ s.cfg.params.chunkSize

/-! ### The operations -/

/-- `OPEN` of a block that was never opened (R204): one `TxOpen(PORT_ID)`; on `Ok` the session is Idle, on `Err` it is
ConnectionFailed with SESSION and SPENT as they were. -/
def Obligations.OpenCompletes : Prop :=
  ∀ (s : State) (a : Answer) (rest : List Answer), s.busy = false → s.lost = false → s.session = .disconnected →
    s.spent = false → QuietGaps s 2 → s.answers = a :: rest →
    exec .openPort s = .next (endCursor { s with
      session := if a.ok then .idle else .disconnected,
      status := if a.ok then .ok else .connectionFailed,
      count := 0, requests := s.requests ++ [.openPort s.cfg.params.portId], answers := rest,
      gaps := s.gaps.drop 2 })

/-- `OPEN` in the terminal state is NotConnected, and in a connected state InvalidState (R201, R204); nothing else
changes. -/
def Obligations.OpenRejected : Prop :=
  ∀ s : State, Settled s → QuietGaps s 1 →
    (s.spent = true → exec .openPort s = .next (finished s .notConnected 0 s.session)) ∧
      (s.spent = false → s.session ≠ .disconnected →
        exec .openPort s = .next (finished s .invalidState 0 s.session))

/-- `CLOSE` in every connected state (R205): Disconnected and spent, no byte sent, `STATUS = OK`. The release is the request
`TxClose`: log entry 14. -/
def Obligations.CloseCompletes : Prop :=
  ∀ s : State, s.busy = false → s.session ≠ .disconnected → QuietGaps s 2 →
    exec .close s = .next (endCursor { s with
      session := .disconnected, spent := true, status := .ok, count := 0, requests := s.requests ++ [.close],
      gaps := s.gaps.drop 2 })

/-- The seven motion operations from Idle and Ready (R203, R206 to R212): the frame is sent, COUNT is its length and
SESSION stays. -/
def Obligations.MotionCommandsComplete : Prop :=
  ∀ (s : State) (i : Instr) (c : Command),
    (i, c) ∈ [(Instr.home, Command.home), (.center, .center), (.preview, .preview), (.moveUp, .moveUp),
      (.moveDown, .moveDown), (.moveLeft, .moveLeft), (.moveRight, .moveRight)] →
    Settled s → s.session = .idle ∨ s.session = .ready →
    GoodRun s (encodeCommand s.cfg.params c).length →
    exec i s = .next (sentAndFinished s (encodeCommand s.cfg.params c) s.session)

/-- `PAUSE` from Engraving (R213): the frame is sent and SESSION becomes Paused. -/
def Obligations.PauseCompletes : Prop :=
  ∀ s : State, Settled s → s.session = .engraving →
    GoodRun s s.cfg.params.framePause.length →
    exec .pause s = .next (sentAndFinished s s.cfg.params.framePause .paused)

/-- `RESET` from every connected state (R214): the frame is sent and SESSION becomes Idle. -/
def Obligations.ResetCompletes : Prop :=
  ∀ s : State, Settled s → s.session ≠ .disconnected →
    GoodRun s s.cfg.params.frameReset.length →
    exec .reset s = .next (sentAndFinished s s.cfg.params.frameReset .idle)

/-- `START v` from Ready and Paused, for every v (R215): the burn time frame and the start frame are sent, no byte of
the bitmap is, and SESSION becomes Engraving. -/
def Obligations.StartCompletes : Prop :=
  ∀ (s : State) (v : Byte), Settled s → s.session = .ready ∨ s.session = .paused →
    let frame := s.cfg.params.btPrefix ++ [v] ++ s.cfg.params.btSuffix ++ s.cfg.params.frameStart
    GoodRun s frame.length →
    exec (.start v) s = .next (sentAndFinished s frame .engraving)

/-- `ERASE` from Idle (R216): the frame is sent and SESSION becomes Erasing. -/
def Obligations.EraseCompletes : Prop :=
  ∀ s : State, Settled s → s.session = .idle →
    GoodRun s s.cfg.params.frameErase.length →
    exec .erase s = .next (sentAndFinished s s.cfg.params.frameErase .erasing)

/-- `ERASE_SETTLED` from Erasing (R217): SESSION becomes Idle, no request is made. -/
def Obligations.EraseSettledCompletes : Prop :=
  ∀ s : State, Settled s → s.session = .erasing → QuietGaps s 1 →
    exec .eraseSettled s = .next (finished s .ok 0 .idle)

/-- `AWAIT_DRAIN` in every connected state (R220): one drain; `Ok` is `OK`, `TimedOut` the error TimedOut; with
`INFINITE` a transport that never answers leaves the machine stuck (R254; log entry 7). -/
def Obligations.AwaitDrainCompletes : Prop :=
  ∀ (s : State) (a : Answer) (rest : List Answer), Settled s → s.session ≠ .disconnected → QuietGaps s 2 →
    s.answers = a :: rest →
    (a.ok = true ∨ s.cfg.params.drainTimeout ≠ .infinite →
      exec .awaitDrain s = .next (endCursor { s with
        status := if a.ok then .ok else .timedOut, count := 0,
        requests := s.requests ++ [.drain s.cfg.params.drainTimeout], answers := rest, gaps := s.gaps.drop 2 })) ∧
    (a.ok = false → s.cfg.params.drainTimeout = .infinite → exec .awaitDrain s = .fault .drainNeverAnswered)

/-- `UPLOAD_IMAGE` from Idle of a valid image whose sampled pixels are written (R218): BMP holds its bitmap, the bitmap
is sent, `COUNT = 32768` and SESSION is Ready. -/
def Obligations.UploadImageCompletes : Prop :=
  ∀ (s : State) (f : PixelFormat), Settled s → s.session = .idle → validImage s = some f → SampledWritten s f →
    GoodRun s 32768 →
    ∃ t bytes, exec .uploadImage s = .next t ∧ t = { sentAndFinished s bytes .ready with bmp := t.bmp } ∧
      IsBitmapOf s f bytes ∧ (∀ a, a < 32768 → t.bmp.readByte a = bytes[a]?) ∧
      ∀ a, 32768 ≤ a → t.bmp.readByte a = s.bmp.readByte a

/-- `UPLOAD_RAW` from Idle of a written payload of 32768 bytes (R219): it is sent byte for byte, BMP holds it,
`COUNT = 32768` and SESSION is Ready. -/
def Obligations.UploadRawCompletes : Prop :=
  ∀ (s : State) (bytes : List Byte), Settled s → s.session = .idle → s.payloadLen.toNat = 32768 →
    bytes.length = 32768 → (∀ a, a < 32768 → s.payload.readByte a = bytes[a]?) →
    GoodRun s 32768 →
    ∃ t, exec .uploadRaw s = .next t ∧ t = { sentAndFinished s bytes .ready with bmp := t.bmp } ∧
      (∀ a, a < 32768 → t.bmp.readByte a = bytes[a]?) ∧
      ∀ a, 32768 ≤ a → t.bmp.readByte a = s.bmp.readByte a

/-- The uploads' operand checks in Idle (R201 step 4): InvalidImage and InvalidPayloadSize, nothing sent, SESSION and
BMP as they were. -/
def Obligations.UploadOperandChecks : Prop :=
  ∀ s : State, Settled s → s.session = .idle → QuietGaps s 1 →
    (validImage s = none → exec .uploadImage s = .next (finished s .invalidImage 0 .idle)) ∧
      (s.payloadLen.toNat ≠ 32768 → exec .uploadRaw s = .next (finished s .invalidPayloadSize 0 .idle))

/-- How the eleven operations that send a command end, by what their send answers (R203, R206 to R216, R253, R259). A
failed send leaves SESSION as it was, but Idle after `RESET` (R214), and one that is done leaves it as R202 says, both
with the acknowledged bytes in COUNT; if the transport was lost the results are the same and the session ends
(`endedLost`: log entry 14). `s2` is the state the send leaves. -/
def Obligations.FailedSendTransitions : Prop :=
  ∀ (s s2 : State) (i : Instr) (c : Command) (k : Nat),
    ((i, c) ∈ [(Instr.home, Command.home), (.center, .center), (.preview, .preview), (.moveUp, .moveUp),
        (.moveDown, .moveDown), (.moveLeft, .moveLeft), (.moveRight, .moveRight), (.pause, .pause), (.reset, .reset),
        (.erase, .erase)] ∨ ∃ v, (i, c) = (Instr.start v, Command.start v)) →
    s.busy = false → s.session ∈ tableAllows i → QuietGaps s 1 →
    let sending := send (encodeCommand s.cfg.params c) { s with busy := true, gaps := s.gaps.drop 1 }
    (sending = .go (.failed k) s2 →
      (s2.lost = false → exec i s = .next (endCursor { s2 with
        session := if i = .reset then .idle else s.session, status := .transmissionFailed, count := word32 k,
        busy := false })) ∧
      (s2.lost = true → exec i s = .next (endedLost s2 .transmissionFailed k))) ∧
    (sending = .go (.done k) s2 →
      (s2.lost = false → exec i s = .next (endCursor { s2 with
        session := onSuccess i s.session, status := .ok, count := word32 k, busy := false })) ∧
      (s2.lost = true → exec i s = .next (endedLost s2 .ok k)))

/-- How the uploads end, by what the send of the bitmap answers (R218, R219, R253, R259): Ready if it is done, Idle if it
failed, with the acknowledged bytes in COUNT; if the transport was lost the results are the same and the session ends
(`endedLost`: log entry 14). BMP keeps the bitmap in every case. -/
def Obligations.FailedUploadReturnsToIdle : Prop :=
  ∀ (s s1 s2 : State) (i : Instr) (p : List Byte) (k : Nat),
    s.busy = false → s.session = .idle → QuietGaps s 1 →
    let s0 : State := { s with busy := true, gaps := s.gaps.drop 1 }
    ((i = .uploadImage ∧ ∃ f, validImage s = some f ∧ convertImage s0 f = .ok s1) ∨
      (i = .uploadRaw ∧ s.payloadLen.toNat = 32768 ∧ unpackPayload s0 = .ok s1)) →
    packedBytes s1 = .ok p →
    let sending := send p { s1 with session := .uploading }
    (sending = .go (.failed k) s2 → s2.bmp = s1.bmp ∧
      (s2.lost = false → exec i s = .next (endCursor { s2 with
        session := .idle, status := .transmissionFailed, count := word32 k, busy := false })) ∧
      (s2.lost = true → exec i s = .next (endedLost s2 .transmissionFailed k))) ∧
    (sending = .go (.done k) s2 → s2.bmp = s1.bmp ∧
      (s2.lost = false → exec i s = .next (endCursor { s2 with
        session := .ready, status := .ok, count := word32 k, busy := false })) ∧
      (s2.lost = true → exec i s = .next (endedLost s2 .ok k)))

/-- Step 2 of R201: in Disconnected every operation that needs the transport is NotConnected; nothing else changes. -/
def Obligations.DisconnectedMeansNotConnected : Prop :=
  ∀ (i : Instr) (s : State), needsTransport i = true → s.busy = false → s.session = .disconnected →
    QuietGaps s 1 → exec i s = .next (finished s .notConnected 0 .disconnected)

/-- Step 3 of R201 with the dashes of R202's table: an operation not allowed in a connected state is InvalidState;
nothing else changes. -/
def Obligations.TableDashesMeanInvalidState : Prop :=
  ∀ (i : Instr) (s : State), needsTransport i = true → Settled s →
    s.session ∈ [Session.idle, .erasing, .ready, .engraving, .paused] → s.session ∉ tableAllows i → QuietGaps s 1 →
    exec i s = .next (finished s .invalidState 0 s.session)

/-- R202 for every operation and every transport: an operation that ends without a loss leaves the session state of the
table, by whether it ended with `OK`; one in which the transport was lost ends Disconnected (R31, R253). -/
def Obligations.SessionFollowsTransitionTable : Prop :=
  ∀ (i : Instr) (s t : State), Inv s → NoBlockReset s → exec i s = .next t →
    (t.lost = false → t.status = .ok → t.session = onSuccess i s.session) ∧
      (t.lost = false → t.status ≠ .ok → t.session = onError i s.session) ∧
      (t.lost = true → t.session = .disconnected ∧ t.spent = true)

/-- R222: Engraving is left only by `PAUSE`, `RESET`, `CLOSE` or loss (block reset apart). -/
def Obligations.EngravingIsLeftOnlyBy : Prop :=
  (∀ (i : Instr) (s t : State), Inv s → NoBlockReset s → exec i s = .next t → s.session = .engraving →
    t.session = .engraving ∨ i = .pause ∨ i = .reset ∨ i = .close ∨ t.lost = true) ∧
  ∀ (inp : Input) (s t : State), inp ≠ .blockReset → applyInput inp s = .next t → s.session = .engraving →
    t.session = .engraving ∨ inp = .lost

/-- R221 (2): only an upload that ended with `OK` brings the session from outside into Ready, Engraving or Paused. -/
def Obligations.ReadyNeedsAnUpload : Prop :=
  ∀ (i : Instr) (s t : State), Inv s → NoBlockReset s → exec i s = .next t →
    t.session ∈ [Session.ready, .engraving, .paused] →
    s.session ∈ [Session.ready, .engraving, .paused] ∨
      (s.session = .idle ∧ (i = .uploadImage ∨ i = .uploadRaw) ∧ t.status = .ok ∧ t.session = .ready)

/-! ### The machine as a whole -/

/-- The invariant between operations holds after reset (R38, R221). -/
def Obligations.InvariantHoldsAfterReset : Prop := Inv State.reset

/-- Every step keeps the invariant between operations, in every state that meets it (R221 (1), (3), (4)), with the
buffers in their canonical form and inside their spaces; and no step at all changes the parameters, block reset
included (R65, R281). -/
def Obligations.StepKeepsInvariant : Prop :=
  ∀ s t : State, step s = .next t → (Inv s → Inv t) ∧ t.cfg = s.cfg

/-- What an operation leaves alone, for every operation and transport (R61, R65, R67): the parameters, the host's
registers and buffers, the inputs to come; BMP but for the four operations that write it; SPENT and LOST are never
cleared; the stream and the log of requests only grow; `BUSY = 0` at its end. -/
def Obligations.OperationsFrame : Prop :=
  ∀ (i : Instr) (s t : State), NoBlockReset s → exec i s = .next t →
    t.cfg = s.cfg ∧ t.imgW = s.imgW ∧ t.imgH = s.imgH ∧ t.imgFmt = s.imgFmt ∧ t.payloadLen = s.payloadLen ∧
      t.img = s.img ∧ t.payload = s.payload ∧ t.inbox = s.inbox ∧
      (i ≠ .convert → i ≠ .unpack → i ≠ .uploadImage → i ≠ .uploadRaw → t.bmp = s.bmp) ∧
      (∀ a, 32768 ≤ a → t.bmp.readByte a = s.bmp.readByte a) ∧
      (s.spent = true → t.spent = true) ∧ (s.lost = true → t.lost = true) ∧ t.busy = false ∧
      s.stream <+: t.stream ∧ s.requests <+: t.requests ∧ s.reads <+: t.reads

/-- R251: an operation that ends with an error of R201 steps 1 to 4 sends no byte, issues no request but the release of
a lost transport, and leaves BMP and, without a loss, SESSION and SPENT as they were. -/
def Obligations.ErrorsArePrecise : Prop :=
  ∀ (i : Instr) (s t : State), NoBlockReset s → exec i s = .next t →
    t.status ∈ [Status.notConnected, .invalidImage, .invalidPayloadSize, .invalidState, .invalidOperation] →
    t.stream = s.stream ∧ t.bmp = s.bmp ∧ t.count = 0 ∧ (t.requests = s.requests ∨ t.requests = s.requests ++ [.close]) ∧
      (t.lost = false → t.session = s.session ∧ t.spent = s.spent ∧ t.requests = s.requests)

/-- R250: when an operation can report each kind of error. TransmissionFailed is reported by operations that send bytes
only, and InvalidState only where the table of R202 does not allow the operation in the session state it was issued in.
COUNT is 0 for all kinds but `OK` and TransmissionFailed, and at most what the operation has to send; while no frame is
longer than 32768 bytes that is the maximum R30 gives (log entry 26). From 2^32 on COUNT shows a free value (log
entry 13). -/
def Obligations.ResultsByOperation : Prop :=
  ∀ (i : Instr) (s t : State), NoBlockReset s → exec i s = .next t →
    (t.status = .connectionFailed → i = .openPort) ∧
      (t.status = .notConnected →
        (needsTransport i = true ∧ s.session = .disconnected) ∨ (i = .openPort ∧ s.spent = true)) ∧
      (t.status = .invalidImage → i = .convert ∨ i = .uploadImage) ∧
      (t.status = .invalidPayloadSize → i = .unpack ∨ i = .uploadRaw) ∧
      (t.status = .transmissionFailed → sendsBytes i = true) ∧
      (t.status = .timedOut → i = .awaitDrain) ∧
      (t.status = .invalidState →
        (needsTransport i = true ∨ i = .openPort) ∧ s.session ≠ .disconnected ∧ s.session ∉ tableAllows i) ∧
      (t.status = .invalidOperation ↔ ∃ op arg, i = .reserved op arg) ∧
      (t.status ≠ .ok → t.status ≠ .transmissionFailed → t.count = 0) ∧
      ∃ k, t.count = word32 k ∧ k ≤ payloadLength s.cfg.params i ∧
        (s.cfg.params.maxFrame ≤ 32768 → k ≤ max 32768 (startLength s.cfg.params))

/-- R31: `finish` writes the results, ends the session if the transport held was lost, and clears BUSY. The cursor is
unspecified from then on (R33), and takes free values in the model (log entry 8); a count of 2^32 or more shows a free
value in COUNT (log entry 13). The release is the request `TxClose` (log entry 14). -/
def Obligations.FinishRule : Prop :=
  ∀ (st : Status) (c : Nat) (s : State),
    (s.lost = true → s.session ≠ .disconnected →
      finish st c s = endCursor { s with
        status := st, count := word32 c, session := .disconnected, spent := true,
        requests := s.requests ++ [.close], busy := false }) ∧
    (s.lost = false ∨ s.session = .disconnected →
      finish st c s = endCursor { s with status := st, count := word32 c, busy := false }) ∧
    (c < 2 ^ 32 → (finish st c s).count.toNat = c)

/-- R253: *lost* while a transport is held sets LOST; at rest the session ends at once with STATUS and COUNT as they
were, and while an operation is in progress nothing else happens yet. The release is the request `TxClose`: log entry 14. -/
def Obligations.LossEvent : Prop :=
  ∀ s : State, s.session ≠ .disconnected →
    (s.busy = false → applyInput .lost s = .next { s with
      lost := true, session := .disconnected, spent := true, requests := s.requests ++ [.close] }) ∧
    (s.busy = true → applyInput .lost s = .next { s with lost := true })

/-- A loss inside an operation (R253, R259), shown on `AWAIT_DRAIN`: before its request, nothing is issued and the
operation reports its own failure; after the transport's last answer, it reports what that answer says. Either way the
session ends Disconnected and spent. -/
def Obligations.LossInsideAnOperation : Prop :=
  ∀ (s : State) (g : List (List Input)), s.busy = false → s.lost = false → s.session ≠ .disconnected →
    (s.gaps = [.lost] :: g → exec .awaitDrain s = .next (endCursor { s with
      lost := true, session := .disconnected, spent := true, status := .timedOut, count := 0,
      requests := s.requests ++ [.close], gaps := g })) ∧
    ∀ (a : Answer) (rest : List Answer), a.ok = true → s.answers = a :: rest → s.gaps = [] :: [.lost] :: g →
      exec .awaitDrain s = .next (endCursor { s with
        lost := true, session := .disconnected, spent := true, status := .ok, count := 0,
        requests := s.requests ++ [.drain s.cfg.params.drainTimeout, .close], answers := rest, gaps := g })

/-- R28: the fields of the view STATE, with the codes of R22; a host write to it has no step. -/
def Obligations.StateViewFields : Prop :=
  ∀ s : State,
    ((stateView s).extractLsb' 0 3).toNat =
      (match s.session with
        | .disconnected => 0
        | .idle => 1
        | .erasing => 2
        | .uploading => 3
        | .ready => 4
        | .engraving => 5
        | .paused => 6) ∧
      (stateView s).getLsbD 3 = s.spent ∧ (stateView s).getLsbD 4 = s.busy ∧ (stateView s).getLsbD 5 = s.lost ∧
      (stateView s).extractLsb' 6 2 = 0 ∧ ∀ v, ∃ r, applyInput (.regWrite 3 v) s = .refused r

/-- The register port (R35, R200): STATUS, COUNT and STATE are read at any time, the others at `BUSY = 0` (DEDUCED: log
entry 17), and a read changes nothing but what the host has read; the four host registers take a value of their width; a
write of a word to HOP issues its operation (R70), which is accepted only at `BUSY = 0` (R24); everything else has no
step. Values as naturals and in 32 bits: log entries 13, 16. -/
def Obligations.RegisterPortRights : Prop :=
  ∀ (s : State) (n v : Nat),
    applyInput (.regRead 1) s = .next { s with reads := s.reads ++ [(statusCode s.status).zeroExtend 32] } ∧
    applyInput (.regRead 2) s = .next { s with reads := s.reads ++ [s.count] } ∧
    applyInput (.regRead 3) s = .next { s with reads := s.reads ++ [(stateView s).zeroExtend 32] } ∧
    (s.busy = false →
      applyInput (.regRead 4) s = .next { s with reads := s.reads ++ [s.imgW.zeroExtend 32] } ∧
      applyInput (.regRead 5) s = .next { s with reads := s.reads ++ [s.imgH.zeroExtend 32] } ∧
      applyInput (.regRead 6) s = .next { s with reads := s.reads ++ [s.imgFmt.zeroExtend 32] } ∧
      applyInput (.regRead 7) s = .next { s with reads := s.reads ++ [s.payloadLen] } ∧
      applyInput (.regRead 8) s = .next { s with reads := s.reads ++ [word32 s.cfg.params.eraseWaitMs] } ∧
      applyInput (.regRead 9) s = .next { s with reads := s.reads ++ [word32 s.cfg.params.chunkSize] } ∧
      (v < 2 ^ 16 → applyInput (.regWrite 4 v) s = .next { s with imgW := BitVec.ofNat 16 v }) ∧
      (v < 2 ^ 16 → applyInput (.regWrite 5 v) s = .next { s with imgH := BitVec.ofNat 16 v }) ∧
      (v < 2 ^ 8 → applyInput (.regWrite 6 v) s = .next { s with imgFmt := BitVec.ofNat 8 v }) ∧
      (v < 2 ^ 32 → applyInput (.regWrite 7 v) s = .next { s with payloadLen := BitVec.ofNat 32 v })) ∧
    (v < 2 ^ 16 → ∀ rest, s.inbox = .regWrite 0 v :: rest →
      step s = exec (decode (BitVec.ofNat 16 v)) { s with inbox := rest }) ∧
    (hopWrite (.regWrite n v) = none → n ∉ [4, 5, 6, 7] → ∃ r, applyInput (.regWrite n v) s = .refused r) ∧
    ((n ∈ [4, 5] ∧ 2 ^ 16 ≤ v) ∨ (n = 6 ∧ 2 ^ 8 ≤ v) ∨ (n = 7 ∧ 2 ^ 32 ≤ v) →
      ∃ r, applyInput (.regWrite n v) s = .refused r) ∧
    (s.busy = true → n < 10 → applyInput (.regWrite n v) s = .refused .accessWhileBusy) ∧
    (s.busy = true → n ∉ [1, 2, 3] → ∃ r, applyInput (.regRead n) s = .refused r) ∧
    (10 ≤ n → applyInput (.regRead n) s = .refused (.noSuchRegister n)) ∧
    (∃ r, applyInput (.regRead 0) s = .refused r) ∧
    (s.busy = true → ∀ i : Instr, exec i s = .refused .accessWhileBusy)

/-- The memory port (R51, R52): the host writes bytes of IMG and PAYLOAD and reads bytes of BMP at `BUSY = 0`; an
address outside the space, another kind of access, or an access while busy has no step. -/
def Obligations.MemoryPortRights : Prop :=
  ∀ (s : State) (sp : Space) (a : Nat) (b : Byte),
    (s.busy = false → sp ≠ .bmp → a < capacity s.cfg sp →
      ∃ t, applyInput (.memWrite sp a b) s = .next t ∧ t = s.setBuffer sp (t.buffer sp) ∧
        (t.buffer sp).readByte a = some b ∧ ∀ x, x ≠ a → (t.buffer sp).readByte x = (s.buffer sp).readByte x) ∧
    (s.busy = false → a < 32768 → s.bmp.readByte a = some b →
      applyInput (.memRead .bmp a) s = .next { s with reads := s.reads ++ [b.zeroExtend 32] }) ∧
    (s.busy = true ∨ sp = .bmp ∨ capacity s.cfg sp ≤ a → ∃ r, applyInput (.memWrite sp a b) s = .refused r) ∧
    (s.busy = true ∨ sp ≠ .bmp ∨ capacity s.cfg sp ≤ a → ∃ r, applyInput (.memRead sp a) s = .refused r)

/-- R38: every register and buffer after block reset. -/
def Obligations.ResetState : Prop :=
  State.reset.session = .disconnected ∧ State.reset.spent = false ∧ State.reset.busy = false ∧
    State.reset.lost = false ∧ State.reset.imgW = 0 ∧ State.reset.imgH = 0 ∧ State.reset.imgFmt = 0 ∧
    State.reset.payloadLen = 0 ∧ statusCode State.reset.status = 0 ∧ State.reset.count = 0 ∧
    stateView State.reset = 0x00 ∧ State.reset.held = false ∧
    ∀ (sp : Space) (a : Nat), (State.reset.buffer sp).readByte a = none

/-- R280: the block reset input puts the registers and buffers at those values in every state, drops the transport,
sends nothing and keeps the parameters. -/
def Obligations.BlockResetInput : Prop :=
  ∀ s : State, ∃ t, applyInput .blockReset s = .next t ∧
    t.session = .disconnected ∧ t.spent = false ∧ t.busy = false ∧ t.lost = false ∧ t.status = .ok ∧ t.count = 0 ∧
      t.imgW = 0 ∧ t.imgH = 0 ∧ t.imgFmt = 0 ∧ t.payloadLen = 0 ∧
      (∀ (sp : Space) (a : Nat), (t.buffer sp).readByte a = none) ∧ t.held = false ∧ t.cfg = s.cfg ∧
      t.stream = s.stream

/-- A step runs the operation whose word the host writes to HOP (R70, R200), every other input is taken as it is, and
without an input all state survives (R265; log entries 10 and 20). -/
def Obligations.StepRunsTheNextInput : Prop :=
  ∀ (s : State) (rest : List Input),
    (∀ w : HopWord, s.inbox = .regWrite 0 w.toNat :: rest → step s = exec (decode w) { s with inbox := rest }) ∧
    (∀ inp, s.inbox = inp :: rest → hopWrite inp = none → step s = applyInput inp { s with inbox := rest }) ∧
    (s.inbox = [] → step s = .next s) ∧
    (∀ w : HopWord, step (s.withFetchWord 16 w.toNat) = exec (decode w) s) ∧
    ∀ i : Instr, i.wf = true →
      step (loadProgram [.op i] { s with inbox := [] }) = exec i { s with inbox := [] }

/-- A loss during a send (R176, R259) whose requests up to then were answered well. Asserted after the last request of
chunk i - 1, it leaves the chunks 0 to i - 1 sent: the send is `Done` if they are all there are, else it fails with
their bytes. Asserted between the write of chunk i and its pacing drain, it fails the send with chunk i counted. Either
way no further request is issued. -/
def Obligations.LossDuringSend : Prop :=
  ∀ (p : List Byte) (s : State) (i : Nat),
    let c := s.cfg.params.chunkSize
    let r := requestsPerChunk s.cfg.params
    s.busy = true → s.held = true → s.lost = false →
    (1 ≤ i → i ≤ chunkCount c p.length → GoodAnswers s p.length i →
      s.gaps.take (i * r) = List.replicate (i * r - 1) [] ++ [[.lost]] →
      send p s = .go (if i = chunkCount c p.length then .done p.length else .failed (i * c)) { s with
        lost := true, txOff := min (i * c) p.length, txSent := min (i * c) p.length,
        stream := s.stream ++ p.take (i * c),
        requests := s.requests ++ ((chunks c p).take i).flatMap (chunkRequests s.cfg.params),
        answers := s.answers.drop (i * r), gaps := s.gaps.drop (i * r) }) ∧
    ∀ w : Answer, s.cfg.params.paceDrain = true → i < chunkCount c p.length → GoodAnswers s p.length i →
      s.answers[2 * i]? = some w → goodAnswer (.write (chunk c p i).length) w = true →
      s.gaps.take (2 * i + 1) = List.replicate (2 * i) [] ++ [[.lost]] →
      send p s = .go (.failed (min ((i + 1) * c) p.length)) { s with
        lost := true, txOff := min ((i + 1) * c) p.length, txSent := min ((i + 1) * c) p.length,
        stream := s.stream ++ p.take ((i + 1) * c),
        requests := s.requests ++ ((chunks c p).take i).flatMap (chunkRequests s.cfg.params) ++ [.write (chunk c p i)],
        answers := s.answers.drop (2 * i + 1), gaps := s.gaps.drop (2 * i + 1) }
end

