-- ==== Sys2Proof/Laws/Memory.lean ====
section
/-! SUPPORT. The laws of the buffers: reading after writing, and the canonical form, which every write keeps and which
makes equal contents equal data. -/

namespace Sys2Proof.Machine

/-! ### Reading -/

@[simp] theorem Memory.readByte_nil (a : Nat) : Memory.readByte [] a = none := rfl

theorem Memory.readByte_cons (c : Host.Cell) (m : Memory) (a : Nat) :
    Memory.readByte (c :: m) a = if c.1 = a then some c.2 else Memory.readByte m a := rfl

/-- The first of two lists of cells is read first. -/
theorem Memory.readByte_append (m n : Memory) (a : Nat) :
    Memory.readByte (m ++ n) a = (Memory.readByte m a).or (Memory.readByte n a) := by
  induction m with
  | nil => simp
  | cons c m ih => by_cases h : c.1 = a <;> simp [Memory.readByte_cons, h, ih]

/-- Reading a selection of addresses. -/
theorem Memory.readByte_filter (P : Nat → Bool) (m : Memory) (a : Nat) :
    Memory.readByte (m.filter fun c => P c.1) a = if P a then Memory.readByte m a else none := by
  induction m with
  | nil => simp
  | cons c m ih =>
    by_cases hp : P c.1 = true
    · by_cases h : c.1 = a
      · subst h
        simp [Memory.readByte_cons, hp]
      · simp [Memory.readByte_cons, hp, h, ih]
    · by_cases h : c.1 = a
      · subst h
        simp [hp, ih]
      · simp [Memory.readByte_cons, hp, h, ih]

/-- Reading consecutive cells. -/
theorem readByte_cellsFrom (bs : List Byte) : ∀ a x : Nat,
    Memory.readByte (cellsFrom a bs) x = if a ≤ x then bs[x - a]? else none := by
  induction bs with
  | nil => intro a x; simp [cellsFrom]
  | cons b bs ih =>
    intro a x
    rw [cellsFrom, Memory.readByte_cons, ih]
    by_cases h : a = x
    · subst h; simp
    · by_cases h2 : a ≤ x
      · have h3 : a + 1 ≤ x := by omega
        have h4 : x - a = (x - (a + 1)) + 1 := by omega
        simp [h, h2, h3, h4]
      · have h3 : ¬ a + 1 ≤ x := by omega
        simp [h, h2, h3]

/-- A write gives the bytes written, and leaves every other address alone (R14, R61). -/
theorem Memory.readByte_writeBytes (m : Memory) (a : Nat) (bs : List Byte) (x : Nat) :
    (m.writeBytes a bs).readByte x =
      if a ≤ x ∧ x < a + bs.length then bs[x - a]? else m.readByte x := by
  rw [Memory.writeBytes, Memory.readByte_append, Memory.readByte_append, readByte_cellsFrom,
    Memory.readByte_filter (fun k => decide (k < a)), Memory.readByte_filter (fun k => decide (a + bs.length ≤ k))]
  by_cases h1 : x < a
  · have h2 : ¬ a ≤ x := by omega
    have h3 : ¬ a + bs.length ≤ x := by omega
    simp [h1, h2, h3]
  · by_cases h2 : x < a + bs.length
    · have h3 : a ≤ x := by omega
      have h4 : ¬ a + bs.length ≤ x := by omega
      simp [h1, h2, h3, h4]
    · have h3 : a ≤ x := by omega
      have h4 : a + bs.length ≤ x := by omega
      have h5 : bs[x - a]? = none := by rw [List.getElem?_eq_none_iff]; omega
      simp [h1, h2, h3, h4, h5]

/-! ### The canonical form -/

/-- The addresses of consecutive cells. -/
theorem mem_cellsFrom {bs : List Byte} : ∀ {a : Nat} {c : Host.Cell},
    c ∈ cellsFrom a bs → a ≤ c.1 ∧ c.1 < a + bs.length := by
  induction bs with
  | nil => intro a c h; simp [cellsFrom] at h
  | cons b bs ih =>
    intro a c h
    rw [cellsFrom, List.mem_cons] at h
    rcases h with rfl | h
    · simp
    · have := ih h
      simp only [List.length_cons]
      omega

/-- Consecutive cells rise. -/
theorem cellsFrom_pairwise (bs : List Byte) : ∀ a : Nat, (cellsFrom a bs).Pairwise (fun c d => c.1 < d.1) := by
  induction bs with
  | nil => intro a; simp [cellsFrom]
  | cons b bs ih =>
    intro a
    rw [cellsFrom, List.pairwise_cons]
    exact ⟨fun c hc => by have := mem_cellsFrom hc; simp only; omega, ih (a + 1)⟩

/-- The empty buffer is in the canonical form. -/
theorem Memory.wf_nil (cap : Nat) : Memory.wf [] cap := by simp [Memory.wf]

/-- A write below the capacity keeps the canonical form. -/
theorem Memory.wf_writeBytes {m : Memory} {cap a : Nat} {bs : List Byte} (h : m.wf cap)
    (hb : a + bs.length ≤ cap) : (m.writeBytes a bs).wf cap := by
  obtain ⟨hp, hc⟩ := h
  refine ⟨?_, ?_⟩
  · rw [Memory.writeBytes, List.pairwise_append, List.pairwise_append]
    refine ⟨⟨hp.filter _, cellsFrom_pairwise bs a, ?_⟩, hp.filter _, ?_⟩
    · intro c hc1 d hd
      have h1 := (List.mem_filter.1 hc1).2
      have h2 := mem_cellsFrom hd
      simp only [decide_eq_true_eq] at h1
      omega
    · intro c hc1 d hd
      have h2 := (List.mem_filter.1 hd).2
      simp only [decide_eq_true_eq] at h2
      rcases List.mem_append.1 hc1 with h1 | h1
      · have h1 := (List.mem_filter.1 h1).2
        simp only [decide_eq_true_eq] at h1
        omega
      · have h1 := mem_cellsFrom h1
        omega
  · intro c hcm
    rw [Memory.writeBytes] at hcm
    rcases List.mem_append.1 hcm with h1 | h1
    · rcases List.mem_append.1 h1 with h1 | h1
      · exact hc c (List.mem_filter.1 h1).1
      · have := mem_cellsFrom h1
        omega
    · exact hc c (List.mem_filter.1 h1).1

/-- Every buffer is in the canonical form after block reset (R38). -/
theorem reset_wf (sp : Space) : (State.reset.buffer sp).wf (capacity State.reset.cfg sp) := by
  cases sp <;> exact Memory.wf_nil _

/-- `MemWrite` inside a space keeps every buffer in the canonical form (R14, R50). -/
theorem memWrite_wf {s : State} {sp : Space} {a : Nat} {bytes : List Byte}
    (h : ∀ b, (s.buffer b).wf (capacity s.cfg b)) (hb : a + bytes.length ≤ capacity s.cfg sp) (b : Space) :
    ((memWrite s sp a bytes).buffer b).wf (capacity s.cfg b) := by
  have hw := Memory.wf_writeBytes (h sp) hb
  by_cases e : sp = b
  · subst e
    cases sp <;> exact hw
  · have := h b
    cases sp <;> cases b <;> first | exact absurd rfl e | exact this

/-- A byte that is read stands in the list. -/
theorem Memory.mem_of_readByte {m : Memory} {a : Nat} {b : Byte} (h : m.readByte a = some b) : (a, b) ∈ m := by
  induction m with
  | nil => simp at h
  | cons c m ih =>
    rw [Memory.readByte_cons] at h
    by_cases hc : c.1 = a
    · simp only [hc, if_true, Option.some.injEq] at h
      exact List.mem_cons.2 (.inl (by rw [← hc, ← h]))
    · simp only [hc, if_false] at h
      exact List.mem_cons_of_mem _ (ih h)

/-- In the canonical form, equal contents are equal data. -/
theorem Memory.eq_of_readByte {cap : Nat} : ∀ {m n : Memory}, m.wf cap → n.wf cap →
    (∀ a, m.readByte a = n.readByte a) → m = n := by
  intro m
  induction m with
  | nil =>
    intro n _ _ h
    cases n with
    | nil => rfl
    | cons d n => have := h d.1; simp [Memory.readByte_cons] at this
  | cons c m ih =>
    intro n hm hn h
    cases n with
    | nil => have := h c.1; simp [Memory.readByte_cons] at this
    | cons d n =>
      obtain ⟨hmp, hmc⟩ := hm
      obtain ⟨hnp, hnc⟩ := hn
      rw [List.pairwise_cons] at hmp hnp
      have hkey : c.1 = d.1 := by
        by_contra hne
        rcases Nat.lt_or_gt_of_ne hne with hlt | hgt
        · have h1 := h c.1
          rw [Memory.readByte_cons, Memory.readByte_cons, if_pos rfl, if_neg (by omega)] at h1
          have h2 := hnp.1 _ (Memory.mem_of_readByte h1.symm)
          simp only at h2
          omega
        · have h1 := h d.1
          rw [Memory.readByte_cons, Memory.readByte_cons, if_pos rfl, if_neg (by omega)] at h1
          have h2 := hmp.1 _ (Memory.mem_of_readByte h1)
          simp only at h2
          omega
      have hval : c.2 = d.2 := by
        have h1 := h c.1
        rw [Memory.readByte_cons, Memory.readByte_cons, if_pos rfl, if_pos hkey.symm] at h1
        exact Option.some.inj h1
      have hcd : c = d := Prod.ext hkey hval
      have htail : m = n := by
        refine ih ⟨hmp.2, fun x hx => hmc x (List.mem_cons_of_mem _ hx)⟩
          ⟨hnp.2, fun x hx => hnc x (List.mem_cons_of_mem _ hx)⟩ fun a => ?_
        by_cases ha : c.1 = a
        · have none_of : ∀ l : Memory, (∀ x ∈ l, c.1 < x.1) → l.readByte a = none := by
            intro l hl
            cases hr : l.readByte a with
            | none => rfl
            | some b => have := hl _ (Memory.mem_of_readByte hr); simp only at this; omega
          rw [none_of m hmp.1, none_of n (fun x hx => hkey ▸ hnp.1 x hx)]
        · have h1 := h a
          rwa [Memory.readByte_cons, Memory.readByte_cons, if_neg ha, if_neg (hkey ▸ ha)] at h1
      rw [hcd, htail]

/-! ### `collect` -/

@[simp] theorem collect_nil {ε α β : Type} (f : α → Except ε β) : collect f [] = .ok [] := rfl

/-- What `collect` answers when nothing stops it: every element's value, in order. -/
theorem collect_eq_ok {ε α β : Type} (f : α → Except ε β) :
    ∀ (l : List α) (bs : List β), collect f l = .ok bs ↔ l.map f = bs.map Except.ok := by
  intro l
  induction l with
  | nil => intro bs; cases bs <;> simp [collect]
  | cons a l ih =>
    intro bs
    rw [collect]
    cases hf : f a with
    | error e => cases bs <;> simp [hf]
    | ok b =>
      cases hc : collect f l with
      | error e =>
        cases bs with
        | nil => simp
        | cons d ds =>
          have := ih ds
          rw [hc] at this
          simpa [hf] using fun _ => fun h => by simpa using this.2 h
      | ok cs =>
        cases bs with
        | nil => simp
        | cons d ds =>
          have := ih ds
          rw [hc] at this
          simp only [Except.ok.injEq] at this
          simp [hf, this]

/-- `collect` succeeds if every element does. -/
theorem collect_isOk {ε α β : Type} (f : α → Except ε β) (l : List α) (h : ∀ a ∈ l, ∃ b, f a = .ok b) :
    ∃ bs, collect f l = .ok bs := by
  induction l with
  | nil => exact ⟨[], rfl⟩
  | cons a l ih =>
    obtain ⟨b, hb⟩ := h a List.mem_cons_self
    obtain ⟨bs, hbs⟩ := ih fun x hx => h x (List.mem_cons_of_mem _ hx)
    exact ⟨b :: bs, by simp [collect, hb, hbs]⟩

/-- What `collect` gives has one value for each element. -/
theorem collect_length {ε α β : Type} {f : α → Except ε β} {l : List α} {bs : List β} (h : collect f l = .ok bs) :
    bs.length = l.length := by
  have := congrArg List.length ((collect_eq_ok f l bs).1 h)
  simpa using this.symm

/-- The value `collect` gives for the element at an index. -/
theorem collect_getElem {ε α β : Type} {f : α → Except ε β} {l : List α} {bs : List β} (h : collect f l = .ok bs)
    (i : Nat) (hi : i < l.length) : ∃ b, bs[i]? = some b ∧ f l[i] = .ok b := by
  have hb : i < bs.length := by rw [collect_length h]; exact hi
  refine ⟨bs[i], by simp, ?_⟩
  have := congrArg (fun x => x[i]?) ((collect_eq_ok f l bs).1 h)
  simpa [hi, hb] using this

/-- An error of `collect` is the error of one of the elements. -/
theorem collect_error {ε α β : Type} {f : α → Except ε β} {l : List α} {e : ε} (h : collect f l = .error e) :
    ∃ a ∈ l, f a = .error e := by
  induction l with
  | nil => simp at h
  | cons a l ih =>
    rw [collect] at h
    cases hf : f a with
    | error e' => rw [hf] at h; simp only [Except.error.injEq] at h; exact ⟨a, by simp, by rw [hf, h]⟩
    | ok b =>
      rw [hf] at h
      cases hc : collect f l with
      | error e' =>
        rw [hc] at h
        simp only [Except.error.injEq] at h
        obtain ⟨x, hx, hfx⟩ := ih (by rw [hc, h])
        exact ⟨x, List.mem_cons_of_mem _ hx, hfx⟩
      | ok bs => rw [hc] at h; simp at h

end Sys2Proof.Machine
end

