-- ==== Sys2Proof/Laws/State.lean ====
section
/-! SUPPORT. What each named update of the state does to each field, so that no proof unfolds one. -/

namespace Sys2Proof.Machine

/-! ### `logRequest`: only the log of requests -/

@[simp] theorem logRequest_cfg (r : TxRequest) (s : State) : (logRequest r s).cfg = s.cfg := rfl
@[simp] theorem logRequest_session (r : TxRequest) (s : State) : (logRequest r s).session = s.session := rfl
@[simp] theorem logRequest_spent (r : TxRequest) (s : State) : (logRequest r s).spent = s.spent := rfl
@[simp] theorem logRequest_busy (r : TxRequest) (s : State) : (logRequest r s).busy = s.busy := rfl
@[simp] theorem logRequest_lost (r : TxRequest) (s : State) : (logRequest r s).lost = s.lost := rfl
@[simp] theorem logRequest_imgW (r : TxRequest) (s : State) : (logRequest r s).imgW = s.imgW := rfl
@[simp] theorem logRequest_imgH (r : TxRequest) (s : State) : (logRequest r s).imgH = s.imgH := rfl
@[simp] theorem logRequest_imgFmt (r : TxRequest) (s : State) : (logRequest r s).imgFmt = s.imgFmt := rfl
@[simp] theorem logRequest_payloadLen (r : TxRequest) (s : State) : (logRequest r s).payloadLen = s.payloadLen := rfl
@[simp] theorem logRequest_status (r : TxRequest) (s : State) : (logRequest r s).status = s.status := rfl
@[simp] theorem logRequest_count (r : TxRequest) (s : State) : (logRequest r s).count = s.count := rfl
@[simp] theorem logRequest_txOff (r : TxRequest) (s : State) : (logRequest r s).txOff = s.txOff := rfl
@[simp] theorem logRequest_txSent (r : TxRequest) (s : State) : (logRequest r s).txSent = s.txSent := rfl
@[simp] theorem logRequest_img (r : TxRequest) (s : State) : (logRequest r s).img = s.img := rfl
@[simp] theorem logRequest_payload (r : TxRequest) (s : State) : (logRequest r s).payload = s.payload := rfl
@[simp] theorem logRequest_bmp (r : TxRequest) (s : State) : (logRequest r s).bmp = s.bmp := rfl
@[simp] theorem logRequest_stream (r : TxRequest) (s : State) : (logRequest r s).stream = s.stream := rfl
@[simp] theorem logRequest_requests (r : TxRequest) (s : State) : (logRequest r s).requests = s.requests ++ [r] := rfl
@[simp] theorem logRequest_reads (r : TxRequest) (s : State) : (logRequest r s).reads = s.reads := rfl
@[simp] theorem logRequest_inbox (r : TxRequest) (s : State) : (logRequest r s).inbox = s.inbox := rfl
@[simp] theorem logRequest_gaps (r : TxRequest) (s : State) : (logRequest r s).gaps = s.gaps := rfl
@[simp] theorem logRequest_answers (r : TxRequest) (s : State) : (logRequest r s).answers = s.answers := rfl
@[simp] theorem logRequest_draws (r : TxRequest) (s : State) : (logRequest r s).draws = s.draws := rfl

/-! ### `release`: SESSION, SPENT and the log -/

@[simp] theorem release_cfg (s : State) : (release s).cfg = s.cfg := rfl
@[simp] theorem release_session (s : State) : (release s).session = .disconnected := rfl
@[simp] theorem release_spent (s : State) : (release s).spent = true := rfl
@[simp] theorem release_busy (s : State) : (release s).busy = s.busy := rfl
@[simp] theorem release_lost (s : State) : (release s).lost = s.lost := rfl
@[simp] theorem release_imgW (s : State) : (release s).imgW = s.imgW := rfl
@[simp] theorem release_imgH (s : State) : (release s).imgH = s.imgH := rfl
@[simp] theorem release_imgFmt (s : State) : (release s).imgFmt = s.imgFmt := rfl
@[simp] theorem release_payloadLen (s : State) : (release s).payloadLen = s.payloadLen := rfl
@[simp] theorem release_status (s : State) : (release s).status = s.status := rfl
@[simp] theorem release_count (s : State) : (release s).count = s.count := rfl
@[simp] theorem release_txOff (s : State) : (release s).txOff = s.txOff := rfl
@[simp] theorem release_txSent (s : State) : (release s).txSent = s.txSent := rfl
@[simp] theorem release_img (s : State) : (release s).img = s.img := rfl
@[simp] theorem release_payload (s : State) : (release s).payload = s.payload := rfl
@[simp] theorem release_bmp (s : State) : (release s).bmp = s.bmp := rfl
@[simp] theorem release_stream (s : State) : (release s).stream = s.stream := rfl
@[simp] theorem release_requests (s : State) : (release s).requests = s.requests ++ [.close] := rfl
@[simp] theorem release_reads (s : State) : (release s).reads = s.reads := rfl
@[simp] theorem release_inbox (s : State) : (release s).inbox = s.inbox := rfl
@[simp] theorem release_gaps (s : State) : (release s).gaps = s.gaps := rfl
@[simp] theorem release_answers (s : State) : (release s).answers = s.answers := rfl
@[simp] theorem release_draws (s : State) : (release s).draws = s.draws := rfl

/-! ### `appendStream`: only the stream -/

@[simp] theorem appendStream_cfg (bytes : List Byte) (s : State) : (appendStream bytes s).cfg = s.cfg := rfl
@[simp] theorem appendStream_session (bytes : List Byte) (s : State) : (appendStream bytes s).session = s.session := rfl
@[simp] theorem appendStream_spent (bytes : List Byte) (s : State) : (appendStream bytes s).spent = s.spent := rfl
@[simp] theorem appendStream_busy (bytes : List Byte) (s : State) : (appendStream bytes s).busy = s.busy := rfl
@[simp] theorem appendStream_lost (bytes : List Byte) (s : State) : (appendStream bytes s).lost = s.lost := rfl
@[simp] theorem appendStream_imgW (bytes : List Byte) (s : State) : (appendStream bytes s).imgW = s.imgW := rfl
@[simp] theorem appendStream_imgH (bytes : List Byte) (s : State) : (appendStream bytes s).imgH = s.imgH := rfl
@[simp] theorem appendStream_imgFmt (bytes : List Byte) (s : State) : (appendStream bytes s).imgFmt = s.imgFmt := rfl
@[simp] theorem appendStream_payloadLen (bytes : List Byte) (s : State) : (appendStream bytes s).payloadLen = s.payloadLen := rfl
@[simp] theorem appendStream_status (bytes : List Byte) (s : State) : (appendStream bytes s).status = s.status := rfl
@[simp] theorem appendStream_count (bytes : List Byte) (s : State) : (appendStream bytes s).count = s.count := rfl
@[simp] theorem appendStream_txOff (bytes : List Byte) (s : State) : (appendStream bytes s).txOff = s.txOff := rfl
@[simp] theorem appendStream_txSent (bytes : List Byte) (s : State) : (appendStream bytes s).txSent = s.txSent := rfl
@[simp] theorem appendStream_img (bytes : List Byte) (s : State) : (appendStream bytes s).img = s.img := rfl
@[simp] theorem appendStream_payload (bytes : List Byte) (s : State) : (appendStream bytes s).payload = s.payload := rfl
@[simp] theorem appendStream_bmp (bytes : List Byte) (s : State) : (appendStream bytes s).bmp = s.bmp := rfl
@[simp] theorem appendStream_stream (bytes : List Byte) (s : State) : (appendStream bytes s).stream = s.stream ++ bytes := rfl
@[simp] theorem appendStream_requests (bytes : List Byte) (s : State) : (appendStream bytes s).requests = s.requests := rfl
@[simp] theorem appendStream_reads (bytes : List Byte) (s : State) : (appendStream bytes s).reads = s.reads := rfl
@[simp] theorem appendStream_inbox (bytes : List Byte) (s : State) : (appendStream bytes s).inbox = s.inbox := rfl
@[simp] theorem appendStream_gaps (bytes : List Byte) (s : State) : (appendStream bytes s).gaps = s.gaps := rfl
@[simp] theorem appendStream_answers (bytes : List Byte) (s : State) : (appendStream bytes s).answers = s.answers := rfl
@[simp] theorem appendStream_draws (bytes : List Byte) (s : State) : (appendStream bytes s).draws = s.draws := rfl

/-! ### `setCursor`: only the cursor -/

@[simp] theorem setCursor_cfg (off sent : Nat) (s : State) : (setCursor off sent s).cfg = s.cfg := rfl
@[simp] theorem setCursor_session (off sent : Nat) (s : State) : (setCursor off sent s).session = s.session := rfl
@[simp] theorem setCursor_spent (off sent : Nat) (s : State) : (setCursor off sent s).spent = s.spent := rfl
@[simp] theorem setCursor_busy (off sent : Nat) (s : State) : (setCursor off sent s).busy = s.busy := rfl
@[simp] theorem setCursor_lost (off sent : Nat) (s : State) : (setCursor off sent s).lost = s.lost := rfl
@[simp] theorem setCursor_imgW (off sent : Nat) (s : State) : (setCursor off sent s).imgW = s.imgW := rfl
@[simp] theorem setCursor_imgH (off sent : Nat) (s : State) : (setCursor off sent s).imgH = s.imgH := rfl
@[simp] theorem setCursor_imgFmt (off sent : Nat) (s : State) : (setCursor off sent s).imgFmt = s.imgFmt := rfl
@[simp] theorem setCursor_payloadLen (off sent : Nat) (s : State) : (setCursor off sent s).payloadLen = s.payloadLen := rfl
@[simp] theorem setCursor_status (off sent : Nat) (s : State) : (setCursor off sent s).status = s.status := rfl
@[simp] theorem setCursor_count (off sent : Nat) (s : State) : (setCursor off sent s).count = s.count := rfl
@[simp] theorem setCursor_txOff (off sent : Nat) (s : State) : (setCursor off sent s).txOff = off := rfl
@[simp] theorem setCursor_txSent (off sent : Nat) (s : State) : (setCursor off sent s).txSent = sent := rfl
@[simp] theorem setCursor_img (off sent : Nat) (s : State) : (setCursor off sent s).img = s.img := rfl
@[simp] theorem setCursor_payload (off sent : Nat) (s : State) : (setCursor off sent s).payload = s.payload := rfl
@[simp] theorem setCursor_bmp (off sent : Nat) (s : State) : (setCursor off sent s).bmp = s.bmp := rfl
@[simp] theorem setCursor_stream (off sent : Nat) (s : State) : (setCursor off sent s).stream = s.stream := rfl
@[simp] theorem setCursor_requests (off sent : Nat) (s : State) : (setCursor off sent s).requests = s.requests := rfl
@[simp] theorem setCursor_reads (off sent : Nat) (s : State) : (setCursor off sent s).reads = s.reads := rfl
@[simp] theorem setCursor_inbox (off sent : Nat) (s : State) : (setCursor off sent s).inbox = s.inbox := rfl
@[simp] theorem setCursor_gaps (off sent : Nat) (s : State) : (setCursor off sent s).gaps = s.gaps := rfl
@[simp] theorem setCursor_answers (off sent : Nat) (s : State) : (setCursor off sent s).answers = s.answers := rfl
@[simp] theorem setCursor_draws (off sent : Nat) (s : State) : (setCursor off sent s).draws = s.draws := rfl

/-! ### `endCursor`: the cursor and the count of draws -/

@[simp] theorem endCursor_cfg (s : State) : (endCursor s).cfg = s.cfg := rfl
@[simp] theorem endCursor_session (s : State) : (endCursor s).session = s.session := rfl
@[simp] theorem endCursor_spent (s : State) : (endCursor s).spent = s.spent := rfl
@[simp] theorem endCursor_busy (s : State) : (endCursor s).busy = s.busy := rfl
@[simp] theorem endCursor_lost (s : State) : (endCursor s).lost = s.lost := rfl
@[simp] theorem endCursor_imgW (s : State) : (endCursor s).imgW = s.imgW := rfl
@[simp] theorem endCursor_imgH (s : State) : (endCursor s).imgH = s.imgH := rfl
@[simp] theorem endCursor_imgFmt (s : State) : (endCursor s).imgFmt = s.imgFmt := rfl
@[simp] theorem endCursor_payloadLen (s : State) : (endCursor s).payloadLen = s.payloadLen := rfl
@[simp] theorem endCursor_status (s : State) : (endCursor s).status = s.status := rfl
@[simp] theorem endCursor_count (s : State) : (endCursor s).count = s.count := rfl
@[simp] theorem endCursor_txOff (s : State) : (endCursor s).txOff = Config.freeCursor s.draws := rfl
@[simp] theorem endCursor_txSent (s : State) : (endCursor s).txSent = Config.freeCursor (s.draws + 1) := rfl
@[simp] theorem endCursor_img (s : State) : (endCursor s).img = s.img := rfl
@[simp] theorem endCursor_payload (s : State) : (endCursor s).payload = s.payload := rfl
@[simp] theorem endCursor_bmp (s : State) : (endCursor s).bmp = s.bmp := rfl
@[simp] theorem endCursor_stream (s : State) : (endCursor s).stream = s.stream := rfl
@[simp] theorem endCursor_requests (s : State) : (endCursor s).requests = s.requests := rfl
@[simp] theorem endCursor_reads (s : State) : (endCursor s).reads = s.reads := rfl
@[simp] theorem endCursor_inbox (s : State) : (endCursor s).inbox = s.inbox := rfl
@[simp] theorem endCursor_gaps (s : State) : (endCursor s).gaps = s.gaps := rfl
@[simp] theorem endCursor_answers (s : State) : (endCursor s).answers = s.answers := rfl
@[simp] theorem endCursor_draws (s : State) : (endCursor s).draws = s.draws + 2 := rfl

/-! ### `freeGap`: LOST and the count of draws -/

@[simp] theorem freeGap_cfg (s : State) : (freeGap s).cfg = s.cfg := rfl
@[simp] theorem freeGap_session (s : State) : (freeGap s).session = s.session := rfl
@[simp] theorem freeGap_spent (s : State) : (freeGap s).spent = s.spent := rfl
@[simp] theorem freeGap_busy (s : State) : (freeGap s).busy = s.busy := rfl
@[simp] theorem freeGap_lost (s : State) : (freeGap s).lost = (s.lost || (s.held && Config.freeLost s.draws)) := rfl
@[simp] theorem freeGap_imgW (s : State) : (freeGap s).imgW = s.imgW := rfl
@[simp] theorem freeGap_imgH (s : State) : (freeGap s).imgH = s.imgH := rfl
@[simp] theorem freeGap_imgFmt (s : State) : (freeGap s).imgFmt = s.imgFmt := rfl
@[simp] theorem freeGap_payloadLen (s : State) : (freeGap s).payloadLen = s.payloadLen := rfl
@[simp] theorem freeGap_status (s : State) : (freeGap s).status = s.status := rfl
@[simp] theorem freeGap_count (s : State) : (freeGap s).count = s.count := rfl
@[simp] theorem freeGap_txOff (s : State) : (freeGap s).txOff = s.txOff := rfl
@[simp] theorem freeGap_txSent (s : State) : (freeGap s).txSent = s.txSent := rfl
@[simp] theorem freeGap_img (s : State) : (freeGap s).img = s.img := rfl
@[simp] theorem freeGap_payload (s : State) : (freeGap s).payload = s.payload := rfl
@[simp] theorem freeGap_bmp (s : State) : (freeGap s).bmp = s.bmp := rfl
@[simp] theorem freeGap_stream (s : State) : (freeGap s).stream = s.stream := rfl
@[simp] theorem freeGap_requests (s : State) : (freeGap s).requests = s.requests := rfl
@[simp] theorem freeGap_reads (s : State) : (freeGap s).reads = s.reads := rfl
@[simp] theorem freeGap_inbox (s : State) : (freeGap s).inbox = s.inbox := rfl
@[simp] theorem freeGap_gaps (s : State) : (freeGap s).gaps = s.gaps := rfl
@[simp] theorem freeGap_answers (s : State) : (freeGap s).answers = s.answers := rfl
@[simp] theorem freeGap_draws (s : State) : (freeGap s).draws = s.draws + 1 := rfl

/-! ### `blockReset`: all but the parameters and what lies outside -/

@[simp] theorem blockReset_cfg (s : State) : (blockReset s).cfg = s.cfg := rfl
@[simp] theorem blockReset_session (s : State) : (blockReset s).session = State.reset.session := rfl
@[simp] theorem blockReset_spent (s : State) : (blockReset s).spent = State.reset.spent := rfl
@[simp] theorem blockReset_busy (s : State) : (blockReset s).busy = State.reset.busy := rfl
@[simp] theorem blockReset_lost (s : State) : (blockReset s).lost = State.reset.lost := rfl
@[simp] theorem blockReset_imgW (s : State) : (blockReset s).imgW = State.reset.imgW := rfl
@[simp] theorem blockReset_imgH (s : State) : (blockReset s).imgH = State.reset.imgH := rfl
@[simp] theorem blockReset_imgFmt (s : State) : (blockReset s).imgFmt = State.reset.imgFmt := rfl
@[simp] theorem blockReset_payloadLen (s : State) : (blockReset s).payloadLen = State.reset.payloadLen := rfl
@[simp] theorem blockReset_status (s : State) : (blockReset s).status = State.reset.status := rfl
@[simp] theorem blockReset_count (s : State) : (blockReset s).count = State.reset.count := rfl
@[simp] theorem blockReset_txOff (s : State) : (blockReset s).txOff = State.reset.txOff := rfl
@[simp] theorem blockReset_txSent (s : State) : (blockReset s).txSent = State.reset.txSent := rfl
@[simp] theorem blockReset_img (s : State) : (blockReset s).img = State.reset.img := rfl
@[simp] theorem blockReset_payload (s : State) : (blockReset s).payload = State.reset.payload := rfl
@[simp] theorem blockReset_bmp (s : State) : (blockReset s).bmp = State.reset.bmp := rfl
@[simp] theorem blockReset_stream (s : State) : (blockReset s).stream = s.stream := rfl
@[simp] theorem blockReset_requests (s : State) : (blockReset s).requests = s.requests := rfl
@[simp] theorem blockReset_reads (s : State) : (blockReset s).reads = s.reads := rfl
@[simp] theorem blockReset_inbox (s : State) : (blockReset s).inbox = s.inbox := rfl
@[simp] theorem blockReset_gaps (s : State) : (blockReset s).gaps = s.gaps := rfl
@[simp] theorem blockReset_answers (s : State) : (blockReset s).answers = s.answers := rfl
@[simp] theorem blockReset_draws (s : State) : (blockReset s).draws = s.draws := rfl

/-! ### `memWrite` to BMP: only the buffer -/

@[simp] theorem memWrite_bmp_cfg (s : State) (a : Nat) (bytes : List Byte) :
    (memWrite s .bmp a bytes).cfg = s.cfg := rfl
@[simp] theorem memWrite_bmp_session (s : State) (a : Nat) (bytes : List Byte) :
    (memWrite s .bmp a bytes).session = s.session := rfl
@[simp] theorem memWrite_bmp_spent (s : State) (a : Nat) (bytes : List Byte) :
    (memWrite s .bmp a bytes).spent = s.spent := rfl
@[simp] theorem memWrite_bmp_busy (s : State) (a : Nat) (bytes : List Byte) :
    (memWrite s .bmp a bytes).busy = s.busy := rfl
@[simp] theorem memWrite_bmp_lost (s : State) (a : Nat) (bytes : List Byte) :
    (memWrite s .bmp a bytes).lost = s.lost := rfl
@[simp] theorem memWrite_bmp_imgW (s : State) (a : Nat) (bytes : List Byte) :
    (memWrite s .bmp a bytes).imgW = s.imgW := rfl
@[simp] theorem memWrite_bmp_imgH (s : State) (a : Nat) (bytes : List Byte) :
    (memWrite s .bmp a bytes).imgH = s.imgH := rfl
@[simp] theorem memWrite_bmp_imgFmt (s : State) (a : Nat) (bytes : List Byte) :
    (memWrite s .bmp a bytes).imgFmt = s.imgFmt := rfl
@[simp] theorem memWrite_bmp_payloadLen (s : State) (a : Nat) (bytes : List Byte) :
    (memWrite s .bmp a bytes).payloadLen = s.payloadLen := rfl
@[simp] theorem memWrite_bmp_status (s : State) (a : Nat) (bytes : List Byte) :
    (memWrite s .bmp a bytes).status = s.status := rfl
@[simp] theorem memWrite_bmp_count (s : State) (a : Nat) (bytes : List Byte) :
    (memWrite s .bmp a bytes).count = s.count := rfl
@[simp] theorem memWrite_bmp_txOff (s : State) (a : Nat) (bytes : List Byte) :
    (memWrite s .bmp a bytes).txOff = s.txOff := rfl
@[simp] theorem memWrite_bmp_txSent (s : State) (a : Nat) (bytes : List Byte) :
    (memWrite s .bmp a bytes).txSent = s.txSent := rfl
@[simp] theorem memWrite_bmp_img (s : State) (a : Nat) (bytes : List Byte) :
    (memWrite s .bmp a bytes).img = s.img := rfl
@[simp] theorem memWrite_bmp_payload (s : State) (a : Nat) (bytes : List Byte) :
    (memWrite s .bmp a bytes).payload = s.payload := rfl
@[simp] theorem memWrite_bmp_bmp (s : State) (a : Nat) (bytes : List Byte) :
    (memWrite s .bmp a bytes).bmp = s.bmp.writeBytes a bytes := rfl
@[simp] theorem memWrite_bmp_stream (s : State) (a : Nat) (bytes : List Byte) :
    (memWrite s .bmp a bytes).stream = s.stream := rfl
@[simp] theorem memWrite_bmp_requests (s : State) (a : Nat) (bytes : List Byte) :
    (memWrite s .bmp a bytes).requests = s.requests := rfl
@[simp] theorem memWrite_bmp_reads (s : State) (a : Nat) (bytes : List Byte) :
    (memWrite s .bmp a bytes).reads = s.reads := rfl
@[simp] theorem memWrite_bmp_inbox (s : State) (a : Nat) (bytes : List Byte) :
    (memWrite s .bmp a bytes).inbox = s.inbox := rfl
@[simp] theorem memWrite_bmp_gaps (s : State) (a : Nat) (bytes : List Byte) :
    (memWrite s .bmp a bytes).gaps = s.gaps := rfl
@[simp] theorem memWrite_bmp_answers (s : State) (a : Nat) (bytes : List Byte) :
    (memWrite s .bmp a bytes).answers = s.answers := rfl
@[simp] theorem memWrite_bmp_draws (s : State) (a : Nat) (bytes : List Byte) :
    (memWrite s .bmp a bytes).draws = s.draws := rfl

/-! ### `finish` (R31) -/

/-- A number that fits is held as itself. -/
theorem word32_of_lt {n : Nat} (h : n < 2 ^ 32) : word32 n = BitVec.ofNat 32 n := if_pos h

@[simp] theorem word32_zero : word32 0 = 0 := rfl

/-- A number that fits is read back. -/
theorem word32_toNat {n : Nat} (h : n < 2 ^ 32) : (word32 n).toNat = n := by
  rw [word32_of_lt h, BitVec.toNat_ofNat, Nat.mod_eq_of_lt h]

/-- What `finish` does when the transport held was lost. -/
theorem finish_lost (st : Status) (c : Nat) (s : State) (hh : s.held = true) (hl : s.lost = true) :
    finish st c s = endCursor { s with
      status := st, count := word32 c, session := .disconnected, spent := true,
      requests := s.requests ++ [.close], busy := false } := by
  rw [finish, if_pos (by simp [hh, hl])]
  rfl

/-- What `finish` does otherwise. -/
theorem finish_calm (st : Status) (c : Nat) (s : State) (h : s.held = false ∨ s.lost = false) :
    finish st c s = endCursor { s with status := st, count := word32 c, busy := false } := by
  rw [finish, if_neg (by rcases h with h | h <;> simp [h])]

@[simp] theorem finish_cfg (st : Status) (c : Nat) (s : State) : (finish st c s).cfg = s.cfg := by
  unfold finish; split <;> simp_all

@[simp] theorem finish_session (st : Status) (c : Nat) (s : State) : (finish st c s).session = (if s.held && s.lost then .disconnected else s.session) := by
  unfold finish; split <;> simp_all

@[simp] theorem finish_spent (st : Status) (c : Nat) (s : State) : (finish st c s).spent = (if s.held && s.lost then true else s.spent) := by
  unfold finish; split <;> simp_all

@[simp] theorem finish_busy (st : Status) (c : Nat) (s : State) : (finish st c s).busy = false := by
  unfold finish; split <;> simp_all

@[simp] theorem finish_lost_field (st : Status) (c : Nat) (s : State) : (finish st c s).lost = s.lost := by
  unfold finish; split <;> simp_all

@[simp] theorem finish_imgW (st : Status) (c : Nat) (s : State) : (finish st c s).imgW = s.imgW := by
  unfold finish; split <;> simp_all

@[simp] theorem finish_imgH (st : Status) (c : Nat) (s : State) : (finish st c s).imgH = s.imgH := by
  unfold finish; split <;> simp_all

@[simp] theorem finish_imgFmt (st : Status) (c : Nat) (s : State) : (finish st c s).imgFmt = s.imgFmt := by
  unfold finish; split <;> simp_all

@[simp] theorem finish_payloadLen (st : Status) (c : Nat) (s : State) : (finish st c s).payloadLen = s.payloadLen := by
  unfold finish; split <;> simp_all

@[simp] theorem finish_status (st : Status) (c : Nat) (s : State) : (finish st c s).status = st := by
  unfold finish; split <;> simp_all

@[simp] theorem finish_count (st : Status) (c : Nat) (s : State) : (finish st c s).count = word32 c := by
  unfold finish; split <;> simp_all

@[simp] theorem finish_txOff (st : Status) (c : Nat) (s : State) : (finish st c s).txOff = Config.freeCursor s.draws := by
  unfold finish; split <;> simp_all

@[simp] theorem finish_txSent (st : Status) (c : Nat) (s : State) : (finish st c s).txSent = Config.freeCursor (s.draws + 1) := by
  unfold finish; split <;> simp_all

@[simp] theorem finish_img (st : Status) (c : Nat) (s : State) : (finish st c s).img = s.img := by
  unfold finish; split <;> simp_all

@[simp] theorem finish_payload (st : Status) (c : Nat) (s : State) : (finish st c s).payload = s.payload := by
  unfold finish; split <;> simp_all

@[simp] theorem finish_bmp (st : Status) (c : Nat) (s : State) : (finish st c s).bmp = s.bmp := by
  unfold finish; split <;> simp_all

@[simp] theorem finish_stream (st : Status) (c : Nat) (s : State) : (finish st c s).stream = s.stream := by
  unfold finish; split <;> simp_all

@[simp] theorem finish_requests (st : Status) (c : Nat) (s : State) : (finish st c s).requests = (if s.held && s.lost then s.requests ++ [.close] else s.requests) := by
  unfold finish; split <;> simp_all

@[simp] theorem finish_reads (st : Status) (c : Nat) (s : State) : (finish st c s).reads = s.reads := by
  unfold finish; split <;> simp_all

@[simp] theorem finish_inbox (st : Status) (c : Nat) (s : State) : (finish st c s).inbox = s.inbox := by
  unfold finish; split <;> simp_all

@[simp] theorem finish_gaps (st : Status) (c : Nat) (s : State) : (finish st c s).gaps = s.gaps := by
  unfold finish; split <;> simp_all

@[simp] theorem finish_answers (st : Status) (c : Nat) (s : State) : (finish st c s).answers = s.answers := by
  unfold finish; split <;> simp_all

@[simp] theorem finish_draws (st : Status) (c : Nat) (s : State) : (finish st c s).draws = s.draws + 2 := by
  unfold finish; split <;> simp_all

@[simp] theorem raiseError_eq (e : Status) (c : Nat) (s : State) : raiseError e c s = finish e c s := rfl

end Sys2Proof.Machine
end

