-- ==== Sys2Proof/Laws/Converter.lean ====
section
/-! SUPPORT. What the converter answers, said once: `convert`, `unpack`, `packedBytes`, and the bits of a packed byte. -/

namespace Sys2Proof.Machine

open Sys2Proof.Safety

/-! ### Writing the bitmap -/

/-- Reading BMP after bytes were written to it from address 0 on. -/
theorem readByte_memWrite_bmp (s : State) (bytes : List Byte) (a : Nat) :
    (memWrite s .bmp 0 bytes).bmp.readByte a = if a < bytes.length then bytes[a]? else s.bmp.readByte a := by
  rw [memWrite_bmp_bmp, Memory.readByte_writeBytes]
  simp

/-- What `convert` answers: the packed bytes, written to BMP (R142). -/
theorem convertImage_ok {s s' : State} {f : PixelFormat} :
    convertImage s f = .ok s' ↔
      ∃ bytes, collect (packedByte s f) (List.range bmpBytes) = .ok bytes ∧ s' = memWrite s .bmp 0 bytes := by
  unfold convertImage
  cases collect (packedByte s f) (List.range bmpBytes) <;> simp [@eq_comm _ _ s']

/-- `convert` stops where `packedByte` first does (R134). -/
theorem convertImage_error {s : State} {f : PixelFormat} {e : Fault} (h : convertImage s f = .error e) :
    ∃ a, a < 32768 ∧ packedByte s f a = .error e := by
  unfold convertImage at h
  split at h
  · cases h
  · next e' hc =>
    simp only [Except.error.injEq] at h
    obtain ⟨a, ha, hp⟩ := collect_error hc
    exact ⟨a, by simpa [bmpBytes] using ha, h ▸ hp⟩

/-- What `unpack` answers: the payload's bytes, written to BMP (R145). -/
theorem unpackPayload_ok {s s' : State} :
    unpackPayload s = .ok s' ↔
      ∃ bytes, memRead s .payload 0 bmpBytes = .ok bytes ∧ s' = memWrite s .bmp 0 bytes := by
  unfold unpackPayload
  cases memRead s .payload 0 bmpBytes <;> simp [@eq_comm _ _ s']

/-- `unpack` stops at an unwritten byte of PAYLOAD (R56). -/
theorem unpackPayload_error {s : State} {e : Fault} (h : unpackPayload s = .error e) :
    ∃ a, a < 32768 ∧ s.payload.readByte a = none ∧ e = .unwrittenRead .payload a := by
  unfold unpackPayload at h
  split at h
  · cases h
  · next e' hc =>
    simp only [Except.error.injEq] at h
    obtain ⟨a, ha, hp⟩ := collect_error hc
    rw [List.mem_range'] at ha
    obtain ⟨i, hi, rfl⟩ := ha
    unfold memReadByte at hp
    split at hp
    · cases hp
    · next hn =>
      cases hp
      exact ⟨0 + 1 * i, by simpa [bmpBytes] using hi, hn, h.symm⟩

/-- The bytes `MemRead` answers are those that are read one by one (R14). -/
theorem memRead_ok {s : State} {sp : Space} {a n : Nat} {bytes : List Byte} :
    memRead s sp a n = .ok bytes ↔ bytes.length = n ∧ ∀ i, i < n → (s.buffer sp).readByte (a + i) = bytes[i]? := by
  constructor
  · intro h
    have hl : bytes.length = n := by simpa using collect_length h
    refine ⟨hl, fun i hi => ?_⟩
    obtain ⟨b, hb, hf⟩ := collect_getElem h i (by simpa using hi)
    simp only [List.getElem_range', Nat.one_mul] at hf
    unfold memReadByte at hf
    split at hf
    · next b' hr => cases hf; rw [hr, hb]
    · cases hf
  · rintro ⟨hl, h⟩
    rw [memRead, collect_eq_ok]
    apply List.ext_getElem?
    intro i
    rw [List.getElem?_map, List.getElem?_map]
    by_cases hi : i < n
    · have hb : bytes[i]? = some bytes[i] := List.getElem?_eq_getElem (by omega)
      have := h i hi
      rw [hb] at this
      simp [hi, hb, memReadByte, this]
    · simp [hl, hi]

/-- After 32768 bytes were written to BMP, `packedBytes` answers them (R143). -/
theorem packedBytes_memWrite (s : State) {bytes : List Byte} (h : bytes.length = 32768) :
    packedBytes (memWrite s .bmp 0 bytes) = .ok bytes := by
  rw [packedBytes, memRead_ok]
  refine ⟨h, fun i hi => ?_⟩
  have hi : i < bytes.length := by rw [h]; exact hi
  have := readByte_memWrite_bmp s bytes i
  simpa [State.buffer, hi] using this

/-! ### The bits of a packed byte -/

/-- One more binary digit at the end. -/
theorem bitsToNat_append (bits : List Bool) (b : Bool) : bitsToNat (bits ++ [b]) = 2 * bitsToNat bits + b.toNat := by
  simp [bitsToNat]

/-- Bit i of the number is the i-th digit from the end. -/
theorem testBit_bitsToNat (bits : List Bool) : ∀ i, (bitsToNat bits).testBit i = (bits.reverse[i]?).getD false := by
  induction bits using List.reverseRecOn with
  | nil => intro i; simp [bitsToNat]
  | append_singleton bits b ih =>
    intro i
    rw [bitsToNat_append]
    cases i with
    | zero => cases b <;> simp [Nat.testBit_zero]
    | succ i =>
      rw [Nat.testBit_succ]
      have : (2 * bitsToNat bits + b.toNat) / 2 = bitsToNat bits := by cases b <;> simp; omega
      rw [this, ih]
      simp

/-- The bit of the pixel in column x of a byte packed from 8 pixels (R141). -/
theorem columnBit_packBits (order : BitOrder) {bits : List Bool} (h : bits.length = 8) (x : Nat) :
    some (columnBit order (packBits order bits) x) = bits[x % 8]? := by
  have hx : x % 8 < 8 := Nat.mod_lt _ (by omega)
  have hb : bits[x % 8]? = some bits[x % 8] := List.getElem?_eq_getElem (by omega)
  cases order with
  | msbFirst =>
    have h7 : 7 - x % 8 < 8 := by omega
    simp only [columnBit, packBits, BitVec.getLsbD_ofNat, h7, decide_true, Bool.true_and, testBit_bitsToNat]
    rw [List.getElem?_reverse (by omega)]
    have : bits.length - 1 - (7 - x % 8) = x % 8 := by omega
    rw [this, hb]
    rfl
  | lsbFirst =>
    simp only [columnBit, packBits, BitVec.getLsbD_ofNat, hx, decide_true, Bool.true_and, testBit_bitsToNat,
      List.reverse_reverse]
    rw [hb]
    rfl

/-- The bit of pixel (x, y) in the byte that holds it (R54, R141). -/
theorem packedByte_column {s : State} {f : PixelFormat} {x y : Nat} {b : Byte} (hx : x < 512)
    (h : packedByte s f (y * 64 + x / 8) = .ok b) :
    inverted s f x y = .ok (columnBit s.cfg.params.bitOrder b x) := by
  unfold packedByte at h
  split at h
  · next bits hc =>
    cases h
    have hl : bits.length = 8 := by simpa using collect_length hc
    obtain ⟨v, hv, hf⟩ := collect_getElem hc (x % 8) (by simpa using Nat.mod_lt x (by omega : 0 < 8))
    have h1 : 8 * ((y * 64 + x / 8) % 64) + x % 8 = x := by omega
    have h2 : (y * 64 + x / 8) / 64 = y := by omega
    rw [List.getElem_range, h1, h2] at hf
    rw [hf]
    have := columnBit_packBits s.cfg.params.bitOrder hl x
    rw [hv] at this
    rw [Option.some.inj this]
  · cases h

/-- A packed byte has a value if its eight pixels do. -/
theorem packedByte_isOk {s : State} {f : PixelFormat} {a : Nat} (ha : a < 32768)
    (h : ∀ x y, x < 512 → y < 512 → ∃ v, inverted s f x y = .ok v) : ∃ b, packedByte s f a = .ok b := by
  obtain ⟨bits, hb⟩ := collect_isOk (fun k => inverted s f (8 * (a % 64) + k) (a / 64)) (List.range 8)
    fun k hk => h _ _ (by rw [List.mem_range] at hk; omega) (by omega)
  exact ⟨packBits s.cfg.params.bitOrder bits, by rw [packedByte, hb]⟩

/-- The bitmap bit of a pixel, from its source pixel (R140). -/
theorem inverted_eq (s : State) (f : PixelFormat) (x y : Nat) :
    inverted s f x y =
      match scaled s f (511 - x) y with
      | .ok p => .ok (decide (luminance p < s.cfg.params.threshold))
      | .error e => .error e := by
  unfold inverted mirrored monochrome
  cases scaled s f (511 - x) y with
  | error e => rfl
  | ok p => simp only [← decide_not, Nat.not_le]

end Sys2Proof.Machine
end

