-- ==== Sys2Proof/Laws/Run.lean ====
section
/-! SUPPORT. What the steps inside an operation can do, said once for each of them: inputs, gaps, acceptance and the
requests to the transport. Provers cite these and need not unfold the operations. -/

namespace Sys2Proof.Machine

open Sys2Proof.Safety

/-! ### `Run` -/

@[simp] theorem Run.go_bind {α β : Type} (a : α) (s : State) (f : α → State → Run β) : (Run.go a s).bind f = f a s := rfl

@[simp] theorem Run.stop_bind {α β : Type} (o : Result) (f : α → State → Run β) : (Run.stop o : Run α).bind f = .stop o := rfl

@[simp] theorem Run.go_andThen {α : Type} (a : α) (s : State) (f : α → State → Result) :
    (Run.go a s).andThen f = f a s := rfl

@[simp] theorem Run.stop_andThen {α : Type} (o : Result) (f : α → State → Result) :
    (Run.stop o : Run α).andThen f = o := rfl

/-! ### The frame of the steps inside an operation -/

/-- What steps inside an operation can do to the state: LOST may be set while a transport is held, the host may read,
requests may be issued, answered and reach the stream, the cursor moves. Nothing else changes. -/
structure AfterSteps (s s' : State) : Prop where
  eq : s' = { s with
    lost := s'.lost, reads := s'.reads, gaps := s'.gaps, draws := s'.draws, txOff := s'.txOff, txSent := s'.txSent,
    stream := s'.stream, requests := s'.requests, answers := s'.answers }
  lost_stays : s.lost = true → s'.lost = true
  lost_held : s'.lost = true → s.lost = true ∨ s.held = true
  reads_grow : s.reads <+: s'.reads
  stream_grows : s.stream <+: s'.stream
  requests_grow : s.requests <+: s'.requests
  gaps_used : s'.gaps <:+ s.gaps
  answers_used : s'.answers <:+ s.answers

namespace AfterSteps

variable {s s' s'' : State}

theorem refl (s : State) : AfterSteps s s :=
  ⟨rfl, id, .inl, List.prefix_refl _, List.prefix_refl _, List.prefix_refl _, List.suffix_refl _, List.suffix_refl _⟩

theorem cfg (h : AfterSteps s s') : s'.cfg = s.cfg := (congrArg State.cfg h.eq :)
theorem session (h : AfterSteps s s') : s'.session = s.session := (congrArg State.session h.eq :)
theorem spent (h : AfterSteps s s') : s'.spent = s.spent := (congrArg State.spent h.eq :)
theorem busy (h : AfterSteps s s') : s'.busy = s.busy := (congrArg State.busy h.eq :)
theorem imgW (h : AfterSteps s s') : s'.imgW = s.imgW := (congrArg State.imgW h.eq :)
theorem imgH (h : AfterSteps s s') : s'.imgH = s.imgH := (congrArg State.imgH h.eq :)
theorem imgFmt (h : AfterSteps s s') : s'.imgFmt = s.imgFmt := (congrArg State.imgFmt h.eq :)
theorem payloadLen (h : AfterSteps s s') : s'.payloadLen = s.payloadLen := (congrArg State.payloadLen h.eq :)
theorem status (h : AfterSteps s s') : s'.status = s.status := (congrArg State.status h.eq :)
theorem count (h : AfterSteps s s') : s'.count = s.count := (congrArg State.count h.eq :)
theorem img (h : AfterSteps s s') : s'.img = s.img := (congrArg State.img h.eq :)
theorem payload (h : AfterSteps s s') : s'.payload = s.payload := (congrArg State.payload h.eq :)
theorem bmp (h : AfterSteps s s') : s'.bmp = s.bmp := (congrArg State.bmp h.eq :)
theorem inbox (h : AfterSteps s s') : s'.inbox = s.inbox := (congrArg State.inbox h.eq :)
theorem held (h : AfterSteps s s') : s'.held = s.held := by rw [State.held, h.session, State.held]

theorem trans (h : AfterSteps s s') (h' : AfterSteps s' s'') : AfterSteps s s'' where
  eq := by
    have h1 := h'.eq
    rw [h.eq] at h1
    exact h1
  lost_stays := fun hl => h'.lost_stays (h.lost_stays hl)
  lost_held := fun hl => by
    rcases h'.lost_held hl with h1 | h1
    · exact h.lost_held h1
    · exact .inr (h.held ▸ h1)
  reads_grow := h.reads_grow.trans h'.reads_grow
  stream_grows := h.stream_grows.trans h'.stream_grows
  requests_grow := h.requests_grow.trans h'.requests_grow
  gaps_used := h'.gaps_used.trans h.gaps_used
  answers_used := h'.answers_used.trans h.answers_used

/-- Block reset stays away as long as none is scheduled. -/
theorem noBlockReset (h : AfterSteps s s') (hn : NoBlockReset s) : NoBlockReset s' :=
  fun g hg => hn g (h.gaps_used.subset hg)

end AfterSteps

/-- A part of an operation is *sound* from a state if, when it goes on, only what `AfterSteps` names has changed, and
when it stops with a next state, that is the state a scheduled block reset left. -/
def Run.Sound {α : Type} (s : State) : Run α → Prop
  | .go _ s' => AfterSteps s s'
  | .stop o => ∀ t, o = .next t → ¬ NoBlockReset s ∧ ∃ s1, AfterSteps s s1 ∧ t = blockReset s1

theorem Run.Sound.go {α : Type} {s s' : State} {a : α} {r : Run α} (h : r.Sound s) (e : r = .go a s') :
    AfterSteps s s' := by
  subst e; exact h

theorem Run.Sound.stop {α : Type} {s t : State} {r : Run α} (h : r.Sound s) (e : r = .stop (.next t)) :
    ¬ NoBlockReset s ∧ ∃ s1, AfterSteps s s1 ∧ t = blockReset s1 := by
  subst e; exact h t rfl

/-- Steps after steps. -/
theorem Run.Sound.after {α : Type} {s s' : State} {r : Run α} (h : AfterSteps s s') (hr : r.Sound s') : r.Sound s := by
  cases r with
  | go a s2 => exact h.trans hr
  | stop o =>
    intro t ht
    obtain ⟨hn, s1, h1, h2⟩ := hr t ht
    exact ⟨fun hs => hn (h.noBlockReset hs), s1, h.trans h1, h2⟩

/-- One sound part after another is sound. -/
theorem Run.Sound.bind {α β : Type} {s : State} {r : Run α} {f : α → State → Run β} (h : r.Sound s)
    (hf : ∀ a s', r = .go a s' → (f a s').Sound s') : (r.bind f).Sound s := by
  cases r with
  | go a s' => exact (hf a s' rfl).after h
  | stop o => exact h

/-- The step an operation answers after a sound part: the part stopped, or it went on. -/
theorem Run.Sound.andThen_next {α : Type} {s t : State} {r : Run α} {f : α → State → Result} (h : r.Sound s)
    (e : r.andThen f = .next t) :
    (¬ NoBlockReset s ∧ ∃ s1, AfterSteps s s1 ∧ t = blockReset s1) ∨
      ∃ a s', r = .go a s' ∧ AfterSteps s s' ∧ f a s' = .next t := by
  cases r with
  | go a s' => exact .inr ⟨a, s', rfl, h, e⟩
  | stop o => exact .inl (h t e)

/-! ### Inputs and gaps -/

/-- What an input other than block reset does while an operation is in progress. -/
theorem applyInput_busy {inp : Input} {s s' : State} (hb : s.busy = true) (hi : inp ≠ .blockReset)
    (h : applyInput inp s = .next s') : AfterSteps s s' ∧ s'.gaps = s.gaps ∧ s'.answers = s.answers ∧
      s'.stream = s.stream ∧ s'.requests = s.requests ∧ s'.txOff = s.txOff ∧ s'.txSent = s.txSent := by
  cases inp with
  | regRead num =>
    simp only [applyInput, hostRegRead] at h
    split at h
    · cases h
    · split at h
      · cases h
      · split at h
        · cases h
        · cases h
          exact ⟨⟨rfl, id, .inl, List.prefix_append _ _, List.prefix_refl _, List.prefix_refl _, List.suffix_refl _,
            List.suffix_refl _⟩, rfl, rfl, rfl, rfl, rfl, rfl⟩
  | regWrite num value =>
    simp only [applyInput, hostRegWrite, hb, if_true] at h
    split at h <;> cases h
  | memRead sp a => simp [applyInput, hostMemRead, hb] at h
  | memWrite sp a b => simp [applyInput, hostMemWrite, hb] at h
  | lost =>
    simp only [applyInput, loseTransport, hb, if_true] at h
    split at h
    · next hh =>
      cases h
      exact ⟨⟨by simp only [hb], fun _ => rfl, fun _ => .inr hh, List.prefix_refl _, List.prefix_refl _, List.prefix_refl _,
        List.suffix_refl _, List.suffix_refl _⟩, rfl, rfl, rfl, rfl, rfl, rfl⟩
    · cases h
      exact ⟨.refl _, rfl, rfl, rfl, rfl, rfl, rfl⟩
  | blockReset => exact absurd rfl hi

/-- What the inputs of a gap do while an operation is in progress. -/
theorem applyInputs_sound (inputs : List Input) : ∀ s : State, s.busy = true →
    (∀ s', applyInputs inputs s = .go () s' → AfterSteps s s' ∧ s'.gaps = s.gaps ∧ s'.answers = s.answers ∧
      s'.stream = s.stream ∧ s'.requests = s.requests ∧ s'.txOff = s.txOff ∧ s'.txSent = s.txSent) ∧
    ∀ t, applyInputs inputs s = .stop (.next t) →
      Input.blockReset ∈ inputs ∧ ∃ s1, AfterSteps s s1 ∧ t = blockReset s1 := by
  induction inputs with
  | nil =>
    intro s _
    refine ⟨fun s' h => ?_, fun t h => by simp [applyInputs] at h⟩
    simp only [applyInputs, Run.go.injEq, true_and] at h
    subst h
    exact ⟨.refl _, rfl, rfl, rfl, rfl, rfl, rfl⟩
  | cons inp rest ih =>
    intro s hb
    rw [applyInputs]
    cases hi : applyInput inp s with
    | fault f => exact ⟨fun _ h => by simp at h, fun _ h => by simp at h⟩
    | refused r => exact ⟨fun _ h => by simp at h, fun _ h => by simp at h⟩
    | next s1 =>
      by_cases hr : inp = .blockReset
      · subst hr
        simp only [applyInput, Host.Outcome.next.injEq] at hi
        refine ⟨fun _ h => by simp at h, fun t h => ?_⟩
        simp only [if_true, Run.stop.injEq, Host.Outcome.next.injEq] at h
        exact ⟨by simp, s, .refl _, by rw [← h, hi]⟩
      · obtain ⟨h1, hg, ha, hst, hrq, ho, hse⟩ := applyInput_busy hb hr hi
        obtain ⟨ih1, ih2⟩ := ih s1 (h1.busy.trans hb)
        simp only [if_neg hr]
        refine ⟨fun s' h => ?_, fun t h => ?_⟩
        · obtain ⟨h2, hg2, ha2, hst2, hrq2, ho2, hse2⟩ := ih1 s' h
          exact ⟨h1.trans h2, hg2.trans hg, ha2.trans ha, hst2.trans hst, hrq2.trans hrq, ho2.trans ho, hse2.trans hse⟩
        · obtain ⟨h2, s2, h3, h4⟩ := ih2 t h
          exact ⟨List.mem_cons_of_mem _ h2, s2, h1.trans h3, h4⟩

/-- What a gap does while an operation is in progress. -/
theorem gap_sound {s : State} (hb : s.busy = true) : (gap s).Sound s := by
  unfold gap
  split
  · next inputs rest hg =>
    have hs : AfterSteps s { s with gaps := rest } :=
      ⟨rfl, id, .inl, List.prefix_refl _, List.prefix_refl _, List.prefix_refl _,
        hg ▸ List.suffix_cons _ _, List.suffix_refl _⟩
    have hi := applyInputs_sound inputs { s with gaps := rest } hb
    cases hr : applyInputs inputs { s with gaps := rest } with
    | go a s' => exact hs.trans (hi.1 s' hr).1
    | stop o =>
      intro t ht
      subst ht
      obtain ⟨hm, s1, h1, h2⟩ := hi.2 t hr
      exact ⟨fun hn => hn inputs (hg ▸ List.mem_cons_self) hm, s1, hs.trans h1, h2⟩
  · refine ⟨rfl, fun h => by simp [h], fun h => ?_, List.prefix_refl _, List.prefix_refl _, List.prefix_refl _,
      List.suffix_refl _, List.suffix_refl _⟩
    simp only [freeGap_lost, Bool.or_eq_true, Bool.and_eq_true] at h
    exact h.imp id (·.1)

/-- A gap leaves the stream, the log of requests, the answers and the cursor alone. -/
theorem gap_go {s s' : State} (hb : s.busy = true) (h : gap s = .go () s') :
    AfterSteps s s' ∧ s'.answers = s.answers ∧ s'.stream = s.stream ∧ s'.requests = s.requests ∧
      s'.txOff = s.txOff ∧ s'.txSent = s.txSent := by
  refine ⟨(gap_sound hb).go h, ?_⟩
  unfold gap at h
  split at h
  · obtain ⟨_, _, h1⟩ := (applyInputs_sound _ _ (by simpa using hb)).1 s' h
    exact h1
  · cases h
    exact ⟨rfl, rfl, rfl, rfl, rfl⟩

/-- A gap in which nothing lands. -/
theorem gap_quiet {s : State} {n : Nat} (h : QuietGaps s (n + 1)) :
    gap s = .go () { s with gaps := s.gaps.drop 1 } ∧ QuietGaps { s with gaps := s.gaps.drop 1 } n := by
  unfold QuietGaps at h
  rw [List.replicate_succ] at h
  cases hg : s.gaps with
  | nil => simp [hg] at h
  | cons g rest =>
    rw [hg, List.take_succ_cons, List.cons.injEq] at h
    refine ⟨?_, ?_⟩
    · rw [gap, hg]
      simp [h.1, applyInputs]
    · simpa using h.2

/-! ### Acceptance -/

/-- While an operation is in progress no other is accepted (R70, R200). -/
theorem accept_busy {s : State} (h : s.busy = true) : accept s = .stop (.refused .accessWhileBusy) := by
  simp [accept, h]

/-- Acceptance with `BUSY = 0`. -/
theorem accept_idle {s : State} (h : s.busy = false) : accept s = gap { s with busy := true } := by
  simp [accept, h]

theorem accept_sound {s : State} (h : s.busy = false) : (accept s).Sound { s with busy := true } := by
  rw [accept_idle h]
  exact gap_sound rfl

/-- A step that starts by accepting an operation: what it can answer as a next state. -/
theorem accept_andThen_next {s t : State} {f : Unit → State → Result} (e : (accept s).andThen f = .next t) :
    s.busy = false ∧
      ((¬ NoBlockReset s ∧ ∃ s1, AfterSteps { s with busy := true } s1 ∧ t = blockReset s1) ∨
        ∃ s1, AfterSteps { s with busy := true } s1 ∧ s1.answers = s.answers ∧ s1.stream = s.stream ∧
          s1.requests = s.requests ∧ f () s1 = .next t) := by
  cases hb : s.busy with
  | true => rw [accept_busy hb] at e; simp at e
  | false =>
    refine ⟨rfl, ?_⟩
    rcases (accept_sound hb).andThen_next e with ⟨hn, h⟩ | ⟨a, s1, h1, h2, h3⟩
    · exact .inl ⟨hn, h⟩
    · rw [accept_idle hb] at h1
      obtain ⟨_, ha, hst, hrq, _⟩ := gap_go rfl h1
      exact .inr ⟨s1, h2, ha, hst, hrq, h3⟩

/-- Acceptance when nothing lands in its gap. -/
theorem accept_quiet {s : State} {n : Nat} (hb : s.busy = false) (h : QuietGaps s (n + 1)) :
    accept s = .go () { s with busy := true, gaps := s.gaps.drop 1 } ∧
      QuietGaps { s with busy := true, gaps := s.gaps.drop 1 } n := by
  rw [accept_idle hb]
  exact gap_quiet (s := { s with busy := true }) h

/-! ### Requests -/

/-- What a draw does: it takes an answer, nothing else changes. -/
theorem drawAnswer_snd (s : State) : ∃ l d, (drawAnswer s).2 = { s with answers := l, draws := d } ∧ l <:+ s.answers := by
  unfold drawAnswer
  split
  · next a rest h => exact ⟨rest, s.draws, rfl, h ▸ List.suffix_cons _ _⟩
  · next h => exact ⟨s.answers, s.draws + 1, rfl, List.suffix_refl _⟩

/-- A draw from the list. -/
theorem drawAnswer_cons {s : State} {a : Answer} {rest : List Answer} (h : s.answers = a :: rest) :
    drawAnswer s = (a, { s with answers := rest }) := by
  simp [drawAnswer, h]

/-- A request, before its answer's effect: only the log, the answers and the count of draws change. -/
theorem request_steps (r : TxRequest) (s : State) : AfterSteps s (drawAnswer (logRequest r s)).2 := by
  obtain ⟨l, d, h, hl⟩ := drawAnswer_snd (logRequest r s)
  rw [h]
  exact ⟨rfl, id, .inl, List.prefix_refl _, List.prefix_refl _, List.prefix_append _ _, List.suffix_refl _, hl⟩

/-- `TxOpen`: what it can do. -/
theorem txOpen_sound {s : State} (hb : s.busy = true) : (txOpen s).Sound s := by
  have h := request_steps (.openPort s.cfg.params.portId) s
  exact Run.Sound.after h ((gap_sound (h.busy.trans hb)).bind fun _ s' _ => AfterSteps.refl s')

/-- `TxOpen` leaves the stream alone and is one request. -/
theorem txOpen_go {s s' : State} {ok : Bool} (hb : s.busy = true) (h : txOpen s = .go ok s') :
    s'.stream = s.stream ∧ s'.requests = s.requests ++ [.openPort s.cfg.params.portId] := by
  have hs := request_steps (.openPort s.cfg.params.portId) s
  obtain ⟨l, d, hd, _⟩ := drawAnswer_snd (logRequest (.openPort s.cfg.params.portId) s)
  unfold txOpen at h
  simp only at h
  cases hg : gap (drawAnswer (logRequest (.openPort s.cfg.params.portId) s)).2 with
  | stop o => rw [hg] at h; simp at h
  | go u s1 =>
    rw [hg] at h
    simp only [Run.go_bind, Run.go.injEq] at h
    obtain ⟨_, _, h1, h2, _⟩ := gap_go (hs.busy.trans hb) hg
    rw [← h.2, h1, h2, hd]
    exact ⟨rfl, rfl⟩

/-- `TxDrain`: what it can do. -/
theorem txDrain_sound {s : State} (hb : s.busy = true) : (txDrain s).Sound s := by
  have h := request_steps (.drain s.cfg.params.drainTimeout) s
  unfold txDrain
  generalize drawAnswer (logRequest (.drain s.cfg.params.drainTimeout) s) = d at h ⊢
  refine Run.Sound.after h (Run.Sound.bind (gap_sound (h.busy.trans hb)) fun _ s' _ => ?_)
  split
  · intro t ht; cases ht
  · exact AfterSteps.refl s'

/-- `TxDrain` leaves the stream and the cursor alone and is one request. -/
theorem txDrain_go {s s' : State} {ok : Bool} (hb : s.busy = true) (h : txDrain s = .go ok s') :
    s'.stream = s.stream ∧ s'.requests = s.requests ++ [.drain s.cfg.params.drainTimeout] ∧
      s'.txOff = s.txOff ∧ s'.txSent = s.txSent := by
  have hs := request_steps (.drain s.cfg.params.drainTimeout) s
  obtain ⟨l, d, hd, _⟩ := drawAnswer_snd (logRequest (.drain s.cfg.params.drainTimeout) s)
  unfold txDrain at h
  simp only at h
  cases hg : gap (drawAnswer (logRequest (.drain s.cfg.params.drainTimeout) s)).2 with
  | stop o => rw [hg] at h; simp at h
  | go u s1 =>
    rw [hg] at h
    simp only [Run.go_bind] at h
    split at h
    · simp at h
    · simp only [Run.go.injEq] at h
      obtain ⟨_, _, h1, h2, h3, h4⟩ := gap_go (hs.busy.trans hb) hg
      rw [← h.2, h1, h2, h3, h4, hd]
      exact ⟨rfl, rfl, rfl, rfl⟩

/-- Bytes arriving in the stream, as steps. -/
theorem appendStream_steps (bytes : List Byte) (s : State) : AfterSteps s (appendStream bytes s) :=
  ⟨rfl, id, .inl, List.prefix_refl _, List.prefix_append _ _, List.prefix_refl _, List.suffix_refl _, List.suffix_refl _⟩

/-- `TxWrite`: what it can do. -/
theorem txWrite_sound (bytes : List Byte) {s : State} (hb : s.busy = true) : (txWrite bytes s).Sound s := by
  have h := request_steps (.write bytes) s
  unfold txWrite
  generalize drawAnswer (logRequest (.write bytes) s) = d at h ⊢
  exact Run.Sound.after (h.trans (appendStream_steps _ _))
    (Run.Sound.bind (gap_sound (h.busy.trans hb)) fun _ s' _ => AfterSteps.refl s')

/-- `TxWrite` of some bytes: one request; on `Ok(m)` the first m bytes are appended to the stream, on `Err` some prefix
is; the cursor stays (R174, R254). -/
theorem txWrite_go {bytes : List Byte} {s s' : State} {answer : Option Nat} (hb : s.busy = true)
    (h : txWrite bytes s = .go answer s') :
    s'.requests = s.requests ++ [.write bytes] ∧ s'.txOff = s.txOff ∧ s'.txSent = s.txSent ∧
      ∃ m, m ≤ bytes.length ∧ s'.stream = s.stream ++ bytes.take m ∧ ∀ k, answer = some k → k = m := by
  have hs := request_steps (.write bytes) s
  obtain ⟨l, d, hd, _⟩ := drawAnswer_snd (logRequest (.write bytes) s)
  unfold txWrite at h
  generalize drawAnswer (logRequest (.write bytes) s) = a at h hs hd
  simp only at h
  cases hg : gap (appendStream (bytes.take (min a.1.count bytes.length)) a.2) with
  | stop o => rw [hg] at h; simp at h
  | go u s1 =>
    rw [hg] at h
    simp only [Run.go_bind, Run.go.injEq] at h
    obtain ⟨_, _, h1, h2, h3, h4⟩ := gap_go (s := appendStream _ a.2) (hs.busy.trans hb) hg
    rw [← h.2, h1, h2, h3, h4]
    simp only [appendStream_stream, appendStream_requests, appendStream_txOff, appendStream_txSent]
    rw [hd]
    refine ⟨rfl, rfl, rfl, _, Nat.min_le_right _ _, rfl, fun k hk => ?_⟩
    rw [← h.1] at hk
    split at hk
    · exact (Option.some.inj hk).symm
    · cases hk

/-! ### Requests when nothing lands in their gaps -/

/-- `TxOpen` when nothing lands in its gap. -/
theorem txOpen_quiet {s : State} {a : Answer} {rest : List Answer} {g : List (List Input)} (ha : s.answers = a :: rest)
    (hg : s.gaps = [] :: g) : txOpen s = .go a.ok { s with
      requests := s.requests ++ [.openPort s.cfg.params.portId], answers := rest, gaps := g } := by
  simp [txOpen, drawAnswer, logRequest, gap, ha, hg, applyInputs]

/-- `TxWrite` when nothing lands in its gap. -/
theorem txWrite_quiet {bytes : List Byte} {s : State} {a : Answer} {rest : List Answer} {g : List (List Input)}
    (ha : s.answers = a :: rest) (hg : s.gaps = [] :: g) :
    txWrite bytes s = .go (if a.ok then some (min a.count bytes.length) else none) { s with
      stream := s.stream ++ bytes.take a.count, requests := s.requests ++ [.write bytes], answers := rest, gaps := g } := by
  simp [txWrite, drawAnswer, logRequest, appendStream, gap, ha, hg, applyInputs]

/-- `TxDrain` when nothing lands in its gap. -/
theorem txDrain_quiet {s : State} {a : Answer} {rest : List Answer} {g : List (List Input)} (ha : s.answers = a :: rest)
    (hg : s.gaps = [] :: g) (ht : a.ok = true ∨ s.cfg.params.drainTimeout ≠ .infinite) :
    txDrain s = .go a.ok { s with
      requests := s.requests ++ [.drain s.cfg.params.drainTimeout], answers := rest, gaps := g } := by
  rcases ht with h | h <;> simp [txDrain, drawAnswer, logRequest, gap, ha, hg, applyInputs, h]

/-- `TxWrite` when the transport is lost in its gap: the answer counts, and LOST is set (R253, R259). -/
theorem txWrite_lost {bytes : List Byte} {s : State} {a : Answer} {rest : List Answer} {g : List (List Input)}
    (hb : s.busy = true) (hh : s.held = true) (ha : s.answers = a :: rest) (hg : s.gaps = [.lost] :: g) :
    txWrite bytes s = .go (if a.ok then some (min a.count bytes.length) else none) { s with
      lost := true, stream := s.stream ++ bytes.take a.count, requests := s.requests ++ [.write bytes], answers := rest,
      gaps := g } := by
  have hd : s.session ≠ .disconnected := by simpa [State.held] using hh
  simp [txWrite, drawAnswer, logRequest, appendStream, gap, ha, hg, applyInputs, applyInput, loseTransport, State.held, hb, hd]

/-- `TxDrain` when the transport is lost in its gap: the answer counts, and LOST is set (R253, R259). -/
theorem txDrain_lost {s : State} {a : Answer} {rest : List Answer} {g : List (List Input)} (hb : s.busy = true)
    (hh : s.held = true) (ha : s.answers = a :: rest) (hg : s.gaps = [.lost] :: g)
    (ht : a.ok = true ∨ s.cfg.params.drainTimeout ≠ .infinite) :
    txDrain s = .go a.ok { s with
      lost := true, requests := s.requests ++ [.drain s.cfg.params.drainTimeout], answers := rest, gaps := g } := by
  have hd : s.session ≠ .disconnected := by simpa [State.held] using hh
  rcases ht with h | h <;>
    simp [txDrain, drawAnswer, logRequest, gap, ha, hg, applyInputs, applyInput, loseTransport, State.held, hb, hd, h]

/-- The next gap, if the next ones are quiet. -/
theorem quietGaps_succ {s : State} {n : Nat} (h : QuietGaps s (n + 1)) : s.gaps = [] :: s.gaps.drop 1 := by
  unfold QuietGaps at h
  rw [List.replicate_succ] at h
  cases hg : s.gaps with
  | nil => simp [hg] at h
  | cons g rest =>
    rw [hg, List.take_succ_cons, List.cons.injEq] at h
    simp [h.1]

/-- The quiet gaps that stay after some of them. -/
theorem QuietGaps.drop {s s' : State} {m n : Nat} (h : QuietGaps s (m + n)) (e : s'.gaps = s.gaps.drop m) :
    QuietGaps s' n := by
  unfold QuietGaps at *
  have := congrArg (List.drop m) h
  rw [List.drop_take] at this
  rw [e]
  simpa using this

/-- Fewer of the quiet gaps. -/
theorem QuietGaps.mono {s : State} {m n : Nat} (h : QuietGaps s n) (hm : m ≤ n) : QuietGaps s m := by
  unfold QuietGaps at *
  have := congrArg (List.take m) h
  rwa [List.take_take, List.take_replicate, Nat.min_eq_left hm] at this

/-! ### Good answers -/

/-- Good answers to some requests and then to more. -/
theorem answersGood_append : ∀ {qs rs : List Asked} {as : List Answer}, answersGood (qs ++ rs) as = true ↔
    answersGood qs as = true ∧ answersGood rs (as.drop qs.length) = true
  | [], rs, as => by simp [answersGood]
  | q :: qs, rs, [] => by simp [answersGood]
  | q :: qs, rs, a :: as => by simp [answersGood, answersGood_append (qs := qs), and_assoc]

/-- The answer to the next request, if the next ones are good. -/
theorem answersGood_cons {q : Asked} {qs : List Asked} {as : List Answer} (h : answersGood (q :: qs) as = true) :
    ∃ a, as = a :: as.drop 1 ∧ goodAnswer q a = true ∧ answersGood qs (as.drop 1) = true := by
  cases as with
  | nil => cases h
  | cons a as => exact ⟨a, by simp, by simpa [answersGood] using h⟩

/-- A chunk asks as often as it makes requests (R172, R175). -/
@[simp] theorem askedOfChunk_length (p : Params) (n : Nat) : (askedOfChunk p n).length = requestsPerChunk p := by
  unfold askedOfChunk requestsPerChunk; split <;> rfl

/-- One chunk more (R170). -/
theorem askedOfChunks_succ (p : Params) (len n : Nat) : askedOfChunks p len (n + 1) =
    askedOfChunks p len n ++ askedOfChunk p (min p.chunkSize (len - n * p.chunkSize)) := by
  simp [askedOfChunks, List.range_succ]

/-- What the first chunks ask, counted. -/
@[simp] theorem askedOfChunks_length (p : Params) (len n : Nat) :
    (askedOfChunks p len n).length = n * requestsPerChunk p := by
  induction n with
  | zero => simp [askedOfChunks]
  | succ n ih => rw [askedOfChunks_succ, List.length_append, ih, askedOfChunk_length, Nat.add_mul, Nat.one_mul]

/-- Good answers for one chunk more: for the chunks before, and behind them for the last. -/
theorem goodAnswers_succ {s : State} {len n : Nat} : GoodAnswers s len (n + 1) ↔ GoodAnswers s len n ∧
    answersGood (askedOfChunk s.cfg.params (min s.cfg.params.chunkSize (len - n * s.cfg.params.chunkSize)))
      (s.answers.drop (n * requestsPerChunk s.cfg.params)) = true := by
  rw [GoodAnswers, askedOfChunks_succ, answersGood_append, askedOfChunks_length]

/-- Good answers for fewer chunks. -/
theorem GoodAnswers.mono {s : State} {len m n : Nat} (h : GoodAnswers s len n) (hm : m ≤ n) : GoodAnswers s len m := by
  induction hm with
  | refl => exact h
  | step _ ih => exact ih (goodAnswers_succ.1 h).1

end Sys2Proof.Machine
end

