-- ==== Sys2Proof/Laws/Send.lean ====
section
/-! SUPPORT. What a send can do (R172), said once: the frame of the loop, one round of it, and the ends of the
operations that send. -/

namespace Sys2Proof.Machine

open Sys2Proof.Safety

/-- The cursor moving is a step inside an operation. -/
theorem cursor_steps (off sent : Nat) (s : State) : AfterSteps s (setCursor off sent s) :=
  ⟨rfl, id, .inl, List.prefix_refl _, List.prefix_refl _, List.prefix_refl _, List.suffix_refl _, List.suffix_refl _⟩

/-- The pacing drain: what it can do (R175, R176). -/
theorem paceDrain_sound {s : State} (hb : s.busy = true) : (paceDrain s).Sound s := by
  unfold paceDrain
  split
  · split
    · exact AfterSteps.refl s
    · exact txDrain_sound hb
  · exact AfterSteps.refl s

/-- The loop of a send: what it can do (R172). -/
theorem sendLoop_sound (p : List Byte) : ∀ (fuel : Nat) (s : State), s.busy = true → (sendLoop p fuel s).Sound s := by
  intro fuel
  induction fuel with
  | zero => intro s _; exact AfterSteps.refl s
  | succ fuel ih =>
    intro s hb
    rw [sendLoop]
    split
    · dsimp only
      split
      · exact AfterSteps.refl s
      · refine (txWrite_sound _ hb).bind fun answer s1 h1 => ?_
        have hb1 : s1.busy = true := ((txWrite_sound _ hb).go h1).busy.trans hb
        cases answer with
        | none => exact AfterSteps.refl s1
        | some m =>
          dsimp only
          split
          · exact cursor_steps _ _ s1
          · generalize s1.txOff + min s.cfg.params.chunkSize (p.length - s.txOff) = off
            have hp := paceDrain_sound (s := setCursor off (s1.txSent + m) s1) hb1
            refine Run.Sound.after (cursor_steps off (s1.txSent + m) s1) (hp.bind fun goOn s3 h3 => ?_)
            have hb3 : s3.busy = true := (hp.go h3).busy.trans hb1
            cases goOn with
            | false => exact AfterSteps.refl s3
            | true => exact ih s3 hb3
    · exact AfterSteps.refl s

/-- A send: what it can do (R172). -/
theorem send_sound (p : List Byte) {s : State} (hb : s.busy = true) : (send p s).Sound s :=
  Run.Sound.after (cursor_steps 0 0 s) (sendLoop_sound p _ _ hb)

/-- `awaitDrain`: what it can do (R180). -/
theorem awaitDrain_sound {s : State} (hb : s.busy = true) : (awaitDrain s).Sound s := by
  unfold awaitDrain
  split
  · exact AfterSteps.refl s
  · exact txDrain_sound hb

/-- The loop is over when the cursor is at the end. -/
theorem sendLoop_end {p : List Byte} {fuel : Nat} {s : State} (h : p.length ≤ s.txOff) :
    sendLoop p fuel s = .go (.done s.txSent) s := by
  cases fuel with
  | zero => rfl
  | succ fuel => rw [sendLoop, if_neg (by omega)]

/-! ### Chunks sent well -/

/-- The length of a slice inside a list. -/
theorem slice_length {l : List Byte} {i n : Nat} (h : i + n ≤ l.length) : (slice l i n).length = n := by
  simp only [slice, List.length_take, List.length_drop]; omega

/-- One round of the loop in which nothing lands and the transport answers well: the chunk is acknowledged (R172). -/
theorem sendLoop_round {p : List Byte} {fuel : Nat} {s : State} (ho : s.txOff < p.length) (hl : s.lost = false)
    (hq : QuietGaps s (requestsPerChunk s.cfg.params))
    (hg : answersGood (askedOfChunk s.cfg.params (min s.cfg.params.chunkSize (p.length - s.txOff))) s.answers = true) :
    sendLoop p (fuel + 1) s =
      let n := min s.cfg.params.chunkSize (p.length - s.txOff)
      sendLoop p fuel { s with
        txOff := s.txOff + n, txSent := s.txSent + n, stream := s.stream ++ slice p s.txOff n,
        requests := s.requests ++ chunkRequests s.cfg.params (slice p s.txOff n),
        answers := s.answers.drop (requestsPerChunk s.cfg.params),
        gaps := s.gaps.drop (requestsPerChunk s.cfg.params) } := by
  dsimp only
  generalize hn : min s.cfg.params.chunkSize (p.length - s.txOff) = n at hg ⊢
  have hlen : (slice p s.txOff n).length = n := slice_length (by omega)
  obtain ⟨k, hk⟩ : ∃ k, requestsPerChunk s.cfg.params = k + 1 := by
    unfold requestsPerChunk; split <;> exact ⟨_, rfl⟩
  rw [hk] at hq
  have hgap := quietGaps_succ hq
  obtain ⟨qs, hqs⟩ : ∃ qs, askedOfChunk s.cfg.params n = .write n :: qs := by
    unfold askedOfChunk; split <;> exact ⟨_, rfl⟩
  obtain ⟨a, ha, hga, hrest⟩ := answersGood_cons (hqs ▸ hg)
  obtain ⟨hok, hcount⟩ : a.ok = true ∧ n ≤ a.count := by simpa [goodAnswer] using hga
  have htake : (slice p s.txOff n).take a.count = slice p s.txOff n := List.take_of_length_le (by omega)
  have hmin : min a.count n = n := by omega
  rw [sendLoop, if_pos ho]
  simp only [hn, hl, Bool.false_eq_true, if_false]
  rw [txWrite_quiet ha hgap]
  simp only [Run.go_bind, hok, if_true, hlen, hmin, htake, lt_self_iff_false, if_false, setCursor]
  unfold paceDrain chunkRequests
  by_cases hp : s.cfg.params.paceDrain = true
  · have hr : requestsPerChunk s.cfg.params = 1 + 1 := by simp [requestsPerChunk, hp]
    have hk1 : k = 1 := by omega
    subst hk1
    have hq1 : QuietGaps { s with gaps := s.gaps.drop 1 } 1 := QuietGaps.drop (m := 1) hq rfl
    have hgap1 := quietGaps_succ hq1
    have hd : qs = [.drain] := by simpa [askedOfChunk, hp] using hqs.symm
    obtain ⟨b, hb, hbok, _⟩ := answersGood_cons (hd ▸ hrest)
    have hbok : b.ok = true := hbok
    simp only at hgap1
    simp only [hp, hl, Bool.false_eq_true, if_true, if_false]
    rw [txDrain_quiet (a := b) (rest := (s.answers.drop 1).drop 1) (g := (s.gaps.drop 1).drop 1) (by exact hb) (by exact hgap1)
      (.inl hbok)]
    simp [hbok, hr]
  · have hr : requestsPerChunk s.cfg.params = 1 := by simp [requestsPerChunk, hp]
    simp [hp, hr, hl]

/-- The state of a send after its first i chunks, if nothing landed and the transport answered well. -/
def afterChunks (p : List Byte) (i : Nat) (s : State) : State :=
  let c := s.cfg.params.chunkSize
  let k := i * requestsPerChunk s.cfg.params
  { s with
    txOff := min (i * c) p.length, txSent := min (i * c) p.length, stream := s.stream ++ p.take (i * c),
    requests := s.requests ++ ((chunks c p).take i).flatMap (chunkRequests s.cfg.params), answers := s.answers.drop k,
    gaps := s.gaps.drop k }

/-- A chunk index below the count is a byte index below the length (R170). -/
theorem lt_chunkCount {c len i : Nat} (hc : 1 ≤ c) : i < chunkCount c len ↔ i * c < len := by
  unfold chunkCount ceilDiv
  rw [Nat.lt_iff_add_one_le, Nat.le_div_iff_mul_le (by omega), Nat.add_mul]
  omega

/-- There are no more chunks than bytes (R170). -/
theorem chunkCount_le {c : Nat} (len : Nat) (hc : 1 ≤ c) : chunkCount c len ≤ len := by
  by_contra h
  have h1 := (lt_chunkCount (len := len) (i := len) hc).1 (by omega)
  have := Nat.le_mul_of_pos_right len hc
  omega

/-- The chunks cover the payload (R170). -/
theorem le_chunkCount_mul {c : Nat} (len : Nat) (hc : 1 ≤ c) : len ≤ chunkCount c len * c := by
  by_contra h
  exact absurd ((lt_chunkCount (len := len) (i := chunkCount c len) hc).2 (by omega)) (lt_irrefl _)

/-- The chunks before one more. -/
theorem chunks_take_succ {c : Nat} {p : List Byte} {i : Nat} (h : i < chunkCount c p.length) :
    (chunks c p).take (i + 1) = (chunks c p).take i ++ [chunk c p i] := by
  rw [List.take_add_one]
  simp [chunks, h]

/-- The first i chunks of a send, all answered well (R172): the loop goes on behind them. -/
theorem sendLoop_chunks {p : List Byte} {s : State} (hl : s.lost = false) : ∀ {i fuel : Nat},
    i ≤ chunkCount s.cfg.params.chunkSize p.length → QuietGaps s (i * requestsPerChunk s.cfg.params) →
    GoodAnswers s p.length i →
    sendLoop p (i + fuel) (setCursor 0 0 s) = sendLoop p fuel (afterChunks p i s) := by
  intro i
  induction i with
  | zero => intro fuel _ _ _; simp [afterChunks, setCursor]
  | succ i ih =>
    intro fuel hi hq hg
    have hc : 1 ≤ s.cfg.params.chunkSize := s.cfg.legal.1.1
    have hlt : i * s.cfg.params.chunkSize < p.length := (lt_chunkCount hc).1 hi
    rw [Nat.add_mul, Nat.one_mul] at hq
    have hq0 := QuietGaps.mono hq (Nat.le_add_right _ _)
    obtain ⟨hg0, hg1⟩ := goodAnswers_succ.1 hg
    have hmin : min (i * s.cfg.params.chunkSize) p.length = i * s.cfg.params.chunkSize := by omega
    have e : i + 1 + fuel = i + (fuel + 1) := by omega
    rw [e, ih (by omega) hq0 hg0, sendLoop_round (by simp only [afterChunks]; omega) (by exact hl)
      (by exact QuietGaps.drop hq rfl) (by simp only [afterChunks, hmin]; exact hg1)]
    refine congrArg (sendLoop p fuel) ?_
    simp only [afterChunks, hmin, chunks_take_succ hi, List.flatMap_append, List.flatMap_cons, List.flatMap_nil,
      List.append_nil, List.append_assoc, List.drop_drop, Nat.add_mul, Nat.one_mul, State.mk.injEq, true_and, and_true,
      List.append_cancel_left_eq]
    refine ⟨by omega, by omega, ?_, rfl⟩
    rw [slice, List.take_add]
    refine congrArg (p.take (i * s.cfg.params.chunkSize) ++ ·) ?_
    rcases Nat.le_total s.cfg.params.chunkSize (p.length - i * s.cfg.params.chunkSize) with h | h
    · rw [Nat.min_eq_left h]
    · rw [Nat.min_eq_right h, List.take_of_length_le (by simp), List.take_of_length_le (by simp [h])]

/-- A send whose first i chunks, not the last, are answered well goes on at chunk i (R172). -/
theorem send_chunks {p : List Byte} {s : State} {i : Nat} (hi : i < chunkCount s.cfg.params.chunkSize p.length)
    (hl : s.lost = false) (hq : QuietGaps s (i * requestsPerChunk s.cfg.params))
    (hg : GoodAnswers s p.length i) :
    ∃ fuel, send p s = sendLoop p (fuel + 1) (afterChunks p i s) := by
  have hle := chunkCount_le p.length s.cfg.legal.1.1
  obtain ⟨f, hf⟩ : ∃ f, p.length = i + (f + 1) := ⟨p.length - i - 1, by omega⟩
  refine ⟨f, ?_⟩
  unfold send
  conv => lhs; arg 2; rw [hf]
  exact sendLoop_chunks hl (by omega) hq hg

/-! ### The bytes a send reports -/

/-- The bytes a send reports (R172). -/
def SendResult.bytes : SendResult → Nat
  | .done k => k
  | .failed k => k

/-- The loop of a send acknowledges no more bytes than the payload has (R172). -/
theorem sendLoop_bytes (p : List Byte) : ∀ (fuel : Nat) (s s' : State) (r : SendResult), s.busy = true →
    s.txSent = s.txOff → s.txOff ≤ p.length → sendLoop p fuel s = .go r s' → r.bytes ≤ p.length := by
  intro fuel
  induction fuel with
  | zero =>
    intro s s' r _ h1 h2 h
    simp only [sendLoop, Run.go.injEq] at h
    rw [← h.1, SendResult.bytes]
    omega
  | succ fuel ih =>
    intro s s' r hb h1 h2 h
    rw [sendLoop] at h
    dsimp only at h
    split at h
    · split at h
      · simp only [Run.go.injEq] at h
        rw [← h.1, SendResult.bytes]
        omega
      · generalize hn : min s.cfg.params.chunkSize (p.length - s.txOff) = n at h
        have hlen : (slice p s.txOff n).length = n := slice_length (by omega)
        cases hw : txWrite (slice p s.txOff n) s with
        | stop o => rw [hw] at h; simp at h
        | go answer s1 =>
          rw [hw] at h
          simp only [Run.go_bind] at h
          obtain ⟨_, ho, hs, m, hm, _, hans⟩ := txWrite_go hb hw
          have hb1 := ((txWrite_sound _ hb).go hw).busy.trans hb
          cases answer with
          | none =>
            simp only [Run.go.injEq] at h
            rw [← h.1, SendResult.bytes]
            omega
          | some k =>
            have := hans k rfl
            simp only at h
            split at h
            · simp only [Run.go.injEq] at h
              rw [← h.1, SendResult.bytes]
              omega
            · cases hp : paceDrain (setCursor (s1.txOff + n) (s1.txSent + k) s1) with
              | stop o => rw [hp] at h; simp at h
              | go goOn s3 =>
                have hc : s3.txOff = s1.txOff + n ∧ s3.txSent = s1.txSent + k ∧ s3.busy = true := by
                  refine ⟨?_, ?_, ((paceDrain_sound (by exact hb1)).go hp).busy.trans (by exact hb1)⟩ <;>
                  · unfold paceDrain at hp
                    split at hp
                    · split at hp
                      · simp only [Run.go.injEq] at hp
                        rw [← hp.2]
                        rfl
                      · obtain ⟨_, _, h3, h4⟩ := txDrain_go (by exact hb1) hp
                        first | exact h3 | exact h4
                    · simp only [Run.go.injEq] at hp
                      rw [← hp.2]
                      rfl
                rw [hp] at h
                simp only [Run.go_bind] at h
                split at h
                · exact ih s3 s' r hc.2.2 (by omega) (by omega) h
                · simp only [Run.go.injEq] at h
                  rw [← h.1, SendResult.bytes]
                  omega
    · simp only [Run.go.injEq] at h
      rw [← h.1, SendResult.bytes]
      omega

/-- A send acknowledges no more bytes than the payload has (R172). -/
theorem send_bytes {p : List Byte} {s s' : State} {r : SendResult} (hb : s.busy = true) (h : send p s = .go r s') :
    r.bytes ≤ p.length :=
  sendLoop_bytes p _ _ _ _ (by exact hb) rfl (Nat.zero_le _) h

/-! ### The ends of the operations -/

/-- The checks of R201 steps 2 and 3: how they end in a next state. -/
theorem checked_next {allowed : Session → Bool} {s t : State} {body : State → Result}
    (h : checked allowed s body = .next t) :
    (s.session = .disconnected ∧ t = finish .notConnected 0 s) ∨
      (s.session ≠ .disconnected ∧ allowed s.session = false ∧ t = finish .invalidState 0 s) ∨
      (s.session ≠ .disconnected ∧ allowed s.session = true ∧ body s = .next t) := by
  unfold checked at h
  split at h
  · next h1 => cases h; exact .inl ⟨h1, rfl⟩
  · next h1 =>
    split at h
    · next h2 => exact .inr (.inr ⟨h1, h2, h⟩)
    · next h2 =>
      cases h
      exact .inr (.inl ⟨h1, by simpa using h2, rfl⟩)

/-- The checks of R201 when the operation is allowed. -/
theorem checked_allowed {allowed : Session → Bool} {s : State} {body : State → Result}
    (h : s.session ≠ .disconnected) (ha : allowed s.session = true) : checked allowed s body = body s := by
  rw [checked, if_neg h, if_pos ha]

/-- The command-send template (R203): every next state it answers. Either a block reset landed inside, or the
operation was accepted and ended in one of four ways. -/
theorem sendCommand_next {cmd : Command} {allowed : Session → Bool} {onDone onFailed : Session → Session}
    {s t : State} (h : sendCommand cmd allowed onDone onFailed s = .next t) :
    s.busy = false ∧
      ((¬ NoBlockReset s ∧ ∃ s1, AfterSteps { s with busy := true } s1 ∧ t = blockReset s1) ∨
        ∃ s1, AfterSteps { s with busy := true } s1 ∧
          ((s.session = .disconnected ∧ s1.stream = s.stream ∧ s1.requests = s.requests ∧
              t = finish .notConnected 0 s1) ∨
            (s.session ≠ .disconnected ∧ allowed s.session = false ∧ s1.stream = s.stream ∧
              s1.requests = s.requests ∧ t = finish .invalidState 0 s1) ∨
            (s.session ≠ .disconnected ∧ allowed s.session = true ∧
              ∃ k, k ≤ (encodeCommand s.cfg.params cmd).length ∧
                (t = finish .ok k { s1 with session := onDone s.session } ∨
                  t = finish .transmissionFailed k { s1 with session := onFailed s.session })))) := by
  obtain ⟨hb, h⟩ := accept_andThen_next h
  refine ⟨hb, ?_⟩
  rcases h with ⟨hn, hr⟩ | ⟨s1, h1, _, hst, hrq, h⟩
  · exact .inl ⟨hn, hr⟩
  have hses : s1.session = s.session := h1.session
  rcases checked_next h with ⟨hd, ht⟩ | ⟨hd, ha, ht⟩ | ⟨hd, ha, h⟩
  · exact .inr ⟨s1, h1, .inl ⟨hses ▸ hd, hst, hrq, ht⟩⟩
  · exact .inr ⟨s1, h1, .inr (.inl ⟨hses ▸ hd, hses ▸ ha, hst, hrq, ht⟩)⟩
  have hb1 : s1.busy = true := h1.busy
  rcases (send_sound _ hb1).andThen_next h with ⟨hn, s2, h2, ht⟩ | ⟨r, s2, hr, h2, h⟩
  · exact .inl ⟨fun hs => hn (h1.noBlockReset hs), s2, h1.trans h2, ht⟩
  have hk := send_bytes hb1 hr
  rw [h1.cfg] at hk
  have hses2 : s2.session = s.session := h2.session.trans hses
  refine .inr ⟨s2, h1.trans h2, .inr (.inr ⟨hses ▸ hd, hses ▸ ha, ?_⟩)⟩
  cases r with
  | done k => cases h; exact ⟨k, hk, .inl (by rw [hses2])⟩
  | failed k => cases h; exact ⟨k, hk, .inr (by rw [hses2]; rfl)⟩

end Sys2Proof.Machine
end

