-- ==== Sys2Proof/Laws/Exec.lean ====
section
/-! SUPPORT. What an operation can do, said once for all of them: every next state `exec` answers. -/

namespace Sys2Proof.Machine

open Sys2Proof.Safety

/-- When an operation is turned away before its first request, with which error (R201 steps 1 to 4). -/
def TurnedAway (i : Instr) (s : State) : Status → Prop
  | .notConnected => (needsTransport i = true ∧ s.session = .disconnected) ∨ (i = .openPort ∧ s.spent = true)
  | .invalidState =>
    (needsTransport i = true ∧ s.session ≠ .disconnected ∧ s.session ∉ tableAllows i) ∨
      (i = .openPort ∧ s.spent = false ∧ s.session ≠ .disconnected)
  | .invalidImage => (i = .convert ∨ (i = .uploadImage ∧ s.session = .idle)) ∧ validImage s = none
  | .invalidPayloadSize => (i = .unpack ∨ (i = .uploadRaw ∧ s.session = .idle)) ∧ s.payloadLen.toNat ≠ 32768
  | .invalidOperation => ∃ op arg, i = .reserved op arg
  | .ok => False
  | .connectionFailed => False
  | .transmissionFailed => False
  | .timedOut => False

/-- When an operation gets as far as its own effect. A state in Uploading between operations is never reached (R221). -/
def GetsToRun (i : Instr) (s : State) : Prop :=
  (i = .openPort ∧ s.session = .disconnected ∧ s.spent = false) ∨ i = .convert ∨ i = .unpack ∨
    (needsTransport i = true ∧ s.session ≠ .disconnected ∧ (s.session ∈ tableAllows i ∨ s.session = .uploading))

/-- Which error an operation that got to run can fail with (R250). -/
def FailsWith (i : Instr) : Status → Prop
  | .connectionFailed => i = .openPort
  | .timedOut => i = .awaitDrain
  | .transmissionFailed =>
    i = .uploadImage ∨ i = .uploadRaw ∨
      ∃ c, i ∈ [Instr.home, .center, .preview, .moveUp, .moveDown, .moveLeft, .moveRight, .pause, .reset, .start c, .erase]
  | .ok => False
  | .notConnected => False
  | .invalidImage => False
  | .invalidPayloadSize => False
  | .invalidState => False
  | .invalidOperation => False

/-- What an operation that got to run can leave in BMP: what was there, or 32768 bytes, if it is one of four. -/
def BmpAfter (i : Instr) (s : State) (m : Memory) : Prop :=
  m = s.bmp ∨ (i ∈ [Instr.convert, .unpack, .uploadImage, .uploadRaw] ∧
    ∃ bytes : List Byte, bytes.length = 32768 ∧ m = s.bmp.writeBytes 0 bytes)

/-- How an operation ends, by what its steps left (`s1`), its results, the session state and SPENT it goes to, and the
bitmap it leaves. -/
inductive Ends (i : Instr) (s s1 : State) : Status → Nat → Session → Bool → Memory → Prop where
  /-- Turned away: nothing was requested or sent. -/
  | turnedAway {st : Status} (h : TurnedAway i s st) (hst : s1.stream = s.stream) (hrq : s1.requests = s.requests) :
      Ends i s s1 st 0 s.session s.spent s.bmp
  /-- The operation ended with `OK`. -/
  | done {k : Nat} {m : Memory} (h : GetsToRun i s) (hk : k ≤ payloadLength s.cfg.params i) (hm : BmpAfter i s m) :
      Ends i s s1 .ok k (onSuccess i s.session) (s.spent || i == .close) m
  /-- The operation failed, with an error of R201 step 5. -/
  | failed {st : Status} {k : Nat} {m : Memory} (h : GetsToRun i s) (hf : FailsWith i st)
      (hc : st ≠ .transmissionFailed → k = 0) (hk : k ≤ payloadLength s.cfg.params i) (hm : BmpAfter i s m) :
      Ends i s s1 st k (onError i s.session) s.spent m

/-- An operation other than `CLOSE` that ended with `OK` leaves SPENT as it was. -/
theorem Ends.done_keeping {i : Instr} {s s1 : State} {k : Nat} {m : Memory} (hc : i ≠ .close) (h : GetsToRun i s)
    (hk : k ≤ payloadLength s.cfg.params i) (hm : BmpAfter i s m) : Ends i s s1 .ok k (onSuccess i s.session) s.spent m := by
  have he := Ends.done (s1 := s1) h hk hm
  rwa [show (i == Instr.close) = false from by rw [beq_eq_false_iff_ne]; exact hc, Bool.or_false] at he

/-- What an operation answered as a next state: a scheduled block reset, or its own end through `finish`. -/
def Answered (i : Instr) (s t : State) : Prop :=
  (¬ NoBlockReset s ∧ ∃ s1, AfterSteps { s with busy := true } s1 ∧ t = blockReset s1) ∨
    ∃ s1 st k x sp m, AfterSteps { s with busy := true } s1 ∧ Ends i s s1 st k x sp m ∧
      t = finish st k { s1 with session := x, spent := sp, bmp := m }

/-- The same, for an operation that ends with the session, SPENT and BMP its steps left. -/
theorem Answered.of_finish {i : Instr} {s s1 t : State} {st : Status} {k : Nat} (h1 : AfterSteps { s with busy := true } s1)
    (he : Ends i s s1 st k s.session s.spent s.bmp) (ht : t = finish st k s1) : Answered i s t := by
  refine .inr ⟨s1, st, k, _, _, _, h1, he, ?_⟩
  have e : ({ s1 with session := s.session, spent := s.spent, bmp := s.bmp } : State) = s1 := by
    rw [← h1.session, ← h1.spent, ← h1.bmp]
  rw [ht, e]

/-- The same, for an operation that ends with the SPENT and BMP its steps left. -/
theorem Answered.of_finish_session {i : Instr} {s s1 t : State} {st : Status} {k : Nat} {x : Session}
    (h1 : AfterSteps { s with busy := true } s1) (he : Ends i s s1 st k x s.spent s.bmp)
    (ht : t = finish st k { s1 with session := x }) : Answered i s t := by
  refine .inr ⟨s1, st, k, _, _, _, h1, he, ?_⟩
  have e : ({ s1 with session := x, spent := s.spent, bmp := s.bmp } : State) = { s1 with session := x } := by
    rw [← h1.spent, ← h1.bmp]
  rw [ht, e]

/-- Steps, then a new bitmap and the session state Uploading, then more steps: as steps of the operation. -/
theorem AfterSteps.uploading {s s1 s2 : State} {m : Memory} (h1 : AfterSteps s s1) (hh : s1.held = true)
    (h2 : AfterSteps { s1 with bmp := m, session := .uploading } s2) :
    AfterSteps s { s2 with bmp := s1.bmp, session := s1.session } := by
  refine h1.trans ⟨?_, h2.lost_stays, fun _ => .inr hh, h2.reads_grow, h2.stream_grows, h2.requests_grow, h2.gaps_used,
    h2.answers_used⟩
  have h := h2.eq
  rw [h]

/-- The Start frame's length does not depend on the burn time (R78, R114). -/
theorem start_length (p : Params) (v : Byte) : (encodeCommand p (.start v)).length = startLength p := by
  simp [encodeCommand, burnTimeFrame, startLength]
  omega

/-- The commands by the operations that send them, with the sessions that allow them (R115, R202). -/
theorem sendCommand_answered {i : Instr} {cmd : Command} {allowed : Session → Bool} {onDone onFailed : Session → Session}
    {s t : State} (h : sendCommand cmd allowed onDone onFailed s = .next t) (hn : needsTransport i = true)
    (hc : i ≠ .close) (hf : FailsWith i .transmissionFailed)
    (ha : ∀ x, allowed x = true → x ≠ .disconnected → x ∈ tableAllows i ∨ x = .uploading)
    (hr : ∀ x, allowed x = false → x ∉ tableAllows i) (hd : ∀ x, onDone x = onSuccess i x)
    (he : ∀ x, x ≠ .disconnected → onFailed x = onError i x)
    (hp : (encodeCommand s.cfg.params cmd).length = payloadLength s.cfg.params i) : s.busy = false ∧ Answered i s t := by
  obtain ⟨hb, h⟩ := sendCommand_next h
  refine ⟨hb, ?_⟩
  rcases h with h | ⟨s1, h1, ⟨hs, hst, hrq, ht⟩ | ⟨hs, hal, hst, hrq, ht⟩ | ⟨hs, hal, k, hk, ht | ht⟩⟩
  · exact .inl h
  · exact .of_finish h1 (.turnedAway (st := .notConnected) (Or.inl ⟨hn, hs⟩) hst hrq) ht
  · exact .of_finish h1 (.turnedAway (st := .invalidState) (Or.inl ⟨hn, hs, hr _ hal⟩) hst hrq) ht
  · refine .of_finish_session h1 (x := onSuccess i s.session) ?_ (by rw [ht, hd])
    exact .done_keeping hc (.inr (.inr (.inr ⟨hn, hs, ha _ hal hs⟩))) (hk.trans_eq hp) (.inl rfl)
  · refine .of_finish_session h1 (x := onError i s.session) ?_ (by rw [ht, he _ hs])
    exact .failed (.inr (.inr (.inr ⟨hn, hs, ha _ hal hs⟩))) hf (fun hne => absurd rfl hne) (hk.trans_eq hp) (.inl rfl)

/-- The part the uploads share (R218, R219), from a state that the conversion left: every next state it answers. -/
theorem uploadBitmap_next {s t : State} {bytes : List Byte} (hl : bytes.length = 32768) (hb : s.busy = true)
    (h : uploadBitmap (memWrite s .bmp 0 bytes) = .next t) :
    let s0 : State := { s with bmp := s.bmp.writeBytes 0 bytes, session := .uploading }
    (¬ NoBlockReset s ∧ ∃ s1, AfterSteps s0 s1 ∧ t = blockReset s1) ∨
      ∃ s1 k, AfterSteps s0 s1 ∧ k ≤ 32768 ∧
        (t = finish .ok k { s1 with session := .ready } ∨
          t = finish .transmissionFailed k { s1 with session := .idle }) := by
  intro s0
  unfold uploadBitmap at h
  rw [packedBytes_memWrite s hl] at h
  have hs0 : ({ memWrite s .bmp 0 bytes with session := .uploading } : State) = s0 := rfl
  simp only [hs0] at h
  have hb' : s0.busy = true := hb
  rcases (send_sound bytes hb').andThen_next h with ⟨hn, s2, h2, ht⟩ | ⟨r, s2, hr, h2, h⟩
  · exact .inl ⟨hn, s2, h2, ht⟩
  · have hk := send_bytes hb' hr
    rw [hl] at hk
    cases r with
    | done k => cases h; exact .inr ⟨s2, k, h2, hk, .inl rfl⟩
    | failed k => cases h; exact .inr ⟨s2, k, h2, hk, .inr rfl⟩

/-- The upload of a converted bitmap, as the end of an operation. -/
theorem uploadBitmap_answered {i : Instr} (hi : i = .uploadImage ∨ i = .uploadRaw) {s s1 t : State} {bytes : List Byte}
    (h1 : AfterSteps { s with busy := true } s1) (hs : s.session = .idle) (hl : bytes.length = 32768)
    (h : uploadBitmap (memWrite s1 .bmp 0 bytes) = .next t) : Answered i s t := by
  have hb1 : s1.busy = true := h1.busy
  have hh : s1.held = true := by simp [State.held, h1.session, hs]
  have hbmp : s1.bmp = s.bmp := h1.bmp
  have hses : s1.session = .idle := h1.session.trans hs
  have hm : BmpAfter i s (s.bmp.writeBytes 0 bytes) := .inr ⟨by rcases hi with rfl | rfl <;> simp, bytes, hl, rfl⟩
  have hg : GetsToRun i s := by
    refine .inr (.inr (.inr ⟨?_, ?_, .inl ?_⟩)) <;> rcases hi with rfl | rfl <;> simp [needsTransport, tableAllows, hs]
  have hsucc : onSuccess i s.session = .ready := by rcases hi with rfl | rfl <;> rfl
  have herr : onError i s.session = .idle := by rcases hi with rfl | rfl <;> simp [onError, hs]
  have hclose : (i == Instr.close) = false := by rcases hi with rfl | rfl <;> rfl
  have hp : payloadLength s.cfg.params i = 32768 := by rcases hi with rfl | rfl <;> rfl
  have hsp : ∀ s2 : State, AfterSteps { s1 with bmp := s1.bmp.writeBytes 0 bytes, session := .uploading } s2 →
      s2.spent = s.spent ∧ s2.bmp = s.bmp.writeBytes 0 bytes :=
    fun s2 h2 => ⟨h2.spent.trans h1.spent, by rw [h2.bmp, ← hbmp]⟩
  rcases uploadBitmap_next hl hb1 h with ⟨hn, s2, h2, ht⟩ | ⟨s2, k, h2, hk, ht⟩
  · exact .inl ⟨fun hs => hn (h1.noBlockReset hs), _, h1.uploading hh h2, ht⟩
  · obtain ⟨e1, e2⟩ := hsp s2 h2
    rcases ht with ht | ht
    · have he := Ends.done (s1 := { s2 with bmp := s1.bmp, session := s1.session }) hg (hk.trans_eq hp.symm) hm
      rw [hclose, Bool.or_false, hsucc] at he
      refine .inr ⟨_, _, _, _, _, _, h1.uploading hh h2, he, ?_⟩
      rw [ht, ← e1, ← e2]
    · have he := Ends.failed (i := i) (st := .transmissionFailed) (s1 := { s2 with bmp := s1.bmp, session := s1.session }) hg
        (by rcases hi with rfl | rfl <;> simp [FailsWith]) (fun hne => absurd rfl hne) (hk.trans_eq hp.symm) hm
      rw [herr] at he
      refine .inr ⟨_, _, _, _, _, _, h1.uploading hh h2, he, ?_⟩
      rw [ht, ← e1, ← e2]

/-- `OPEN` (R204). -/
theorem execOpen_answered {s t : State} (h : execOpen s = .next t) : s.busy = false ∧ Answered .openPort s t := by
  obtain ⟨hb, h⟩ := accept_andThen_next h
  refine ⟨hb, ?_⟩
  rcases h with h | ⟨s1, h1, _, hst, hrq, h⟩
  · exact .inl h
  have hses : s1.session = s.session := h1.session
  have hsp : s1.spent = s.spent := h1.spent
  have hb1 : s1.busy = true := h1.busy
  split at h
  · next hp =>
    cases h
    exact .of_finish h1 (.turnedAway (st := .notConnected) (Or.inr ⟨rfl, hsp ▸ hp⟩) hst hrq) rfl
  · next hp =>
    have hp : s.spent = false := by rw [← hsp]; simpa using hp
    split at h
    · next hd =>
      cases h
      exact .of_finish h1 (.turnedAway (st := .invalidState) (Or.inr ⟨rfl, hp, hses ▸ hd⟩) hst hrq) rfl
    · next hd =>
      have hd : s.session = .disconnected := by rw [← hses]; simpa using hd
      have hg : GetsToRun .openPort s := .inl ⟨rfl, hd, hp⟩
      rcases (txOpen_sound hb1).andThen_next h with ⟨hn, s2, h2, ht⟩ | ⟨ok, s2, _, h2, h⟩
      · exact .inl ⟨fun hs => hn (h1.noBlockReset hs), s2, h1.trans h2, ht⟩
      · cases ok with
        | true =>
          cases h
          refine .of_finish_session (h1.trans h2) (x := .idle) ?_ rfl
          exact Ends.done_keeping (by simp) hg (Nat.zero_le _) (.inl rfl)
        | false =>
          cases h
          refine .of_finish (h1.trans h2) ?_ rfl
          exact Ends.failed (st := .connectionFailed) hg rfl (fun _ => rfl) (Nat.zero_le _) (.inl rfl)

/-- `CLOSE` (R205). -/
theorem execClose_answered {s t : State} (h : execClose s = .next t) : s.busy = false ∧ Answered .close s t := by
  obtain ⟨hb, h⟩ := accept_andThen_next h
  refine ⟨hb, ?_⟩
  rcases h with h | ⟨s1, h1, _, hst, hrq, h⟩
  · exact .inl h
  have hses : s1.session = s.session := h1.session
  have hb1 : s1.busy = true := h1.busy
  rcases checked_next h with ⟨hs, ht⟩ | ⟨hs, hal, ht⟩ | ⟨hs, hal, h⟩
  · exact .of_finish h1 (.turnedAway (st := .notConnected) (Or.inl ⟨rfl, hses ▸ hs⟩) hst hrq) ht
  · simp [inAnySession] at hal
  · rw [hses] at hs
    have hlog : AfterSteps s1 (logRequest .close s1) :=
      ⟨rfl, id, .inl, List.prefix_refl _, List.prefix_refl _, List.prefix_append _ _, List.suffix_refl _, List.suffix_refl _⟩
    rcases (gap_sound (s := logRequest .close s1) (by exact hb1)).andThen_next h with ⟨hn, s2, h2, ht⟩ | ⟨_, s2, _, h2, h⟩
    · exact .inl ⟨fun hs => hn (h1.noBlockReset hs), s2, (h1.trans hlog).trans h2, ht⟩
    · cases h
      have hin : s.session ∈ tableAllows .close ∨ s.session = .uploading := by
        cases hx : s.session <;> simp_all [tableAllows]
      have he := Ends.done (i := .close) (s1 := s2) (k := 0)
        (.inr (.inr (.inr ⟨rfl, hs, hin⟩))) (Nat.zero_le _) (.inl rfl)
      refine .inr ⟨_, _, _, _, _, _, (h1.trans hlog).trans h2, he, ?_⟩
      have e : s2.bmp = s.bmp := h2.bmp.trans h1.bmp
      simp only [onSuccess, BEq.rfl, Bool.or_true, ← e]

/-- `ERASE_SETTLED` (R217). -/
theorem execEraseSettled_answered {s t : State} (h : execEraseSettled s = .next t) :
    s.busy = false ∧ Answered .eraseSettled s t := by
  obtain ⟨hb, h⟩ := accept_andThen_next h
  refine ⟨hb, ?_⟩
  rcases h with h | ⟨s1, h1, _, hst, hrq, h⟩
  · exact .inl h
  have hses : s1.session = s.session := h1.session
  rcases checked_next h with ⟨hs, ht⟩ | ⟨hs, hal, ht⟩ | ⟨hs, hal, h⟩
  · exact .of_finish h1 (.turnedAway (st := .notConnected) (Or.inl ⟨rfl, hses ▸ hs⟩) hst hrq) ht
  · rw [hses] at hs hal
    refine .of_finish h1 (.turnedAway (st := .invalidState) (Or.inl ⟨rfl, hs, ?_⟩) hst hrq) ht
    simpa [tableAllows] using hal
  · rw [hses] at hs hal
    cases h
    refine .of_finish_session h1 (x := .idle) ?_ rfl
    have he : s.session = .erasing := by simpa using hal
    exact Ends.done_keeping (i := .eraseSettled) (by simp)
      (.inr (.inr (.inr ⟨rfl, hs, .inl (by simp [tableAllows, he])⟩))) (Nat.zero_le _) (.inl rfl)

/-- `AWAIT_DRAIN` (R220). -/
theorem execAwaitDrain_answered {s t : State} (h : execAwaitDrain s = .next t) :
    s.busy = false ∧ Answered .awaitDrain s t := by
  obtain ⟨hb, h⟩ := accept_andThen_next h
  refine ⟨hb, ?_⟩
  rcases h with h | ⟨s1, h1, _, hst, hrq, h⟩
  · exact .inl h
  have hses : s1.session = s.session := h1.session
  have hb1 : s1.busy = true := h1.busy
  rcases checked_next h with ⟨hs, ht⟩ | ⟨hs, hal, ht⟩ | ⟨hs, hal, h⟩
  · exact .of_finish h1 (.turnedAway (st := .notConnected) (Or.inl ⟨rfl, hses ▸ hs⟩) hst hrq) ht
  · simp [inAnySession] at hal
  · rw [hses] at hs
    have hin : s.session ∈ tableAllows .awaitDrain ∨ s.session = .uploading := by
      cases hx : s.session <;> simp_all [tableAllows]
    have hg : GetsToRun .awaitDrain s := .inr (.inr (.inr ⟨rfl, hs, hin⟩))
    rcases (awaitDrain_sound hb1).andThen_next h with ⟨hn, s2, h2, ht⟩ | ⟨ok, s2, _, h2, h⟩
    · exact .inl ⟨fun hs => hn (h1.noBlockReset hs), s2, h1.trans h2, ht⟩
    · cases ok with
      | true =>
        cases h
        refine .of_finish (h1.trans h2) ?_ rfl
        exact Ends.done_keeping (by simp) hg (Nat.zero_le _) (.inl rfl)
      | false =>
        cases h
        refine .of_finish (h1.trans h2) ?_ rfl
        exact Ends.failed (st := .timedOut) hg rfl (fun _ => rfl) (Nat.zero_le _) (.inl rfl)

/-- A bitmap written to BMP, as the end of an operation that sends nothing. -/
theorem Answered.of_bitmap {i : Instr} {s s1 : State} {bytes : List Byte} (h1 : AfterSteps { s with busy := true } s1)
    (hi : i = .convert ∨ i = .unpack) (hl : bytes.length = 32768) :
    Answered i s (finish .ok 0 (memWrite s1 .bmp 0 bytes)) := by
  have he := Ends.done (i := i) (s1 := s1) (k := 0) (s := s) (m := s.bmp.writeBytes 0 bytes)
    (by rcases hi with rfl | rfl; exacts [.inr (.inl rfl), .inr (.inr (.inl rfl))]) (Nat.zero_le _)
    (.inr ⟨by rcases hi with rfl | rfl <;> simp, bytes, hl, rfl⟩)
  refine .inr ⟨s1, _, _, _, _, _, h1, he, ?_⟩
  have e1 : s1.session = s.session := h1.session
  have e2 : s1.spent = s.spent := h1.spent
  have e3 : s1.bmp = s.bmp := h1.bmp
  have hs : onSuccess i s.session = s.session := by rcases hi with rfl | rfl <;> rfl
  have hc : (i == Instr.close) = false := by rcases hi with rfl | rfl <;> rfl
  rw [hs, hc, Bool.or_false, ← e1, ← e2, ← e3]
  rfl

/-- The validity of the image, unchanged by steps (R130). -/
theorem AfterSteps.validImage_eq {s s' : State} (h : AfterSteps s s') : validImage s' = validImage s := by
  unfold validImage
  rw [h.imgW, h.imgH, h.imgFmt, h.cfg]

/-- `CONVERT` (R144). -/
theorem execConvert_answered {s t : State} (h : execConvert s = .next t) : s.busy = false ∧ Answered .convert s t := by
  obtain ⟨hb, h⟩ := accept_andThen_next h
  refine ⟨hb, ?_⟩
  rcases h with h | ⟨s1, h1, _, hst, hrq, h⟩
  · exact .inl h
  have hv : validImage s1 = validImage s := h1.validImage_eq
  split at h
  · next hn =>
    cases h
    exact .of_finish h1 (.turnedAway (st := .invalidImage) (And.intro (.inl rfl) (hv ▸ hn)) hst hrq) rfl
  · split at h
    · next s2 hc =>
      cases h
      obtain ⟨bytes, hb, rfl⟩ := convertImage_ok.1 hc
      exact .of_bitmap h1 (.inl rfl) (by simpa [bmpBytes] using collect_length hb)
    · cases h

/-- `UNPACK` (R146). -/
theorem execUnpack_answered {s t : State} (h : execUnpack s = .next t) : s.busy = false ∧ Answered .unpack s t := by
  obtain ⟨hb, h⟩ := accept_andThen_next h
  refine ⟨hb, ?_⟩
  rcases h with h | ⟨s1, h1, _, hst, hrq, h⟩
  · exact .inl h
  have hp : s1.payloadLen = s.payloadLen := h1.payloadLen
  split at h
  · split at h
    · next s2 hc =>
      cases h
      obtain ⟨bytes, hb, rfl⟩ := unpackPayload_ok.1 hc
      exact .of_bitmap h1 (.inr rfl) (memRead_ok.1 hb).1
    · cases h
  · next hn =>
    cases h
    refine .of_finish h1 (.turnedAway (st := .invalidPayloadSize) (And.intro (.inl rfl) ?_) hst hrq) rfl
    rw [← hp]
    exact fun he => hn (decide_eq_true he)

/-- `UPLOAD_IMAGE` (R218). -/
theorem execUploadImage_answered {s t : State} (h : execUploadImage s = .next t) :
    s.busy = false ∧ Answered .uploadImage s t := by
  obtain ⟨hb, h⟩ := accept_andThen_next h
  refine ⟨hb, ?_⟩
  rcases h with h | ⟨s1, h1, _, hst, hrq, h⟩
  · exact .inl h
  have hses : s1.session = s.session := h1.session
  have hv : validImage s1 = validImage s := h1.validImage_eq
  rcases checked_next h with ⟨hs, ht⟩ | ⟨hs, hal, ht⟩ | ⟨hs, hal, h⟩
  · exact .of_finish h1 (.turnedAway (st := .notConnected) (Or.inl ⟨rfl, hses ▸ hs⟩) hst hrq) ht
  · rw [hses] at hs hal
    refine .of_finish h1 (.turnedAway (st := .invalidState) (Or.inl ⟨rfl, hs, ?_⟩) hst hrq) ht
    simpa [tableAllows] using hal
  · have hi : s.session = .idle := by rw [← hses]; simpa using hal
    split at h
    · next hn =>
      cases h
      exact .of_finish h1 (.turnedAway (st := .invalidImage) (And.intro (.inr ⟨rfl, hi⟩) (hv ▸ hn)) hst hrq) rfl
    · split at h
      · next s3 hc =>
        obtain ⟨bytes, hb, rfl⟩ := convertImage_ok.1 hc
        exact uploadBitmap_answered (.inl rfl) h1 hi (by simpa [bmpBytes] using collect_length hb) h
      · cases h

/-- `UPLOAD_RAW` (R219). -/
theorem execUploadRaw_answered {s t : State} (h : execUploadRaw s = .next t) :
    s.busy = false ∧ Answered .uploadRaw s t := by
  obtain ⟨hb, h⟩ := accept_andThen_next h
  refine ⟨hb, ?_⟩
  rcases h with h | ⟨s1, h1, _, hst, hrq, h⟩
  · exact .inl h
  have hses : s1.session = s.session := h1.session
  have hp : s1.payloadLen = s.payloadLen := h1.payloadLen
  rcases checked_next h with ⟨hs, ht⟩ | ⟨hs, hal, ht⟩ | ⟨hs, hal, h⟩
  · exact .of_finish h1 (.turnedAway (st := .notConnected) (Or.inl ⟨rfl, hses ▸ hs⟩) hst hrq) ht
  · rw [hses] at hs hal
    refine .of_finish h1 (.turnedAway (st := .invalidState) (Or.inl ⟨rfl, hs, ?_⟩) hst hrq) ht
    simpa [tableAllows] using hal
  · have hi : s.session = .idle := by rw [← hses]; simpa using hal
    split at h
    · split at h
      · next s3 hc =>
        obtain ⟨bytes, hb, rfl⟩ := unpackPayload_ok.1 hc
        exact uploadBitmap_answered (.inr rfl) h1 hi (memRead_ok.1 hb).1 h
      · cases h
    · next hn =>
      cases h
      refine .of_finish h1 (.turnedAway (st := .invalidPayloadSize) (And.intro (.inr ⟨rfl, hi⟩) ?_) hst hrq) rfl
      rw [← hp]
      exact fun he => hn (decide_eq_true he)

/-- A word that is no operation (R73). -/
theorem execReserved_answered {op arg : Byte} {s t : State} (h : execReserved op arg s = .next t) :
    s.busy = false ∧ Answered (.reserved op arg) s t := by
  obtain ⟨hb, h⟩ := accept_andThen_next h
  refine ⟨hb, ?_⟩
  rcases h with h | ⟨s1, h1, _, hst, hrq, h⟩
  · exact .inl h
  cases h
  exact .of_finish h1 (.turnedAway (st := .invalidOperation) (Exists.intro op ⟨arg, rfl⟩) hst hrq) rfl

/-- Every next state an operation answers: it was accepted with `BUSY = 0`, and either a scheduled block reset landed
inside or it ended as `Ends` says. -/
theorem exec_answered {i : Instr} {s t : State} (h : exec i s = .next t) : s.busy = false ∧ Answered i s t := by
  have motion : ∀ {j : Instr} {c : Command}, sendCommand c inIdleOrReady unchanged unchanged s = .next t →
      tableAllows j = [.idle, .ready] → needsTransport j = true → (∀ x, onSuccess j x = x) →
      (∀ x, onError j x = x) → j ≠ .close → FailsWith j .transmissionFailed →
      (encodeCommand s.cfg.params c).length = payloadLength s.cfg.params j → s.busy = false ∧ Answered j s t := by
    intro j c h ht hn hs he hc hf hp
    refine sendCommand_answered h hn hc hf ?_ ?_ (fun x => (hs x).symm) (fun x _ => (he x).symm) hp <;> rw [ht] <;>
      intro x <;> cases x <;> simp [inIdleOrReady]
  cases i with
  | openPort => exact execOpen_answered h
  | close => exact execClose_answered h
  | home => exact motion h rfl rfl (fun _ => rfl) (fun x => by cases x <;> rfl) (by simp) (by simp [FailsWith]) rfl
  | center => exact motion h rfl rfl (fun _ => rfl) (fun x => by cases x <;> rfl) (by simp) (by simp [FailsWith]) rfl
  | preview => exact motion h rfl rfl (fun _ => rfl) (fun x => by cases x <;> rfl) (by simp) (by simp [FailsWith]) rfl
  | moveUp => exact motion h rfl rfl (fun _ => rfl) (fun x => by cases x <;> rfl) (by simp) (by simp [FailsWith]) rfl
  | moveDown => exact motion h rfl rfl (fun _ => rfl) (fun x => by cases x <;> rfl) (by simp) (by simp [FailsWith]) rfl
  | moveLeft => exact motion h rfl rfl (fun _ => rfl) (fun x => by cases x <;> rfl) (by simp) (by simp [FailsWith]) rfl
  | moveRight => exact motion h rfl rfl (fun _ => rfl) (fun x => by cases x <;> rfl) (by simp) (by simp [FailsWith]) rfl
  | pause =>
    have h : execPause s = .next t := h
    refine sendCommand_answered h rfl (by simp) (by simp [FailsWith]) ?_ ?_ (fun _ => rfl)
      (fun x _ => by cases x <;> rfl) rfl <;>
      intro x <;> cases x <;> simp [tableAllows]
  | reset =>
    have h : execReset s = .next t := h
    refine sendCommand_answered h rfl (by simp) (by simp [FailsWith]) ?_ ?_ (fun _ => rfl)
      (fun x hx => by cases x <;> first | rfl | exact absurd rfl hx) rfl <;>
      intro x <;> cases x <;> simp [tableAllows, inAnySession]
  | start v =>
    have h : execStart v s = .next t := h
    refine sendCommand_answered h rfl (by simp) (by simp [FailsWith]) ?_ ?_ (fun _ => rfl)
      (fun x _ => by cases x <;> rfl) (start_length _ v) <;>
      intro x <;> cases x <;> simp [tableAllows]
  | erase =>
    have h : execErase s = .next t := h
    refine sendCommand_answered h rfl (by simp) (by simp [FailsWith]) ?_ ?_ (fun _ => rfl)
      (fun x _ => by cases x <;> rfl) rfl <;>
      intro x <;> cases x <;> simp [tableAllows]
  | eraseSettled => exact execEraseSettled_answered h
  | uploadImage => exact execUploadImage_answered h
  | uploadRaw => exact execUploadRaw_answered h
  | awaitDrain => exact execAwaitDrain_answered h
  | convert => exact execConvert_answered h
  | unpack => exact execUnpack_answered h
  | reserved op arg => exact execReserved_answered h

end Sys2Proof.Machine
end

