-- ==== Sys2Proof/Laws/PerInstr.lean ====
section
/-! SUPPORT. Statements made one instruction at a time: the word of every well-formed instruction fits its row of the
opcode table, and no other row (R72, R73). -/

namespace Sys2Proof.Laws

open Sys2Proof

/-- A row of the opcode table: its mnemonic, and the word fits it if the bits of `mask` are `pattern`. -/
structure TableRow where
  mnemonic : String
  pattern : HopWord
  mask : HopWord
  deriving DecidableEq, Repr

/-- Whether a word fits a row. -/
def TableRow.fits (r : TableRow) (w : HopWord) : Bool := w &&& r.mask == r.pattern

/-- The rows of the opcode table with a pattern: all but "(reserved)", which is the rest. -/
def tableRows : List TableRow :=
  [⟨"OPEN", 0x0100, 0xFFFF⟩, ⟨"CLOSE", 0x0200, 0xFFFF⟩, ⟨"HOME", 0x1000, 0xFFFF⟩, ⟨"CENTER", 0x1100, 0xFFFF⟩,
    ⟨"PREVIEW", 0x1200, 0xFFFF⟩, ⟨"MOVE_UP", 0x1300, 0xFFFF⟩, ⟨"MOVE_DOWN", 0x1400, 0xFFFF⟩,
    ⟨"MOVE_LEFT", 0x1500, 0xFFFF⟩, ⟨"MOVE_RIGHT", 0x1600, 0xFFFF⟩, ⟨"PAUSE", 0x2000, 0xFFFF⟩] ++
  [⟨"RESET", 0x2100, 0xFFFF⟩, ⟨"START", 0x2200, 0xFF00⟩, ⟨"ERASE", 0x3000, 0xFFFF⟩, ⟨"ERASE_SETTLED", 0x3100, 0xFFFF⟩,
    ⟨"UPLOAD_IMAGE", 0x4000, 0xFFFF⟩, ⟨"UPLOAD_RAW", 0x4100, 0xFFFF⟩, ⟨"AWAIT_DRAIN", 0x5000, 0xFFFF⟩,
    ⟨"CONVERT", 0x6000, 0xFFFF⟩, ⟨"UNPACK", 0x6100, 0xFFFF⟩]

/-- The mnemonics of the rows a word fits. -/
def rowsOf (w : HopWord) : List String := (tableRows.filter fun r => r.fits w).map (·.mnemonic)

/-- The mnemonic of an instruction's row, none for "(reserved)". -/
def rowName : Instr → Option String
  | .openPort => some "OPEN"
  | .close => some "CLOSE"
  | .home => some "HOME"
  | .center => some "CENTER"
  | .preview => some "PREVIEW"
  | .moveUp => some "MOVE_UP"
  | .moveDown => some "MOVE_DOWN"
  | .moveLeft => some "MOVE_LEFT"
  | .moveRight => some "MOVE_RIGHT"
  | .pause => some "PAUSE"
  | .reset => some "RESET"
  | .start _ => some "START"
  | .erase => some "ERASE"
  | .eraseSettled => some "ERASE_SETTLED"
  | .uploadImage => some "UPLOAD_IMAGE"
  | .uploadRaw => some "UPLOAD_RAW"
  | .awaitDrain => some "AWAIT_DRAIN"
  | .convert => some "CONVERT"
  | .unpack => some "UNPACK"
  | .reserved _ _ => none

/-- The word of a well-formed instruction fits its own row of the table and no other; a reserved word fits none. -/
def EncodingShape.Statement (i : Instr) : Prop := i.wf = true → rowsOf (encode i) = (rowName i).toList

theorem EncodingShape.openPort : EncodingShape.Statement .openPort := by unfold EncodingShape.Statement; decide
theorem EncodingShape.close : EncodingShape.Statement .close := by unfold EncodingShape.Statement; decide
theorem EncodingShape.home : EncodingShape.Statement .home := by unfold EncodingShape.Statement; decide
theorem EncodingShape.center : EncodingShape.Statement .center := by unfold EncodingShape.Statement; decide
theorem EncodingShape.preview : EncodingShape.Statement .preview := by unfold EncodingShape.Statement; decide
theorem EncodingShape.moveUp : EncodingShape.Statement .moveUp := by unfold EncodingShape.Statement; decide
theorem EncodingShape.moveDown : EncodingShape.Statement .moveDown := by unfold EncodingShape.Statement; decide
theorem EncodingShape.moveLeft : EncodingShape.Statement .moveLeft := by unfold EncodingShape.Statement; decide
theorem EncodingShape.moveRight : EncodingShape.Statement .moveRight := by unfold EncodingShape.Statement; decide
theorem EncodingShape.pause : EncodingShape.Statement .pause := by unfold EncodingShape.Statement; decide
theorem EncodingShape.reset : EncodingShape.Statement .reset := by unfold EncodingShape.Statement; decide
theorem EncodingShape.erase : EncodingShape.Statement .erase := by unfold EncodingShape.Statement; decide
theorem EncodingShape.eraseSettled : EncodingShape.Statement .eraseSettled := by unfold EncodingShape.Statement; decide
theorem EncodingShape.uploadImage : EncodingShape.Statement .uploadImage := by unfold EncodingShape.Statement; decide
theorem EncodingShape.uploadRaw : EncodingShape.Statement .uploadRaw := by unfold EncodingShape.Statement; decide
theorem EncodingShape.awaitDrain : EncodingShape.Statement .awaitDrain := by unfold EncodingShape.Statement; decide
theorem EncodingShape.convert : EncodingShape.Statement .convert := by unfold EncodingShape.Statement; decide
theorem EncodingShape.unpack : EncodingShape.Statement .unpack := by unfold EncodingShape.Statement; decide

/-- Field OP of a word made of two fields (R70). -/
theorem opField_hopWord (op arg : Byte) : opField (hopWord op arg) = op := by
  ext i hi
  simp only [opField, BitVec.getElem_extractLsb']
  refine (BitVec.getLsbD_append (x := op) (y := arg) (i := 8 + i)).trans ?_
  simp [hi]

/-- Field ARG of a word made of two fields (R70). -/
theorem argField_hopWord (op arg : Byte) : argField (hopWord op arg) = arg := by
  ext i hi
  simp only [argField, BitVec.getElem_extractLsb', Nat.zero_add]
  refine (BitVec.getLsbD_append (x := op) (y := arg) (i := i)).trans ?_
  simp [hi]

theorem EncodingShape.start (v : Byte) : EncodingShape.Statement (.start v) := by
  unfold EncodingShape.Statement
  revert v
  decide +kernel

/-- A word that fits a row whose whole word is fixed is that word. -/
theorem eq_of_fits {name : String} {p w : HopWord} (h : TableRow.fits ⟨name, p, 0xFFFF⟩ w = true) : w = p := by
  have e : w &&& 0xFFFF = w := BitVec.and_allOnes
  rw [TableRow.fits, e, beq_iff_eq] at h
  exact h

/-- A word that fits the row of `START` has its OP. -/
theorem op_of_fits_start {w : HopWord} (h : TableRow.fits ⟨"START", 0x2200, 0xFF00⟩ w = true) : opField w = 0x22 := by
  rw [TableRow.fits, beq_iff_eq] at h
  have e : opField (w &&& 0xFF00) = opField w := by
    ext i hi
    simp only [opField, BitVec.getElem_extractLsb', BitVec.getLsbD_and]
    have : ∀ k : Fin 8, (0xFF00 : HopWord).getLsbD (8 + k) = true := by decide
    rw [this ⟨i, hi⟩, Bool.and_true]
  rw [← e, h]
  decide

theorem EncodingShape.reserved (op arg : Byte) : EncodingShape.Statement (.reserved op arg) := by
  intro hw
  change isReserved op arg = true at hw
  change (tableRows.filter fun r => r.fits (hopWord op arg)).map (·.mnemonic) = []
  rw [List.map_eq_nil_iff, List.filter_eq_nil_iff]
  intro r hr hfit
  have whole : ∀ (name : String) (p : HopWord), r = ⟨name, p, 0xFFFF⟩ → isReserved (opField p) (argField p) = false →
      False := fun name p hp hn => by
    subst hp
    have e := eq_of_fits hfit
    rw [← e, opField_hopWord, argField_hopWord, hw] at hn
    cases hn
  simp only [tableRows, List.cons_append, List.nil_append, List.mem_cons, List.not_mem_nil, or_false] at hr
  rcases hr with h | h | h | h | h | h | h | h | h | h | h | h | h | h | h | h | h | h | h
  case inr.inr.inr.inr.inr.inr.inr.inr.inr.inr.inr.inl =>
    subst h
    have e := op_of_fits_start hfit
    rw [opField_hopWord] at e
    subst e
    cases hw
  all_goals exact whole _ _ h (by decide)

end Sys2Proof.Laws
end

