-- ==== Sys2Proof/Tests/Slice0.lean ====
section
/-! SUPPORT. The model's own tests: the ill-formed terms, words written out from R72, small steps under the spec's test
instance TI (95_test_vectors.md), and a witness for the hypotheses of every statement that has some. Expected results
are the spec's vectors, named in each comment. -/

namespace Sys2Proof.Tests

open Sys2Proof Sys2Proof.Machine Sys2Proof.Safety

/-! ### Well-formedness -/

/-- A reserved word that names an operation without operand is ill-formed. -/
theorem test_wf_refuses_defined_op : (Instr.reserved 0x10 0x00).wf = false := by decide

/-- A reserved word that names START is ill-formed, whatever its ARG. -/
theorem test_wf_refuses_start : (Instr.reserved 0x22 0x05).wf = false := by decide

/-- Every other term of the row is well-formed, and so is every operation. -/
theorem test_wf_admits : (Instr.reserved 0x10 0x01).wf = true ∧ (Instr.reserved 0x62 0x00).wf = true ∧
    (Instr.start 0xFF).wf = true := by decide

/-! ### Decoding: every row's word, bit by bit from R70 and R72 -/

theorem test_decode_connection : decode 0b0000000100000000 = .openPort ∧ decode 0b0000001000000000 = .close := by decide

theorem test_decode_motion :
    decode 0b0001000000000000 = .home ∧ decode 0b0001000100000000 = .center ∧ decode 0b0001001000000000 = .preview ∧
      decode 0b0001001100000000 = .moveUp ∧ decode 0b0001010000000000 = .moveDown ∧
      decode 0b0001010100000000 = .moveLeft ∧ decode 0b0001011000000000 = .moveRight := by decide

theorem test_decode_engraving :
    decode 0b0010000000000000 = .pause ∧ decode 0b0010000100000000 = .reset ∧
      decode 0b0010001001000000 = .start 0b01000000 := by decide

theorem test_decode_erase : decode 0b0011000000000000 = .erase ∧ decode 0b0011000100000000 = .eraseSettled := by decide

theorem test_decode_images :
    decode 0b0100000000000000 = .uploadImage ∧ decode 0b0100000100000000 = .uploadRaw ∧
      decode 0b0101000000000000 = .awaitDrain ∧ decode 0b0110000000000000 = .convert ∧
      decode 0b0110000100000000 = .unpack := by decide

/-- V-DE-01, V-DE-02, V-DE-03, V-DE-10. -/
theorem test_decode_reserved :
    decode 0x0000 = .reserved 0x00 0x00 ∧ decode 0xFF00 = .reserved 0xFF 0x00 ∧ decode 0x1001 = .reserved 0x10 0x01 ∧
      decode 0x6101 = .reserved 0x61 0x01 := by decide

/-- A string of more than 16 bits, and a number that does not fit its bits, are refused by name. -/
theorem test_decode_refuses :
    decodeBits 17 0 = .error (.longerThanOneWord 17) ∧ decodeBits 8 0x1000 = .error (.notThatManyBits 8 0x1000) ∧
      decodeTableWord 17 0 = none ∧ decodeTableWord 16 0x2240 = some (.start 0x40) := by decide

/-! ### The test instance -/

/-- The parameters of TI (95_test_vectors.md section 1), with a given chunk size. -/
def tiParams (chunkSize : Nat) : Params where
  chunkSize := chunkSize
  drainTimeout := .ms 1000
  imgCap := 786432
  frameHome := [0xF3]
  frameCenter := [0xFB]
  framePreview := [0xF4]
  frameUp := [0xF5]
  frameDown := [0xF6]
  frameLeft := [0xF7]
  frameRight := [0xF8]
  framePause := [0xF2]
  frameReset := [0xF9]
  frameErase := [0xFE, 0xFE, 0xFE, 0xFE, 0xFE, 0xFE, 0xFE, 0xFE]
  frameStart := [0xF1]
  btPrefix := []
  btSuffix := []
  portId := 0

/-- TI, with `CHUNK_SIZE = 64`. -/
def ti : Config := { params := tiParams 64, legal := by decide }

/-- TI with `CHUNK_SIZE = 1`. -/
def tiNarrow : Config := { params := tiParams 1, legal := by decide }

/-- TI with `CHUNK_SIZE = 32768`: the bitmap is one chunk. -/
def tiWide : Config := { params := tiParams 32768, legal := by decide }

/-- TI2: TI with other start and burn-time frames (95_test_vectors.md section 3.1). -/
def ti2Params : Params :=
  { tiParams 64 with btPrefix := [0xAA, 0x01], btSuffix := [0x55], frameStart := [0x02, 0x03] }

/-- An answer `Ok` that acknowledges whatever it is asked. -/
def good : Answer := ⟨true, 32768⟩

/-- An answer `Err` or `TimedOut`, with the given drawn prefix. -/
def bad (j : Nat) : Answer := ⟨false, j⟩

/-- A state of an instance in a session state, with the transport's coming answers, and nothing landing in a gap. -/
def inSession (cfg : Config) (x : Session) (answers : List Answer) : State :=
  { State.reset with cfg := cfg, session := x, answers := answers, gaps := List.replicate 20 [] }

/-- The same with the good transport. -/
def ready (x : Session) : State := inSession ti x (List.replicate 20 good)

/-- What the vectors of 95_test_vectors.md show of a step: STATUS, COUNT, STATE and the stream. -/
def shown (r : Result) : Option (Nat × Nat × Nat × List Byte) :=
  match r with
  | .next s => some ((statusCode s.status).toNat, s.count.toNat, (stateView s).toNat, s.stream)
  | .fault _ => none
  | .refused _ => none

/-! ### Frames -/

/-- V-EN-18, V-EN-19: the burn time stands behind the prefix. -/
theorem test_start_frame :
    encodeCommand ti2Params (.start 0x07) = [0xAA, 0x01, 0x07, 0x55, 0x02, 0x03] ∧
      encodeCommand ti2Params (.start 0x01) = [0xAA, 0x01, 0x01, 0x55, 0x02, 0x03] ∧
      encodeCommand ti2Params (.setBurnTime 0x07) = [0xAA, 0x01, 0x07, 0x55] := by decide

/-! ### Steps of the session sequencer -/

/-- V-SS-01 and V-SS-02. -/
theorem test_open :
    shown (exec .openPort (ready .disconnected)) = some (0, 0, 0x01, []) ∧
      shown (exec .openPort (inSession ti .disconnected [bad 0])) = some (1, 0, 0x00, []) := by decide

/-- V-SS-04 and V-SS-43. -/
theorem test_open_rejected :
    shown (exec .openPort (ready .idle)) = some (7, 0, 0x01, []) ∧
      shown (exec .openPort { ready .disconnected with spent := true }) = some (2, 0, 0x08, []) := by decide

/-- V-SS-42. -/
theorem test_close : shown (exec .close (ready .engraving)) = some (0, 0, 0x08, []) := by decide

/-- V-SS-07, V-SS-05. -/
theorem test_home :
    shown (exec .home (ready .idle)) = some (0, 1, 0x01, [0xF3]) ∧
      shown (exec .home (ready .disconnected)) = some (2, 0, 0x00, []) := by decide

/-- V-SS-16, with a drawn prefix of 1 byte. -/
theorem test_home_error : shown (exec .home (inSession ti .idle [bad 1])) = some (5, 0, 0x01, [0xF3]) := by decide

/-- V-SS-08. -/
theorem test_center : shown (exec .center (ready .ready)) = some (0, 1, 0x04, [0xFB]) := by decide

/-- V-SS-09. -/
theorem test_preview : shown (exec .preview (ready .idle)) = some (0, 1, 0x01, [0xF4]) := by decide

/-- V-SS-10. -/
theorem test_move_up : shown (exec .moveUp (ready .ready)) = some (0, 1, 0x04, [0xF5]) := by decide

/-- V-SS-11. -/
theorem test_move_down : shown (exec .moveDown (ready .idle)) = some (0, 1, 0x01, [0xF6]) := by decide

/-- V-SS-12, V-SS-14. -/
theorem test_move_left :
    shown (exec .moveLeft (ready .idle)) = some (0, 1, 0x01, [0xF7]) ∧
      shown (exec .moveLeft (ready .engraving)) = some (7, 0, 0x05, []) := by decide

/-- V-SS-13. -/
theorem test_move_right : shown (exec .moveRight (ready .idle)) = some (0, 1, 0x01, [0xF8]) := by decide

/-- V-SS-17, V-SS-18. -/
theorem test_pause :
    shown (exec .pause (ready .engraving)) = some (0, 1, 0x06, [0xF2]) ∧
      shown (exec .pause (ready .paused)) = some (7, 0, 0x06, []) := by decide

/-- V-SS-20. -/
theorem test_pause_error : shown (exec .pause (inSession ti .engraving [bad 0])) = some (5, 0, 0x05, []) := by decide

/-- V-SS-21. -/
theorem test_reset : shown (exec .reset (ready .paused)) = some (0, 1, 0x01, [0xF9]) := by decide

/-- V-SS-22: Idle although the send failed. -/
theorem test_reset_error : shown (exec .reset (inSession ti .erasing [bad 0])) = some (5, 0, 0x01, []) := by decide

/-- V-SS-23, V-SS-25. -/
theorem test_start :
    shown (exec (.start 0x40) (ready .ready)) = some (0, 2, 0x05, [0x40, 0xF1]) ∧
      shown (exec (.start 0x40) (ready .engraving)) = some (7, 0, 0x05, []) := by decide

/-- V-SS-27: with chunks of one byte, the second write fails. -/
theorem test_start_error :
    shown (exec (.start 0x40) (inSession tiNarrow .ready [good, good, bad 1])) = some (5, 1, 0x04, [0x40, 0xF1]) := by
  decide

/-- V-SS-28, V-SS-29. -/
theorem test_erase :
    shown (exec .erase (ready .idle)) = some (0, 8, 0x02, [0xFE, 0xFE, 0xFE, 0xFE, 0xFE, 0xFE, 0xFE, 0xFE]) ∧
      shown (exec .erase (ready .ready)) = some (7, 0, 0x04, []) := by decide

/-- V-SS-30, V-SS-31. -/
theorem test_erase_settled :
    shown (exec .eraseSettled (ready .erasing)) = some (0, 0, 0x01, []) ∧
      shown (exec .eraseSettled (ready .idle)) = some (7, 0, 0x01, []) := by decide

/-- V-SS-44, V-SS-45. -/
theorem test_await_drain :
    shown (exec .awaitDrain (ready .idle)) = some (0, 0, 0x01, []) ∧
      shown (exec .awaitDrain (inSession ti .erasing [bad 0])) = some (6, 0, 0x02, []) := by decide

/-- V-SS-34, V-SS-35, V-DE-06: the order of the checks. -/
theorem test_upload_image_checks :
    shown (exec .uploadImage (ready .idle)) = some (3, 0, 0x01, []) ∧
      shown (exec .uploadImage (ready .erasing)) = some (7, 0, 0x02, []) ∧
      shown (exec .uploadImage (ready .disconnected)) = some (2, 0, 0x00, []) := by decide

/-- V-SS-36, V-DE-07. -/
theorem test_upload_raw_checks :
    shown (exec .uploadRaw { ready .idle with payloadLen := 100 }) = some (4, 0, 0x01, []) ∧
      shown (exec .uploadRaw (ready .erasing)) = some (7, 0, 0x02, []) := by decide

/-- V-DE-09, V-IC-20. -/
theorem test_convert_checks :
    shown (exec .convert { ready .ready with imgW := 1, imgH := 1, imgFmt := 9 }) = some (3, 0, 0x04, []) ∧
      shown (exec .convert { ready .disconnected with imgH := 512 }) = some (3, 0, 0x00, []) := by decide

/-- V-SS-46, V-IC-27. -/
theorem test_unpack_checks :
    shown (exec .unpack { ready .ready with payloadLen := 5 }) = some (4, 0, 0x04, []) ∧
      shown (exec .unpack { ready .ready with payloadLen := 32769 }) = some (4, 0, 0x04, []) := by decide

/-- V-DE-03, V-DE-04. -/
theorem test_reserved :
    shown (exec (.reserved 0x10 0x01) (ready .idle)) = some (8, 0, 0x01, []) ∧
      shown (exec (.reserved 0x10 0x01) (ready .disconnected)) = some (8, 0, 0x00, []) := by decide

/-- The requests a send made, in the vectors' notation: the length of a write, or 0 for a drain. -/
def trace (r : Run SendResult) : Option (SendResult × List Nat) :=
  match r with
  | .go a s => some (a, s.requests.map fun q => match q with | .write b => b.length | .drain _ => 0 | .close => 0 | .openPort _ => 0)
  | .stop _ => none

/-- V-TX-03 with chunks of 3 bytes. -/
theorem test_chunked_send :
    trace (send [0xFE, 0xFE, 0xFE, 0xFE, 0xFE, 0xFE, 0xFE, 0xFE]
      (inSession { params := tiParams 3, legal := by decide } .idle (List.replicate 20 good))) =
      some (.done 8, [3, 0, 3, 0, 2, 0]) := by decide

/-- V-TX-05 in small: the second write is answered `Ok(1)` of 3 bytes. -/
theorem test_short_write :
    trace (send [1, 2, 3, 4, 5, 6, 7]
      (inSession { params := tiParams 3, legal := by decide } .idle [good, good, ⟨true, 1⟩])) =
      some (.failed 4, [3, 0, 3]) := by decide

/-- V-TX-06 in small: the first drain times out. -/
theorem test_drain_timeout :
    trace (send [1, 2, 3, 4]
      (inSession { params := tiParams 3, legal := by decide } .idle [good, bad 0])) = some (.failed 3, [3, 0]) := by decide

/-- V-TX-07 in small: *lost* after the first drain's answer; P4's kind of loss. -/
theorem test_loss_in_send :
    trace (send [1, 2, 3, 4]
      { inSession { params := tiParams 3, legal := by decide } .idle [good, good] with
        busy := true, gaps := [[], [.lost]] }) = some (.failed 3, [3, 0]) := by decide

/-- V-SS-41: the loss at rest. -/
theorem test_loss_at_rest : shown (applyInput .lost (ready .ready)) = some (0, 0, 0x28, []) := by decide

/-- The host sees Uploading and BUSY inside an operation, and may not write then (R28, R200). -/
theorem test_busy_view :
    (stateView { ready .uploading with busy := true }).toNat = 0x13 ∧
      applyInput (.regWrite 4 1) { ready .uploading with busy := true } = .refused .accessWhileBusy := ⟨by decide, rfl⟩

/-! ### Image converter -/

/-- The scale indices of 95_test_vectors.md for W = 3, 511, 1000, 2048 and 65535. -/
theorem test_scale_index :
    sampleIndex 3 170 = 0 ∧ sampleIndex 3 171 = 1 ∧ sampleIndex 3 341 = 2 ∧ sampleIndex 511 256 = 255 ∧
      sampleIndex 1000 510 = 997 ∧ sampleIndex 2048 255 = 1022 ∧ sampleIndex 65535 256 = 32831 := by decide

/-- The luminance vectors of 95_test_vectors.md. -/
theorem test_luminance :
    luminance (.rgb 127 128 129) = 128 ∧ luminance (.rgb 200 100 50) = 124 ∧ luminance (.rgb 0 204 68) = 128 ∧
      luminance (.rgb 255 51 187) = 128 ∧ luminance (.rgb 0 0 255) = 29 := by decide

/-- V-IC-16, the bytes 20, 21, 41, 42 of a row: a dark middle column, mirrored. -/
theorem test_packed_bytes :
    let s := { ready .idle with imgW := 3, imgH := 1, img := [(0, 0xFF), (1, 0x00), (2, 0xFF)] }
    packedByte s .gray8 20 = .ok 0x00 ∧ packedByte s .gray8 21 = .ok 0x1F ∧ packedByte s .gray8 41 = .ok 0xFF ∧
      packedByte s .gray8 42 = .ok 0xF8 := by decide

/-- V-IC-14: the stage-order tie pixel is light; V-IC-12: the other bit order. -/
theorem test_packed_byte_corners :
    packedByte { ready .idle with imgW := 1, imgH := 1, imgFmt := 1, img := [(0, 0), (1, 204), (2, 68)] } .rgb888 7 =
        .ok 0x00 ∧
      packBits .msbFirst [false, false, false, false, false, false, false, true] = 0x01 ∧
      packBits .lsbFirst [false, false, false, false, false, false, false, true] = 0x80 := by decide

/-- V-IC-24 for one byte: an unwritten sampled pixel is a fault. -/
theorem test_unwritten_pixel :
    packedByte { ready .idle with imgW := 512, imgH := 512 } .gray8 0 = .error (.unwrittenRead .img 511) := by decide

/-! ### Memory port and programs -/

/-- A byte written to a buffer is listed in order, and a second write replaces it. -/
theorem test_write_keeps_order :
    Memory.writeBytes [(1, 0x11), (5, 0x55)] 5 [0x66] = [(1, 0x11), (5, 0x66)] ∧
      Memory.writeBytes [(1, 0x11), (5, 0x55)] 3 [0x33] = [(1, 0x11), (3, 0x33), (5, 0x55)] := by decide

/-- R74's own examples, and the directives. -/
theorem test_parse :
    parseLine "  START 0x40  ; burn" = .item (.op (.start 0x40)) ∧ parseLine "HOME" = .item (.op .home) ∧
      parseLine "WR IMG_W, 512" = .item (.wr 4 512) ∧ parseLine "POKE IMG, 3, 0xFF" = .item (.poke .img 3 0xFF) ∧
      parseLine "START 256" = .malformed ∧ parseLine "; nothing" = .blank := by decide +kernel

/-- `FILL` is n `POKE`s, and `START 0x40` the word 0x2240 (R74). -/
theorem test_program_inputs :
    itemInputs (.fill .payload 2 3 0xA5) =
        [.memWrite .payload 2 0xA5, .memWrite .payload 3 0xA5, .memWrite .payload 4 0xA5] ∧
      itemInputs (.op (.start 0x40)) = [.regWrite 0 0x2240] := by decide

/-! ### Witnesses: states and operands that meet the hypotheses of the statements -/

/-- A state with a 1 × 1 gray image, as in V-IC-05. -/
def tiny (cfg : Config) (x : Session) (answers : List Answer) (b : Byte) : State :=
  { inSession cfg x answers with imgW := 1, imgH := 1, img := [(0, b)] }

/-- A state with a whole payload of one byte, repeated, as in V-IC-26. -/
def filled (cfg : Config) (x : Session) (answers : List Answer) (b : Byte) : State :=
  { inSession cfg x answers with payloadLen := 32768, payload := cellsFrom 0 (List.replicate 32768 b) }

/-- A 1 × 1 image is sampled at its one pixel (R133). -/
theorem tiny_scaled (cfg : Config) (x : Session) (answers : List Answer) (b : Byte) {i j : Nat} (hi : i < 512)
    (hj : j < 512) : scaled (tiny cfg x answers b) .gray8 i j = .ok (.gray b) := by
  have h1 : sampleIndex 1 i = 0 := by unfold sampleIndex; omega
  have h2 : sampleIndex 1 j = 0 := by unfold sampleIndex; omega
  change readPixel (tiny cfg x answers b) .gray8 (sampleIndex 1 i) (sampleIndex 1 j) = _
  rw [h1, h2]
  rfl

/-- A 1 × 1 image converts. -/
theorem tiny_converts (cfg : Config) (x : Session) (answers : List Answer) (b : Byte) :
    ∃ bytes, bytes.length = 32768 ∧
      convertImage (tiny cfg x answers b) .gray8 = .ok (memWrite (tiny cfg x answers b) .bmp 0 bytes) := by
  obtain ⟨bytes, hb⟩ := collect_isOk (packedByte (tiny cfg x answers b) .gray8) (List.range bmpBytes) fun a ha =>
    packedByte_isOk (by simpa [bmpBytes] using ha) fun i j hi hj =>
      ⟨_, by rw [inverted_eq, tiny_scaled cfg x answers b (by omega) hj]⟩
  exact ⟨bytes, by simpa [bmpBytes] using collect_length hb, convertImage_ok.2 ⟨bytes, hb, rfl⟩⟩

/-- The payload's bytes, as they are read. -/
theorem filled_reads (cfg : Config) (x : Session) (answers : List Answer) (b : Byte) {a : Nat} (ha : a < 32768) :
    (filled cfg x answers b).payload.readByte a = some b := by
  change Memory.readByte (cellsFrom 0 (List.replicate 32768 b)) a = _
  rw [readByte_cellsFrom, if_pos (Nat.zero_le a), List.getElem?_replicate, if_pos (by omega)]

/-- The whole payload unpacks. -/
theorem filled_unpacks (cfg : Config) (x : Session) (answers : List Answer) (b : Byte) :
    unpackPayload (filled cfg x answers b) =
      .ok (memWrite (filled cfg x answers b) .bmp 0 (List.replicate 32768 b)) := by
  refine unpackPayload_ok.2 ⟨_, memRead_ok.2 ⟨List.length_replicate, fun i hi => ?_⟩, rfl⟩
  change (filled cfg x answers b).payload.readByte (0 + i) = _
  rw [Nat.zero_add, filled_reads cfg x answers b hi, List.getElem?_replicate, if_pos hi]

/-- For `DecodeOfEncode`, `ReservedWordsRaiseInvalidOperation` and `StepRunsTheNextInput`: a well-formed instruction,
and a settled state with a quiet gap. -/
theorem witness_reserved : (Instr.reserved 0x10 0x01).wf = true ∧ Settled (ready .idle) ∧ QuietGaps (ready .idle) 1 := by
  decide

/-- For `InvalidImageIsRejected` and `UploadOperandChecks`. -/
theorem witness_invalid_image :
    Settled (ready .idle) ∧ QuietGaps (ready .idle) 1 ∧ validImage (ready .idle) = none ∧
      (ready .idle).session = .idle ∧ (ready .idle).payloadLen.toNat ≠ 32768 := by decide

/-- For `SampledPixelsAreInside`: the largest image of the test instance, at its corners. -/
theorem witness_sampled_pixels :
    validImage { ready .idle with imgW := 512, imgH := 512, imgFmt := 1 } = some .rgb888 ∧ (511 : Nat) ≤ 511 := by decide

/-- For `ScaleCornerCases` and `ScaleCommutesWithMirror`: both ends of the axis, and a size that is no multiple of
1024, with the vectors of 95_test_vectors.md. -/
theorem witness_scale :
    (511 : Nat) ≤ 511 ∧ (255 : Nat) ≤ 255 ∧ (256 : Nat) ≤ 256 ∧ ¬ 1024 ∣ 513 ∧ sampleIndex 513 511 = 512 ∧
      sampleIndex 513 0 = 0 := by decide

/-- For `BitmapClosedForm`. -/
theorem witness_source_pixel : SourcePixel (tiny ti .idle [] 127) .gray8 511 0 (.gray 127) := by
  have h := tiny_scaled ti .idle [] 127 (i := 511 - 511) (j := 0) (by omega) (by omega)
  exact h

/-- For `PackPlacesEveryPixel` and `BitmapLaws`: a conversion and an unpacking that succeed, of a light and of a dark
image. -/
theorem witness_bitmap :
    (∃ s', convertImage (tiny ti .idle [] 200) .gray8 = .ok s') ∧
      (∃ s', unpackPayload (filled ti .idle [] 0xA5) = .ok s') ∧
      (∀ x y p, x < 512 → y < 512 → scaled (tiny ti .idle [] 200) .gray8 x y = .ok p → 128 ≤ luminance p) ∧
      (∀ x y p, x < 512 → y < 512 → scaled (tiny ti .idle [] 0) .gray8 x y = .ok p → luminance p < 128) := by
  refine ⟨?_, ⟨_, filled_unpacks ti .idle [] 0xA5⟩, fun x y p hx hy h => ?_, fun x y p hx hy h => ?_⟩
  · obtain ⟨_, _, h⟩ := tiny_converts ti .idle [] 200
    exact ⟨_, h⟩
  · rw [tiny_scaled ti .idle [] 200 hx hy] at h
    cases h
    decide
  · rw [tiny_scaled ti .idle [] 0 hx hy] at h
    cases h
    decide

/-- A 1 × 1 image is sampled everywhere. -/
theorem tiny_sampled (cfg : Config) (x : Session) (answers : List Answer) (b : Byte) :
    SampledWritten (tiny cfg x answers b) .gray8 := fun _ _ hi hj => ⟨_, tiny_scaled cfg x answers b hi hj⟩

/-- For `ConvertCompletes`. -/
theorem witness_convert :
    Settled (tiny ti .idle [] 0) ∧ QuietGaps (tiny ti .idle [] 0) 1 ∧ validImage (tiny ti .idle [] 0) = some .gray8 ∧
      SampledWritten (tiny ti .idle [] 0) .gray8 :=
  ⟨by decide, by decide, by decide, tiny_sampled ti .idle [] 0⟩

/-- For `UnpackCompletes`, both of its cases. -/
theorem witness_unpack :
    (Settled (filled ti .idle [] 0xA5) ∧ QuietGaps (filled ti .idle [] 0xA5) 1 ∧
      (filled ti .idle [] 0xA5).payloadLen.toNat = 32768 ∧
      ∀ a, a < 32768 → ((filled ti .idle [] 0xA5).payload.readByte a).isSome = true) ∧
    (ready .idle).payloadLen.toNat ≠ 32768 :=
  ⟨⟨⟨rfl, fun h => by cases h⟩, rfl, rfl, fun a ha => by rw [filled_reads ti .idle [] 0xA5 ha]; rfl⟩, by decide⟩

/-- For `ConvertReadsOnlySampledPixels`: two images that differ in a byte that is not sampled, converted and not. -/
theorem witness_noninterference :
    let s1 := tiny ti .idle [] 0
    let s2 := { s1 with img := [(0, 0), (1, 7)] }
    (∀ x y k, x < 512 → y < 512 → k < bpp .gray8 →
      let a := pixelAddr s1.imgW.toNat .gray8 (sampleIndex s1.imgW.toNat x) (sampleIndex s1.imgH.toNat y) + k
      s1.img.readByte a = s2.img.readByte a) ∧
    (∃ t1, convertImage s1 .gray8 = .ok t1) ∧ ∃ e, convertImage (ready .idle) .gray8 = .error e := by
  refine ⟨fun x y k hx hy hk => ?_, ?_, ?_⟩
  · have h1 : sampleIndex 1 x = 0 := by unfold sampleIndex; omega
    have h2 : sampleIndex 1 y = 0 := by unfold sampleIndex; omega
    have h3 : k = 0 := by simp [bpp] at hk; exact hk
    subst h3
    change Memory.readByte _ (pixelAddr 1 .gray8 (sampleIndex 1 x) (sampleIndex 1 y) + 0) =
      Memory.readByte _ (pixelAddr 1 .gray8 (sampleIndex 1 x) (sampleIndex 1 y) + 0)
    rw [h1, h2]
    rfl
  · obtain ⟨_, _, h⟩ := tiny_converts ti .idle [] 0
    exact ⟨_, h⟩
  · cases h : convertImage (ready .idle) .gray8 with
    | error e => exact ⟨e, rfl⟩
    | ok s' =>
      obtain ⟨bytes, hc, _⟩ := convertImage_ok.1 h
      obtain ⟨b, _, hb⟩ := collect_getElem hc 0 (by simp [bmpBytes])
      rw [List.getElem_range] at hb
      have : ∃ e, packedByte (ready .idle) .gray8 0 = .error e := ⟨.unwrittenRead .img 0, by decide⟩
      obtain ⟨e, he⟩ := this
      rw [he] at hb
      cases hb

/-- For `UnwrittenReadFaults`, its three cases, the operations on images in Idle. -/
theorem witness_unwritten :
    ((ready .idle).busy = false ∧ (ready .idle).bmp.readByte 32767 = none) ∧
      (let s := { ready .idle with imgW := 1, imgH := 1 }
       s.busy = false ∧ s.session = .idle ∧ QuietGaps s 1 ∧ validImage s = some .gray8 ∧ ¬ SampledWritten s .gray8) ∧
      (let s := { ready .idle with payloadLen := 32768 }
       s.busy = false ∧ s.session = .idle ∧ QuietGaps s 1 ∧ s.payloadLen.toNat = 32768 ∧ s.payload.readByte 0 = none) := by
  refine ⟨by decide, ⟨rfl, rfl, by decide, by decide, fun h => ?_⟩, by decide⟩
  obtain ⟨p, hp⟩ := h 0 0 (by omega) (by omega)
  have : scaled { ready .idle with imgW := 1, imgH := 1 } .gray8 0 0 = .error (.unwrittenRead .img 0) := rfl
  rw [this] at hp
  cases hp

/-- For `ChunkLaws`: a chunk size, an index before the last chunk, and a payload of the bitmap's length. -/
theorem witness_chunks : 1 ≤ 3 ∧ 0 + 1 < chunkCount 3 [1, 2, 3, (4 : Byte)].length ∧
    (List.replicate 32768 (0 : Byte)).length = 32768 := ⟨by decide, by decide, List.length_replicate⟩

/-- TI with `CHUNK_SIZE = 3`. -/
def tiThree : Config := { params := tiParams 3, legal := by decide }

/-- For `GoodSendDeliversPayload`: two chunks, of 3 bytes and of 1, with answers that acknowledge just what they are
asked, and drains whose counts are 0. -/
theorem witness_good_send :
    let s := inSession tiThree .idle [⟨true, 3⟩, ⟨true, 0⟩, ⟨true, 1⟩, ⟨true, 0⟩]
    let len := [(0x40 : Byte), 0xF1, 0x01, 0x02].length
    s.lost = false ∧ QuietGaps s (sendRequestCount s.cfg.params len) ∧
      GoodAnswers s len (chunkCount s.cfg.params.chunkSize len) := by decide

/-- For `StreamHoldsWhatWasSent`: a send that is done, and one that fails with a drawn prefix. -/
theorem witness_stream :
    (∃ s', send [0x40, 0xF1] { ready .idle with busy := true } = .go (.done 2) s') ∧
      ∃ s', send [0x40, 0xF1] { inSession ti .idle [bad 1] with busy := true } = .go (.failed 0) s' :=
  ⟨⟨_, rfl⟩, ⟨_, rfl⟩⟩

/-- For `WriteErrorReportsWholeChunks`: the second of two chunks fails. -/
theorem witness_write_error :
    let s := inSession tiNarrow .idle [good, good, bad 1]
    1 < chunkCount 1 [(0x40 : Byte), 0xF1].length ∧ s.lost = false ∧ QuietGaps s (1 * requestsPerChunk s.cfg.params + 1) ∧
      GoodAnswers s [(0x40 : Byte), 0xF1].length 1 ∧
      s.answers[1 * requestsPerChunk s.cfg.params]? = some (bad 1) ∧ (bad 1).ok = false := by decide

/-- For `ShortWriteFails`: the only chunk is cut. -/
theorem witness_short_write :
    let s := inSession ti .idle [⟨true, 1⟩]
    0 < chunkCount 64 [(0x40 : Byte), 0xF1].length ∧ s.lost = false ∧ QuietGaps s (0 * requestsPerChunk s.cfg.params + 1) ∧
      GoodAnswers s [(0x40 : Byte), 0xF1].length 0 ∧ s.answers[0 * requestsPerChunk s.cfg.params]? = some ⟨true, 1⟩ ∧
      1 < (chunk 64 [(0x40 : Byte), 0xF1] 0).length := by decide

/-- For `DrainTimeoutFailsSend`. -/
theorem witness_drain_timeout :
    let s := inSession ti .idle [good, bad 0]
    s.cfg.params.paceDrain = true ∧ s.cfg.params.drainTimeout ≠ .infinite ∧ 0 < chunkCount 64 [(0x40 : Byte)].length ∧
      s.lost = false ∧ QuietGaps s (2 * 0 + 1 + 1) ∧ GoodAnswers s [(0x40 : Byte)].length 0 ∧
      s.answers[2 * 0]? = some good ∧ goodAnswer (.write (chunk 64 [(0x40 : Byte)] 0).length) good = true ∧ s.answers[2 * 0 + 1]? = some (bad 0) := by
  decide

/-- For `LossStopsRequests`. -/
theorem witness_loss_stops :
    let s := { ready .idle with lost := true }
    s.lost = true ∧ s.txOff < [(0x40 : Byte)].length ∧ s.cfg.params.paceDrain = true := by decide

/-- For `WritesStayWithinChunkSize`, `OperationsFrame` and `ResultsByOperation`: an operation that ends, with no block
reset in its gaps. -/
theorem witness_exec_next : NoBlockReset (ready .idle) ∧ ∃ t, exec .home (ready .idle) = .next t :=
  ⟨by decide, ⟨_, rfl⟩⟩

/-- For `OpenCompletes`: both answers. -/
theorem witness_open :
    let s := ready .disconnected
    s.busy = false ∧ s.lost = false ∧ s.session = .disconnected ∧ s.spent = false ∧ QuietGaps s 2 ∧
      s.answers = good :: List.replicate 19 good ∧ (inSession ti .disconnected [bad 0]).answers = [bad 0] := by decide

/-- For `OpenRejected`: both cases. -/
theorem witness_open_rejected :
    Settled { ready .disconnected with spent := true } ∧ QuietGaps { ready .disconnected with spent := true } 1 ∧
      Settled (ready .idle) ∧ QuietGaps (ready .idle) 1 ∧ (ready .idle).spent = false ∧
      (ready .idle).session ≠ .disconnected := by decide

/-- For `CloseCompletes`, in every connected state. -/
theorem witness_close :
    ∀ x ∈ [Session.idle, .erasing, .ready, .engraving, .paused],
      (ready x).busy = false ∧ (ready x).session ≠ .disconnected ∧ QuietGaps (ready x) 2 := by decide

/-- For `MotionCommandsComplete`: from Idle and from Ready, the seven frames of TI are one chunk each. -/
theorem witness_motion :
    (∀ c ∈ [Command.home, .center, .preview, .moveUp, .moveDown, .moveLeft, .moveRight],
      (encodeCommand ti.params c).length = 1) ∧
    ∀ x ∈ [Session.idle, .ready], Settled (ready x) ∧ GoodRun (ready x) 1 := by decide

/-- For `PauseCompletes`, `ResetCompletes` and `StartCompletes`. -/
theorem witness_control :
    (Settled (ready .engraving) ∧ GoodRun (ready .engraving) ti.params.framePause.length) ∧
      (∀ x ∈ [Session.idle, .erasing, .ready, .engraving, .paused],
        Settled (ready x) ∧ GoodRun (ready x) ti.params.frameReset.length) ∧
      ∀ x ∈ [Session.ready, .paused], Settled (ready x) ∧
        GoodRun (ready x)
          (ti.params.btPrefix ++ [0x40] ++ ti.params.btSuffix ++ ti.params.frameStart).length := by decide

/-- For `EraseCompletes` and `EraseSettledCompletes`. -/
theorem witness_erase :
    Settled (ready .idle) ∧ GoodRun (ready .idle) ti.params.frameErase.length ∧
      Settled (ready .erasing) ∧ (ready .erasing).session = .erasing ∧ QuietGaps (ready .erasing) 1 := by decide

/-- TI whose drain waits without bound, on a transport that never drains. -/
def stuck : State :=
  inSession { params := { tiParams 64 with drainTimeout := .infinite }, legal := by decide } .idle [bad 0]

/-- For `AwaitDrainCompletes`: an `Ok`, a timeout, and a transport that never drains. -/
theorem witness_await_drain :
    (Settled (ready .idle) ∧ (ready .idle).session ≠ .disconnected ∧ QuietGaps (ready .idle) 2 ∧
      (ready .idle).answers = good :: List.replicate 19 good) ∧
    ((inSession ti .idle [bad 0]).answers = [bad 0] ∧ ti.params.drainTimeout ≠ .infinite) ∧
    (Settled stuck ∧ QuietGaps stuck 2 ∧ stuck.answers = [bad 0] ∧ stuck.cfg.params.drainTimeout = .infinite) := by decide

/-- For `UploadImageCompletes`: with the bitmap as one chunk. -/
theorem witness_upload_image :
    let s := tiny tiWide .idle [good, good] 0
    Settled s ∧ s.session = .idle ∧ validImage s = some .gray8 ∧ SampledWritten s .gray8 ∧
      GoodRun s 32768 :=
  ⟨by decide, rfl, by decide, tiny_sampled tiWide .idle [good, good] 0, by decide⟩

/-- For `UploadRawCompletes`: with the bitmap as one chunk. -/
theorem witness_upload_raw :
    let s := filled tiWide .idle [good, good] 0xA5
    Settled s ∧ s.session = .idle ∧ s.payloadLen.toNat = 32768 ∧ (List.replicate 32768 (0xA5 : Byte)).length = 32768 ∧
      (∀ a, a < 32768 → s.payload.readByte a = (List.replicate 32768 (0xA5 : Byte))[a]?) ∧
      GoodRun s 32768 := by
  refine ⟨⟨rfl, fun h => by cases h⟩, rfl, rfl, List.length_replicate, fun a ha => ?_, ?_⟩
  · rw [filled_reads tiWide .idle [good, good] 0xA5 ha, List.getElem?_replicate, if_pos ha]
  · have h : GoodRun (inSession tiWide .idle [good, good]) 32768 := by decide
    exact h

/-- For `FailedSendTransitions`: `RESET` from Erasing fails, `START` from Ready fails after one byte, `HOME` is done, ... -/
theorem witness_failed_send :
    (let s := inSession ti .erasing [bad 0]
     s.busy = false ∧ s.session ∈ tableAllows .reset ∧ QuietGaps s 1 ∧
      ∃ s2, send (encodeCommand s.cfg.params .reset) { s with busy := true, gaps := s.gaps.drop 1 } = .go (.failed 0) s2 ∧
        s2.lost = false) ∧
    (let s := inSession tiNarrow .ready [good, good, bad 1]
     s.session ∈ tableAllows (.start 0x40) ∧
      ∃ s2, send (encodeCommand s.cfg.params (.start 0x40)) { s with busy := true, gaps := s.gaps.drop 1 } =
        .go (.failed 1) s2 ∧ s2.lost = false) ∧
    (let s := ready .idle
     ∃ s2, send (encodeCommand s.cfg.params .home) { s with busy := true, gaps := s.gaps.drop 1 } = .go (.done 1) s2 ∧
        s2.lost = false) :=
  ⟨⟨rfl, by decide, by decide, _, rfl, rfl⟩, ⟨by decide, _, rfl, rfl⟩, _, rfl, rfl⟩

/-- ... and with a loss: after the write of the frame, before its drain, and after the drain. -/
theorem witness_lost_send :
    (let s := { ready .idle with gaps := [[], [.lost], []] }
     s.busy = false ∧ s.session ∈ tableAllows .home ∧ QuietGaps s 1 ∧
      ∃ s2, send (encodeCommand s.cfg.params .home) { s with busy := true, gaps := s.gaps.drop 1 } = .go (.failed 1) s2 ∧
        s2.lost = true) ∧
    (let s := { ready .idle with gaps := [[], [], [.lost]] }
     QuietGaps s 1 ∧
      ∃ s2, send (encodeCommand s.cfg.params .home) { s with busy := true, gaps := s.gaps.drop 1 } = .go (.done 1) s2 ∧
        s2.lost = true) :=
  ⟨⟨rfl, by decide, by decide, _, rfl, rfl⟩, by decide, _, rfl, rfl⟩

/-- The send of a bitmap whose first write fails. -/
theorem bitmap_send_fails {s : State} {p : List Byte} {rest : List Answer} {g : List (List Input)}
    (hc : s.cfg = tiWide) (hl : p.length = 32768) (hlost : s.lost = false) (ha : s.answers = bad 0 :: rest)
    (hg : s.gaps = [] :: g) : ∃ s2, send p s = .go (.failed 0) s2 ∧ s2.lost = false := by
  have hcs : s.cfg.params.chunkSize = 32768 := by rw [hc]; rfl
  obtain ⟨fuel, h⟩ := send_chunks (p := p) (s := s) (i := 0) (by rw [hcs, hl]; decide) hlost
    (by simp [QuietGaps]) (by simp [GoodAnswers, askedOfChunks, answersGood])
  have e : afterChunks p 0 s = setCursor 0 0 s := by simp [afterChunks, setCursor]
  rw [h, e, sendLoop, if_pos (by simp [hl])]
  have hb : (setCursor 0 0 s).lost = false := hlost
  simp only [hb, Bool.false_eq_true, if_false]
  rw [txWrite_quiet (s := setCursor 0 0 s) (a := bad 0) (rest := rest) (g := g) ha hg]
  exact ⟨_, rfl, hlost⟩

/-- The send of a bitmap as one chunk, answered well: the transport lost after the write, after the drain, and not. -/
theorem bitmap_send_lost {s : State} {p : List Byte} {rest : List Answer} {g : List (List Input)}
    (hc : s.cfg = tiWide) (hl : p.length = 32768) (hb : s.busy = true) (hx : s.session = .uploading)
    (hlost : s.lost = false) (ha : s.answers = good :: good :: rest) :
    (s.gaps = [.lost] :: g → ∃ s2, send p s = .go (.failed 32768) s2 ∧ s2.lost = true) ∧
      (s.gaps = [] :: [.lost] :: g → ∃ s2, send p s = .go (.done 32768) s2 ∧ s2.lost = true) ∧
      (s.gaps = [] :: [] :: g → ∃ s2, send p s = .go (.done 32768) s2 ∧ s2.lost = false) := by
  have hs : slice p 0 32768 = p := by simp [slice, hl]
  have hp : s.cfg.params = tiParams 32768 := by rw [hc]; rfl
  have hcs : s.cfg.params.chunkSize = 32768 := by rw [hp]; rfl
  have hpd : s.cfg.params.paceDrain = true := by rw [hp]; rfl
  obtain ⟨fuel, h⟩ := send_chunks (p := p) (s := s) (i := 0) (by rw [hcs, hl]; decide) hlost
    (by simp [QuietGaps]) (by simp [GoodAnswers, askedOfChunks, answersGood])
  have e : afterChunks p 0 s = setCursor 0 0 s := by simp [afterChunks, setCursor]
  rw [h, e, sendLoop]
  refine ⟨?_, ?_, ?_⟩ <;> intro hg <;>
    simp [hl, hcs, hpd, setCursor, hlost, txWrite, txDrain, drawAnswer, logRequest, ha, gap, appendStream, applyInputs,
      applyInput, loseTransport, State.held, hb, hx, hg, good, hs, paceDrain, sendLoop_end]

/-- For `FailedUploadReturnsToIdle`, its image case: the first write fails. -/
theorem witness_failed_upload_image :
    let s := tiny tiWide .idle [bad 0] 0
    s.busy = false ∧ s.session = .idle ∧ QuietGaps s 1 ∧ validImage s = some .gray8 ∧
      ∃ s1 p s2, convertImage { s with busy := true, gaps := s.gaps.drop 1 } .gray8 = .ok s1 ∧ packedBytes s1 = .ok p ∧
        send p { s1 with session := .uploading } = .go (.failed 0) s2 ∧ s2.lost = false := by
  intro s
  refine ⟨rfl, rfl, by decide, by decide, ?_⟩
  obtain ⟨bytes, hb⟩ := collect_isOk (packedByte { s with busy := true, gaps := s.gaps.drop 1 } .gray8)
    (List.range bmpBytes) fun a ha => packedByte_isOk (by simpa [bmpBytes] using ha) fun i j hi hj =>
      ⟨_, by
        rw [inverted_eq]
        have h := tiny_scaled tiWide .idle [bad 0] 0 (i := 511 - i) (by omega) hj
        change scaled { s with busy := true, gaps := s.gaps.drop 1 } .gray8 (511 - i) j = _ at h
        rw [h]⟩
  have hl : bytes.length = 32768 := by simpa [bmpBytes] using collect_length hb
  obtain ⟨s2, h2, h3⟩ := bitmap_send_fails (p := bytes) (rest := []) (g := List.replicate 18 [])
    (s := { memWrite { s with busy := true, gaps := s.gaps.drop 1 } .bmp 0 bytes with session := .uploading })
    rfl hl rfl rfl rfl
  exact ⟨_, bytes, s2, convertImage_ok.2 ⟨bytes, hb, rfl⟩, packedBytes_memWrite _ hl, h2, h3⟩

/-- For `FailedUploadReturnsToIdle`, its raw case. -/
theorem witness_failed_upload_raw :
    let s := filled tiWide .idle [bad 0] 0xA5
    s.payloadLen.toNat = 32768 ∧
      ∃ s1 p s2, unpackPayload { s with busy := true, gaps := s.gaps.drop 1 } = .ok s1 ∧ packedBytes s1 = .ok p ∧
        send p { s1 with session := .uploading } = .go (.failed 0) s2 ∧ s2.lost = false := by
  intro s
  refine ⟨rfl, ?_⟩
  have hl : (List.replicate 32768 (0xA5 : Byte)).length = 32768 := List.length_replicate
  obtain ⟨s2, h2, h3⟩ := bitmap_send_fails (p := List.replicate 32768 0xA5) (rest := []) (g := List.replicate 18 [])
    (s := { memWrite { s with busy := true, gaps := s.gaps.drop 1 } .bmp 0 (List.replicate 32768 0xA5) with
      session := .uploading }) rfl hl rfl rfl rfl
  refine ⟨_, _, s2, unpackPayload_ok.2 ⟨_, memRead_ok.2 ⟨hl, fun i hi => ?_⟩, rfl⟩, packedBytes_memWrite _ hl, h2, h3⟩
  have hi : i < 32768 := hi
  change s.payload.readByte (0 + i) = _
  rw [Nat.zero_add, filled_reads tiWide .idle [bad 0] 0xA5 hi, List.getElem?_replicate, if_pos hi]

/-- For `FailedUploadReturnsToIdle`: the bitmap is written and the transport lost before the drain, lost after it, and
not lost. -/
theorem witness_lost_upload (g : List (List Input)) (hg : g = [[.lost]] ∨ g = [[], [.lost]] ∨ g = [[], []]) :
    let s := { filled tiWide .idle [good, good] 0xA5 with gaps := [] :: g }
    QuietGaps s 1 ∧ ∃ s1 p r s2, unpackPayload { s with busy := true, gaps := s.gaps.drop 1 } = .ok s1 ∧
      packedBytes s1 = .ok p ∧ send p { s1 with session := .uploading } = .go r s2 ∧
      (r, s2.lost) = (if g = [[.lost]] then .failed 32768 else .done 32768, decide (g ≠ [[], []])) := by
  intro s
  refine ⟨rfl, ?_⟩
  have hl : (List.replicate 32768 (0xA5 : Byte)).length = 32768 := List.length_replicate
  have hs := fun (g' : List (List Input)) => bitmap_send_lost (p := List.replicate 32768 0xA5) (rest := []) (g := g')
    (s := { memWrite { s with busy := true, gaps := s.gaps.drop 1 } .bmp 0 (List.replicate 32768 0xA5) with
      session := .uploading }) rfl hl rfl rfl rfl rfl
  obtain ⟨r, s2, h2, h3⟩ : ∃ r s2, send (List.replicate 32768 0xA5)
      { memWrite { s with busy := true, gaps := s.gaps.drop 1 } .bmp 0 (List.replicate 32768 0xA5) with
        session := .uploading } = .go r s2 ∧
      (r, s2.lost) = (if g = [[.lost]] then .failed 32768 else .done 32768, decide (g ≠ [[], []])) := by
    rcases hg with rfl | rfl | rfl
    · obtain ⟨s2, h1, h2⟩ := (hs []).1 rfl
      exact ⟨_, s2, h1, by rw [h2]; rfl⟩
    · obtain ⟨s2, h1, h2⟩ := (hs []).2.1 rfl
      exact ⟨_, s2, h1, by rw [h2]; rfl⟩
    · obtain ⟨s2, h1, h2⟩ := (hs []).2.2 rfl
      exact ⟨_, s2, h1, by rw [h2]; rfl⟩
  refine ⟨_, _, r, s2, unpackPayload_ok.2 ⟨_, memRead_ok.2 ⟨hl, fun i hi => ?_⟩, rfl⟩, packedBytes_memWrite _ hl, h2, h3⟩
  have hi : i < 32768 := hi
  change s.payload.readByte (0 + i) = _
  rw [Nat.zero_add, show s.payload = (filled tiWide .idle [good, good] 0xA5).payload from rfl,
    filled_reads tiWide .idle [good, good] 0xA5 hi, List.getElem?_replicate, if_pos hi]

/-- For `LossDuringSend`, with two chunks of one byte: *lost* after the first chunk's drain and after the last, and
between a write and its drain, of the first and of the last chunk. -/
theorem witness_loss_during_send :
    let s := fun g => { inSession tiNarrow .idle [⟨true, 1⟩, ⟨true, 0⟩, ⟨true, 1⟩, ⟨true, 0⟩] with
      busy := true, gaps := g }
    let p : List Byte := [0x40, 0xF1]
    chunkCount 1 p.length = 2 ∧ requestsPerChunk tiNarrow.params = 2 ∧
      (∀ g ∈ [[[], [.lost]], [[], [], [], [.lost]], [[.lost]], [[], [], [.lost]]],
        (s g).busy = true ∧ (s g).held = true ∧ (s g).lost = false ∧ ∀ i ∈ [0, 1, 2], GoodAnswers (s g) p.length i) ∧
      ((s [[], [.lost]]).gaps.take (1 * 2) = List.replicate (1 * 2 - 1) [] ++ [[.lost]]) ∧
      ((s [[], [], [], [.lost]]).gaps.take (2 * 2) = List.replicate (2 * 2 - 1) [] ++ [[.lost]]) ∧
      ((s [[.lost]]).gaps.take (2 * 0 + 1) = List.replicate (2 * 0) [] ++ [[.lost]]) ∧
      ((s [[], [], [.lost]]).gaps.take (2 * 1 + 1) = List.replicate (2 * 1) [] ++ [[.lost]]) ∧
      (∀ i ∈ [0, 1], (s []).answers[2 * i]? = some ⟨true, 1⟩ ∧
        goodAnswer (.write (chunk 1 p i).length) ⟨true, 1⟩ = true) :=
  ⟨by decide, by decide, by decide, by decide, by decide, by decide,
    by decide, by decide⟩

/-- For `DisconnectedMeansNotConnected`. -/
theorem witness_not_connected :
    needsTransport .home = true ∧ (ready .disconnected).busy = false ∧ (ready .disconnected).session = .disconnected ∧
      QuietGaps (ready .disconnected) 1 := by decide

/-- For `TableDashesMeanInvalidState`: a motion in Engraving. -/
theorem witness_dash :
    needsTransport .home = true ∧ Settled (ready .engraving) ∧ (ready .engraving).session ∉ tableAllows .home ∧
      QuietGaps (ready .engraving) 1 := by decide

/-- For `SessionFollowsTransitionTable` and `ReadyNeedsAnUpload`: `START` from Ready that ends with `OK`, ... -/
theorem witness_success : Inv (ready .ready) ∧ NoBlockReset (ready .ready) ∧
    ∃ t, exec (.start 0x40) (ready .ready) = .next t ∧ t.lost = false ∧ t.status = .ok ∧ t.session = .engraving :=
  ⟨by decide, by decide, _, rfl, rfl, rfl, rfl⟩

/-- ... a `RESET` that fails, ... -/
theorem witness_failure : Inv (inSession ti .erasing [bad 0]) ∧
    ∃ t, exec .reset (inSession ti .erasing [bad 0]) = .next t ∧ t.lost = false ∧ t.status ≠ .ok :=
  ⟨by decide, _, rfl, rfl, by decide⟩

/-- ... and a `HOME` in which the transport is lost. -/
theorem witness_loss :
    let s := { ready .idle with gaps := [[], [.lost], []] }
    Inv s ∧ NoBlockReset s ∧ ∃ t, exec .home s = .next t ∧ t.lost = true :=
  ⟨by decide, by decide, _, rfl, rfl⟩

/-- For `EngravingIsLeftOnlyBy`: `PAUSE`, and an input that is taken in Engraving. -/
theorem witness_engraving : Inv (ready .engraving) ∧ NoBlockReset (ready .engraving) ∧
    (∃ t, exec .pause (ready .engraving) = .next t) ∧ ∃ t, applyInput (.regRead 3) (ready .engraving) = .next t :=
  ⟨by decide, by decide, ⟨_, rfl⟩, ⟨_, rfl⟩⟩

/-- For `StepKeepsInvariant`. -/
theorem witness_step :
    let s := loadProgram [.op .home] (ready .idle)
    Inv s ∧ ∃ t, step s = .next t := ⟨by decide, _, rfl⟩

/-- For `ErrorsArePrecise`: an operation that is turned away, without and with a loss in its gap. -/
theorem witness_precise :
    (∃ t, exec .pause (ready .idle) = .next t ∧ t.status = .invalidState ∧ t.lost = false) ∧
      NoBlockReset { ready .idle with gaps := [[.lost]] } ∧
      ∃ t, exec .pause { ready .idle with gaps := [[.lost]] } = .next t ∧ t.status = .invalidState ∧ t.lost = true :=
  ⟨⟨_, rfl, rfl, rfl⟩, by decide, _, rfl, rfl, rfl⟩

/-- For `ResultsByOperation`: each kind of error is some operation's, and TI's frames are short. -/
theorem witness_results :
    shown (exec .openPort (inSession ti .disconnected [bad 0])) = some (1, 0, 0x00, []) ∧
      shown (exec .home (ready .disconnected)) = some (2, 0, 0x00, []) ∧
      shown (exec .convert (ready .idle)) = some (3, 0, 0x01, []) ∧
      shown (exec .unpack (ready .idle)) = some (4, 0, 0x01, []) ∧
      shown (exec .home (inSession ti .idle [bad 1])) = some (5, 0, 0x01, [0xF3]) ∧
      shown (exec .awaitDrain (inSession ti .idle [bad 0])) = some (6, 0, 0x01, []) ∧
      shown (exec .home (ready .engraving)) = some (7, 0, 0x05, []) ∧
      shown (exec (.reserved 0 0) (ready .idle)) = some (8, 0, 0x01, []) ∧ ti.params.maxFrame ≤ 32768 :=
  ⟨by decide, by decide, by decide, by decide, by decide, by decide, by decide, by decide, by decide⟩

/-- For `FinishRule`, `LossEvent` and `LossInsideAnOperation`. -/
theorem witness_loss_rules :
    ({ ready .idle with lost := true }.lost = true ∧ { ready .idle with lost := true }.session ≠ .disconnected) ∧
      ((ready .idle).lost = false ∧ (ready .idle).session ≠ .disconnected ∧ (ready .idle).busy = false) ∧
      { ready .idle with busy := true }.busy = true ∧ { ready .idle with gaps := [[.lost]] }.gaps = [.lost] :: [] ∧
      { ready .idle with gaps := [[], [.lost]] }.gaps = [] :: [.lost] :: [] ∧ good.ok = true := by decide

/-- For `RegisterPortRights`, at the ends of the ranges its clauses name. -/
theorem witness_register_port :
    (ready .idle).busy = false ∧ { ready .idle with busy := true }.busy = true ∧ 65535 < 2 ^ 16 ∧ 255 < 2 ^ 8 ∧
      4294967295 < 2 ^ 32 ∧ hopWrite (.regWrite 3 0) = none ∧ 3 ∉ [4, 5, 6, 7] ∧ hopWrite (.regWrite 8 0) = none ∧
      8 ∉ [4, 5, 6, 7] ∧ hopWrite (.regWrite 0 65536) = none ∧ 0 ∉ [4, 5, 6, 7] ∧ hopWrite (.regWrite 0 65535) ≠ none ∧
      { ready .idle with inbox := [.regWrite 0 65535] }.inbox = .regWrite 0 65535 :: [] ∧ 4 ∈ [4, 5] ∧ 2 ^ 16 ≤ 65536 ∧
      2 ^ 8 ≤ 256 ∧ 2 ^ 32 ≤ 4294967296 ∧ 9 < 10 ∧ 0 ∉ [1, 2, 3] ∧ 4 ∉ [1, 2, 3] ∧ 10 ≤ 10 := by
  decide

/-- For `MemoryPortRights`, at the ends of the spaces. -/
theorem witness_memory_port :
    (ready .idle).busy = false ∧ 786431 < capacity ti .img ∧ 32767 < capacity ti .payload ∧ capacity ti .img ≤ 786432 ∧
      capacity ti .bmp ≤ 32768 ∧ { ready .idle with bmp := [(32767, 0x5A)] }.bmp.readByte 32767 = some 0x5A ∧
      { ready .idle with busy := true }.busy = true := by decide

/-- For `StepRunsTheNextInput`: an operation, another input, and none. -/
theorem witness_next_input :
    { ready .idle with inbox := [.regWrite 0 0x1000] }.inbox = .regWrite 0 (0x1000 : HopWord).toNat :: [] ∧
      hopWrite .lost = none ∧ hopWrite (.regWrite 0 65536) = none ∧ (ready .idle).inbox = [] := by decide

end Sys2Proof.Tests
end

section
/-! The statements about the state and its ports (10_state.md): the end of an operation, the view STATE, the register
port and block reset. Each is settled from a rule said once for the part of the model it speaks of. -/

namespace Sys2Proof.Machine

/-! ### The end of an operation -/

/-- A transport is held just when the session is not Disconnected. -/
theorem held_eq_true_iff (s : State) : s.held = true ↔ s.session ≠ .disconnected := by simp [State.held]

/-- No transport is held just when the session is Disconnected. -/
theorem held_eq_false_iff (s : State) : s.held = false ↔ s.session = .disconnected := by simp [State.held]

/-- Settles O51: `finish` by whether the transport held was lost, and COUNT read back. -/
theorem finishRule : Obligations.FinishRule := by
  intro st c s
  refine ⟨fun hl hs => finish_lost st c s ((held_eq_true_iff s).2 hs) hl, fun h => ?_, fun hc => ?_⟩
  · exact finish_calm st c s (h.symm.imp_left (held_eq_false_iff s).2)
  · rw [finish_count, word32_toNat hc]

/-! ### The view STATE -/

/-- Bits 2 to 0 of STATE are the code of SESSION (R28). -/
theorem stateView_session (s : State) : (stateView s).extractLsb' 0 3 = sessionCode s.session :=
  BitVec.extractLsb'_append_eq_right

/-- Bits 7 and 6 of STATE are 0 (R28). -/
theorem stateView_top (s : State) : (stateView s).extractLsb' 6 2 = 0 := by
  simp only [stateView]
  rw [BitVec.extractLsb'_append_eq_of_le (by decide), BitVec.extractLsb'_append_eq_of_le (by decide),
    BitVec.extractLsb'_append_eq_of_le (by decide), BitVec.extractLsb'_append_eq_of_le (by decide)]
  rfl

/-- The three flags of STATE: SPENT, BUSY and LOST in bits 3, 4 and 5 (R28). -/
theorem stateView_flags (s : State) : (stateView s).getLsbD 3 = s.spent ∧ (stateView s).getLsbD 4 = s.busy ∧
    (stateView s).getLsbD 5 = s.lost := by
  simp only [stateView, BitVec.getLsbD_append, BitVec.getLsbD_ofBool]
  simp

/-! ### The register port -/

/-- The registers the host may read while BUSY = 1 have the numbers 1 to 3 (R35). -/
theorem number_of_readableWhileBusy {n : Nat} {r : Reg} (hr : regOfNumber n = some r)
    (h : readableWhileBusy r = true) : n ∈ [1, 2, 3] := by
  unfold regOfNumber at hr
  split at hr <;> cases hr <;> simp_all [readableWhileBusy]

/-- The registers the host may write have the numbers 4 to 7 (R35). -/
theorem number_of_hostRegister {n : Nat} {r : Reg} (hr : regOfNumber n = some r)
    (h : r ∈ [Reg.imgW, .imgH, .imgFmt, .payloadLen]) : n ∈ [4, 5, 6, 7] := by
  unfold regOfNumber at hr
  split at hr <;> cases hr <;> simp_all

/-- The numbers above 9 name no register (R35). -/
theorem regOfNumber_eq_none {n : Nat} (h : 10 ≤ n) : regOfNumber n = none := by
  obtain ⟨k, rfl⟩ := Nat.exists_eq_add_of_le' h
  rfl

/-- The numbers up to 9 name one each (R35). -/
theorem regOfNumber_isSome {n : Nat} (h : n < 10) : ∃ r, regOfNumber n = some r := by
  interval_cases n <;> exact ⟨_, rfl⟩

/-- A read the host is given: it logs the value and changes nothing else (R35, R58). -/
theorem regRead_next {s : State} {n : Nat} {r : Reg} {v : BitVec 32} (hn : regOfNumber n = some r)
    (hb : s.busy = false ∨ readableWhileBusy r = true) (hv : regValue s r = some v) :
    applyInput (.regRead n) s = .next { s with reads := s.reads ++ [v] } := by
  have hg : (s.busy && !readableWhileBusy r) = false := by rcases hb with h | h <;> simp [h]
  simp [applyInput, hostRegRead, hn, hg, hv]

/-- While BUSY = 1 the host reads registers 1 to 3 only (R200). -/
theorem regRead_busy {s : State} {n : Nat} (hb : s.busy = true) (hn : n ∉ [1, 2, 3]) :
    ∃ e, applyInput (.regRead n) s = .refused e := by
  rw [applyInput, hostRegRead]
  split
  · exact ⟨_, rfl⟩
  · next r hr =>
    have hg : readableWhileBusy r ≠ true := fun h => hn (number_of_readableWhileBusy hr h)
    exact ⟨.accessWhileBusy, by simp [hb, hg]⟩

/-- A number above 9 is refused by name (R35). -/
theorem regRead_noSuchRegister {n : Nat} (hn : 10 ≤ n) (s : State) :
    applyInput (.regRead n) s = .refused (.noSuchRegister n) := by
  simp [applyInput, hostRegRead, regOfNumber_eq_none hn]

/-- HOP is write-only (R35). -/
theorem regRead_hop (s : State) : ∃ e, applyInput (.regRead 0) s = .refused e := by
  by_cases hb : s.busy = true
  · exact regRead_busy hb (by decide)
  · exact ⟨.registerNotReadable 0, by simp [applyInput, hostRegRead, regOfNumber, regValue, hb]⟩

/-- At BUSY = 0 the four host registers take every value of their width (R35). -/
theorem regWrite_hostRegister {s : State} {v : Nat} (hb : s.busy = false) :
    (v < 2 ^ 16 → applyInput (.regWrite 4 v) s = .next { s with imgW := BitVec.ofNat 16 v }) ∧
      (v < 2 ^ 16 → applyInput (.regWrite 5 v) s = .next { s with imgH := BitVec.ofNat 16 v }) ∧
      (v < 2 ^ 8 → applyInput (.regWrite 6 v) s = .next { s with imgFmt := BitVec.ofNat 8 v }) ∧
      (v < 2 ^ 32 → applyInput (.regWrite 7 v) s = .next { s with payloadLen := BitVec.ofNat 32 v }) := by
  refine ⟨?_, ?_, ?_, ?_⟩ <;> intro hv <;>
    simpa [applyInput, hostRegWrite, regOfNumber, regWidth, hb] using hv

/-- Every other register has no step for a write through the port (R35). -/
theorem regWrite_notWritable {n : Nat} (hn : n ∉ [4, 5, 6, 7]) (v : Nat) (s : State) :
    ∃ e, applyInput (.regWrite n v) s = .refused e := by
  rw [applyInput, hostRegWrite]
  split
  · exact ⟨_, rfl⟩
  · next r hr =>
    have hw := mt (number_of_hostRegister hr) hn
    split_ifs
    · exact ⟨_, rfl⟩
    · exact ⟨_, rfl⟩
    · cases r <;> simp at hw ⊢

/-- A value too wide for its register has no step (R35, R55). -/
theorem regWrite_tooWide {n v : Nat} {r : Reg} (hn : regOfNumber n = some r) (hv : 2 ^ regWidth r ≤ v) (s : State) :
    ∃ e, applyInput (.regWrite n v) s = .refused e := by
  cases hb : s.busy with
  | true => exact ⟨.accessWhileBusy, by simp [applyInput, hostRegWrite, hn, hb]⟩
  | false => exact ⟨.valueTooWide n v, by simp [applyInput, hostRegWrite, hn, hb, hv]⟩

/-- While BUSY = 1 no register takes a write (R24, R35). -/
theorem regWrite_busy {s : State} {n : Nat} (hb : s.busy = true) (hn : n < 10) (v : Nat) :
    applyInput (.regWrite n v) s = .refused .accessWhileBusy := by
  obtain ⟨r, hr⟩ := regOfNumber_isSome hn
  simp [applyInput, hostRegWrite, hr, hb]

/-- A 16-bit value written to HOP is taken as an operation's word (R70). -/
theorem step_hopWrite {s : State} {v : Nat} {rest : List Input} (hv : v < 2 ^ 16)
    (h : s.inbox = .regWrite 0 v :: rest) :
    step s = exec (decode (BitVec.ofNat 16 v)) { s with inbox := rest } := by
  have hw : hopWrite (.regWrite 0 v) = some (BitVec.ofNat 16 v) := if_pos hv
  simp [step, fetch, h, hw]

/-- Every operation starts with its acceptance (R200). -/
theorem exec_accepts (i : Instr) : ∃ f, ∀ s, exec i s = (accept s).andThen f := by
  cases i <;> exact ⟨_, fun _ => rfl⟩

/-- No operation is accepted while BUSY = 1 (R24, R70). -/
theorem exec_busy {s : State} (hb : s.busy = true) (i : Instr) : exec i s = .refused .accessWhileBusy := by
  obtain ⟨f, hf⟩ := exec_accepts i
  rw [hf s, accept_busy hb, Run.stop_andThen]

/-! ### The view and the port together -/

/-- Settles O54: the fields of the view, and register 3 is none the host may write. -/
theorem stateViewFields : Obligations.StateViewFields := by
  intro s
  obtain ⟨hspent, hbusy, hlost⟩ := stateView_flags s
  refine ⟨?_, hspent, hbusy, hlost, stateView_top s, fun v => regWrite_notWritable (by decide) v s⟩
  rw [stateView_session]
  cases s.session <;> rfl

/-- Settles O55: clause by clause, each by its rule of the port above. -/
theorem registerPortRights : Obligations.RegisterPortRights := by
  intro s n v
  refine ⟨regRead_next rfl (.inr rfl) rfl, regRead_next rfl (.inr rfl) rfl, regRead_next rfl (.inr rfl) rfl,
    fun hb => ?idle, fun hv _ h => step_hopWrite hv h,
    fun _ hn => regWrite_notWritable hn v s, ?tooWide, fun hb hn => regWrite_busy hb hn v,
    fun hb hn => regRead_busy hb hn, fun hn => regRead_noSuchRegister hn s, regRead_hop s, fun hb i => exec_busy hb i⟩
  case idle =>
    exact ⟨regRead_next rfl (.inl hb) rfl, regRead_next rfl (.inl hb) rfl, regRead_next rfl (.inl hb) rfl,
      regRead_next rfl (.inl hb) rfl, regRead_next rfl (.inl hb) rfl, regRead_next rfl (.inl hb) rfl,
      regWrite_hostRegister hb⟩
  case tooWide =>
    rintro (⟨hn, hv⟩ | ⟨rfl, hv⟩ | ⟨rfl, hv⟩)
    · obtain rfl | rfl : n = 4 ∨ n = 5 := by simpa using hn
      · exact regWrite_tooWide rfl hv s
      · exact regWrite_tooWide rfl hv s
    · exact regWrite_tooWide rfl hv s
    · exact regWrite_tooWide rfl hv s

/-! ### Block reset -/

/-- Settles O57: by evaluation of the reset state. -/
theorem resetState : Obligations.ResetState := by
  refine ⟨rfl, rfl, rfl, rfl, rfl, rfl, rfl, rfl, rfl, rfl, rfl, rfl, fun sp a => ?_⟩
  cases sp <;> exact Memory.readByte_nil a

end Sys2Proof.Machine
end

section
/-! The statements about the buffers and their ports (20_memory.md): what the memory port gives the host, when a read is
the fault UNWRITTEN_READ, and what an operation leaves alone. -/

namespace Sys2Proof.Machine

open Sys2Proof.Safety

/-! ### Buffers as state -/

/-- `MemWrite` writes the bytes to its buffer (R14). -/
@[simp] theorem memWrite_buffer (s : State) (sp : Space) (a : Nat) (bytes : List Byte) :
    (memWrite s sp a bytes).buffer sp = (s.buffer sp).writeBytes a bytes := by
  cases sp <;> rfl

/-- `MemWrite` changes nothing but its buffer (R61). -/
theorem memWrite_eq_setBuffer (s : State) (sp : Space) (a : Nat) (bytes : List Byte) :
    memWrite s sp a bytes = s.setBuffer sp ((memWrite s sp a bytes).buffer sp) := by
  rw [memWrite_buffer, memWrite]

/-- A byte written is read back (R61). -/
theorem readByte_writeBytes_same (m : Memory) (a : Nat) (b : Byte) : (m.writeBytes a [b]).readByte a = some b := by
  simp [Memory.readByte_writeBytes]

/-- The write of one byte leaves every other address alone (R61). -/
theorem readByte_writeBytes_ne (m : Memory) {a x : Nat} (b : Byte) (h : x ≠ a) :
    (m.writeBytes a [b]).readByte x = m.readByte x := by
  rw [Memory.readByte_writeBytes, if_neg]
  simp only [List.length_singleton]
  omega

/-- `MemRead` of one written byte is the byte (R14). -/
theorem memReadByte_of_some {s : State} {sp : Space} {a : Nat} {b : Byte} (h : (s.buffer sp).readByte a = some b) :
    memReadByte s sp a = .ok b := by
  simp [memReadByte, h]

/-- `MemRead` of one unwritten byte is the fault with its space and address (R56). -/
theorem memReadByte_of_none {s : State} {sp : Space} {a : Nat} (h : (s.buffer sp).readByte a = none) :
    memReadByte s sp a = .error (.unwrittenRead sp a) := by
  simp [memReadByte, h]

/-- `MemRead` of one byte stops only at an unwritten byte (R56). -/
theorem memReadByte_error {s : State} {sp : Space} {a : Nat} {e : Fault} (h : memReadByte s sp a = .error e) :
    (s.buffer sp).readByte a = none ∧ e = .unwrittenRead sp a := by
  cases hr : (s.buffer sp).readByte a with
  | none => rw [memReadByte_of_none hr] at h; cases h; exact ⟨rfl, rfl⟩
  | some b => rw [memReadByte_of_some hr] at h; cases h

/-! ### The memory port -/

/-- A host write the port gives is a `MemWrite` of one byte (R51, R52). -/
theorem hostMemWrite_next {s : State} {sp : Space} {a : Nat} (b : Byte) (hb : s.busy = false) (hsp : sp ≠ .bmp)
    (ha : a < capacity s.cfg sp) : applyInput (.memWrite sp a b) s = .next (memWrite s sp a [b]) := by
  simp [applyInput, hostMemWrite, hb, hsp, Nat.not_le.2 ha]

/-- A host read of a written BMP byte logs it and changes nothing else (R51, R58). -/
theorem hostMemRead_next {s : State} {a : Nat} {b : Byte} (hb : s.busy = false) (ha : a < 32768)
    (hr : s.bmp.readByte a = some b) :
    applyInput (.memRead .bmp a) s = .next { s with reads := s.reads ++ [b.zeroExtend 32] } := by
  have hc : ¬ capacity s.cfg .bmp ≤ a := Nat.not_le.2 ha
  simp [applyInput, hostMemRead, hb, hc, memReadByte_of_some (sp := .bmp) hr]

/-- A host read of an unwritten BMP byte is the fault with its address (R56). -/
theorem hostMemRead_fault {s : State} {a : Nat} (hb : s.busy = false) (ha : a < 32768)
    (hr : s.bmp.readByte a = none) : applyInput (.memRead .bmp a) s = .fault (.unwrittenRead .bmp a) := by
  have hc : ¬ capacity s.cfg .bmp ≤ a := Nat.not_le.2 ha
  simp [applyInput, hostMemRead, hb, hc, memReadByte_of_none (sp := .bmp) hr]

/-- The port refuses the host a write while busy, to BMP and outside the space (R51, R52). -/
theorem hostMemWrite_refused {s : State} {sp : Space} {a : Nat} (b : Byte)
    (h : s.busy = true ∨ sp = .bmp ∨ capacity s.cfg sp ≤ a) : ∃ r, applyInput (.memWrite sp a b) s = .refused r := by
  rw [applyInput, hostMemWrite]
  split_ifs with h1 h2 h3
  · exact ⟨_, rfl⟩
  · exact ⟨_, rfl⟩
  · exact ⟨_, rfl⟩
  · exact absurd h (not_or.2 ⟨h1, not_or.2 ⟨h2, h3⟩⟩)

/-- The port refuses the host a read while busy, of IMG and PAYLOAD and outside the space (R51, R52). -/
theorem hostMemRead_refused {s : State} {sp : Space} {a : Nat}
    (h : s.busy = true ∨ sp ≠ .bmp ∨ capacity s.cfg sp ≤ a) : ∃ r, applyInput (.memRead sp a) s = .refused r := by
  rw [applyInput, hostMemRead]
  split_ifs with h1 h2 h3
  · exact ⟨_, rfl⟩
  · exact ⟨_, rfl⟩
  · exact ⟨_, rfl⟩
  · exact absurd h (not_or.2 ⟨h1, not_or.2 ⟨h2, h3⟩⟩)

/-- Settles O56: a write the port gives is a `MemWrite` of one byte, a read a `MemRead`; the rest is refused. -/
theorem memoryPortRights : Obligations.MemoryPortRights := by
  intro s sp a b
  refine ⟨fun hb hsp ha => ?write, hostMemRead_next, hostMemWrite_refused b, hostMemRead_refused⟩
  case write =>
    refine ⟨_, hostMemWrite_next b hb hsp ha, memWrite_eq_setBuffer s sp a [b], ?_, fun x hx => ?_⟩
    · rw [memWrite_buffer, readByte_writeBytes_same]
    · rw [memWrite_buffer, readByte_writeBytes_ne _ b hx]

/-! ### Unwritten bytes -/

/-- Reading a pixel stops where the read of one of its bytes does (R134). -/
theorem readPixel_error {s : State} {f : PixelFormat} {i j : Nat} {e : Fault} (h : readPixel s f i j = .error e) :
    ∃ k, k < bpp f ∧ memReadByte s .img (pixelAddr s.imgW.toNat f i j + k) = .error e := by
  cases f with
  | gray8 =>
    simp only [readPixel] at h
    split at h
    · cases h
    · next h0 => cases h; exact ⟨0, by decide, h0⟩
  | rgb888 =>
    simp only [readPixel] at h
    split at h
    · next h0 => cases h; exact ⟨0, by decide, h0⟩
    split at h
    · next h1 => cases h; exact ⟨1, by decide, h1⟩
    split at h
    · next h2 => cases h; exact ⟨2, by decide, h2⟩
    · cases h

/-- A bit of the bitmap has a value just where its source pixel has (R140). -/
theorem inverted_isOk {s : State} {f : PixelFormat} {x y : Nat} :
    (∃ v, inverted s f x y = .ok v) ↔ ∃ p, scaled s f (511 - x) y = .ok p := by
  rw [inverted_eq]
  cases scaled s f (511 - x) y <;> simp

/-- A bit of the bitmap stops where its source pixel does (R134). -/
theorem inverted_error {s : State} {f : PixelFormat} {x y : Nat} {e : Fault} :
    inverted s f x y = .error e ↔ scaled s f (511 - x) y = .error e := by
  rw [inverted_eq]
  cases scaled s f (511 - x) y <;> simp

/-- A packed byte stops where one of its eight pixels does (R134, R141). -/
theorem packedByte_error {s : State} {f : PixelFormat} {a : Nat} {e : Fault} (h : packedByte s f a = .error e) :
    ∃ k, k < 8 ∧ inverted s f (8 * (a % 64) + k) (a / 64) = .error e := by
  unfold packedByte at h
  split at h
  · cases h
  · next e' hc =>
    cases h
    obtain ⟨k, hk, he⟩ := collect_error hc
    exact ⟨k, List.mem_range.1 hk, he⟩

/-- `convert` stops only at an unwritten byte of a sampled pixel (R56, R134). -/
theorem convertImage_unwritten {s : State} {f : PixelFormat} {e : Fault} (h : convertImage s f = .error e) :
    ∃ x y k, x < 512 ∧ y < 512 ∧ k < bpp f ∧
      let a := pixelAddr s.imgW.toNat f (sampleIndex s.imgW.toNat x) (sampleIndex s.imgH.toNat y) + k
      s.img.readByte a = none ∧ e = .unwrittenRead .img a := by
  obtain ⟨a, ha, hp⟩ := convertImage_error h
  obtain ⟨i, _, hi⟩ := packedByte_error hp
  obtain ⟨k, hk, hr⟩ := readPixel_error (inverted_error.1 hi)
  exact ⟨_, _, k, by omega, by omega, hk, memReadByte_error hr⟩

/-- `convert` completes only if every sampled pixel is written (R134). -/
theorem sampledWritten_of_convertImage {s s' : State} {f : PixelFormat} (h : convertImage s f = .ok s') :
    SampledWritten s f := by
  intro x y hx hy
  obtain ⟨bytes, hc, _⟩ := convertImage_ok.1 h
  have hi : y * 64 + (511 - x) / 8 < (List.range bmpBytes).length := by simp [bmpBytes]; omega
  obtain ⟨b, _, hb⟩ := collect_getElem hc _ hi
  rw [List.getElem_range] at hb
  have hs := inverted_isOk.1 ⟨_, packedByte_column (by omega) hb⟩
  rwa [show 511 - (511 - x) = x by omega] at hs

/-- `unpack` completes only if every byte of PAYLOAD is written (R145). -/
theorem payload_written_of_unpackPayload {s s' : State} (h : unpackPayload s = .ok s') {a : Nat} (ha : a < 32768) :
    s.payload.readByte a ≠ none := by
  obtain ⟨bytes, hm, _⟩ := unpackPayload_ok.1 h
  obtain ⟨hl, hr⟩ := memRead_ok.1 hm
  have hra := hr a ha
  rw [Nat.zero_add] at hra
  change s.payload.readByte a = _ at hra
  rw [hra, ne_eq, List.getElem?_eq_none_iff, hl]
  exact Nat.not_le.2 ha

/-- `CONVERT`, and `UPLOAD_IMAGE` from Idle, stop where the conversion of their valid image does (R144, R218). -/
theorem exec_convertImage_fault {i : Instr} {s s1 : State} {f : PixelFormat} {e : Fault}
    (hacc : accept s = .go () s1) (hi : i = .convert ∨ (i = .uploadImage ∧ s1.session = .idle))
    (hv : validImage s1 = some f) (hc : convertImage s1 f = .error e) : exec i s = .fault e := by
  rcases hi with rfl | ⟨rfl, hs⟩
  · simp only [exec, execConvert, hacc, Run.go_andThen, hv, hc]
  · simp only [exec, execUploadImage, hacc, Run.go_andThen]
    rw [checked_allowed (by simp [hs]) (by simp [hs])]
    simp only [hv, hc]

/-- `UNPACK`, and `UPLOAD_RAW` from Idle, stop where the copy of their payload does (R146, R219). -/
theorem exec_unpackPayload_fault {i : Instr} {s s1 : State} {e : Fault}
    (hacc : accept s = .go () s1) (hi : i = .unpack ∨ (i = .uploadRaw ∧ s1.session = .idle))
    (hl : s1.payloadLen.toNat = 32768) (hu : unpackPayload s1 = .error e) : exec i s = .fault e := by
  have hv : validPayloadLen s1 = true := decide_eq_true hl
  rcases hi with rfl | ⟨rfl, hs⟩
  · simp only [exec, execUnpack, hacc, Run.go_andThen, hv, hu, if_true]
  · simp only [exec, execUploadRaw, hacc, Run.go_andThen]
    rw [checked_allowed (by simp [hs]) (by simp [hs])]
    simp only [hv, hu, if_true]

/-- Settles O17: the port reads the byte itself; the converter and `unpack` cannot complete, and stop only at an
unwritten byte they read. -/
theorem unwrittenReadFaults : Obligations.UnwrittenReadFaults := by
  refine ⟨fun _ _ => hostMemRead_fault, fun s f i hi hb hq hv hw => ?image, fun s a i hi hb hq hl ha hr => ?payload⟩
  case image =>
    obtain ⟨hacc, -⟩ := accept_quiet hb hq
    cases hc : convertImage { s with busy := true, gaps := s.gaps.drop 1 } f with
    | ok s' => exact absurd (sampledWritten_of_convertImage hc) hw
    | error e =>
      obtain ⟨x, y, k, hx, hy, hk, hr, rfl⟩ := convertImage_unwritten hc
      exact ⟨x, y, k, hx, hy, hk, hr, exec_convertImage_fault hacc hi hv hc⟩
  case payload =>
    obtain ⟨hacc, -⟩ := accept_quiet hb hq
    cases hu : unpackPayload { s with busy := true, gaps := s.gaps.drop 1 } with
    | ok s' => exact absurd hr (payload_written_of_unpackPayload hu ha)
    | error e =>
      obtain ⟨b, hb, hr, rfl⟩ := unpackPayload_error hu
      exact ⟨b, hb, hr, exec_unpackPayload_fault hacc hi hl hu⟩

/-! ### What an operation leaves alone -/

/-- Without a block reset in its gaps an operation ends through `finish`, as `Ends` says. -/
theorem exec_ends {i : Instr} {s t : State} (hn : NoBlockReset s) (h : exec i s = .next t) :
    ∃ s1 st k x sp m, AfterSteps { s with busy := true } s1 ∧ Ends i s s1 st k x sp m ∧
      t = finish st k { s1 with session := x, spent := sp, bmp := m } :=
  (exec_answered h).2.resolve_left fun hr => hr.1 hn

/-- No end of an operation clears SPENT (R23). -/
theorem Ends.spent_stays {i : Instr} {s s1 : State} {st : Status} {k : Nat} {x : Session} {sp : Bool} {m : Memory}
    (h : Ends i s s1 st k x sp m) (hs : s.spent = true) : sp = true := by
  cases h with
  | turnedAway => exact hs
  | done => simp [hs]
  | failed => exact hs

/-- The bitmap an operation ends with (R61, R65). -/
theorem Ends.bmpAfter {i : Instr} {s s1 : State} {st : Status} {k : Nat} {x : Session} {sp : Bool} {m : Memory}
    (h : Ends i s s1 st k x sp m) : BmpAfter i s m := by
  cases h with
  | turnedAway => exact .inl rfl
  | done _ _ hm => exact hm
  | failed _ _ _ _ hm => exact hm

/-- Only four operations write BMP (R65). -/
theorem BmpAfter.eq_of_not_writer {i : Instr} {s : State} {m : Memory} (h : BmpAfter i s m)
    (hi : i ∉ [Instr.convert, .unpack, .uploadImage, .uploadRaw]) : m = s.bmp :=
  h.resolve_right fun hw => hi hw.1

/-- No operation writes BMP from address 32768 on (R61). -/
theorem BmpAfter.readByte_of_le {i : Instr} {s : State} {m : Memory} (h : BmpAfter i s m) {a : Nat} (ha : 32768 ≤ a) :
    m.readByte a = s.bmp.readByte a := by
  rcases h with rfl | ⟨-, bytes, hl, rfl⟩
  · rfl
  · rw [Memory.readByte_writeBytes, if_neg (by omega)]

/-- The end of an operation does not clear SPENT (R23, R31). -/
theorem finish_spent_of_spent (st : Status) (c : Nat) {s : State} (h : s.spent = true) :
    (finish st c s).spent = true := by
  simp [h]

/-- The end of an operation issues no request but the release of a lost transport, after all others (R31). -/
theorem requests_prefix_finish (st : Status) (c : Nat) (s : State) : s.requests <+: (finish st c s).requests := by
  rw [finish_requests]
  split
  · exact List.prefix_append _ _
  · exact List.prefix_refl _

/-- Settles O48: the steps inside an operation leave alone what `AfterSteps` says, its end what `finish` does, and
between them only SESSION, SPENT and BMP take the values `Ends` gives. -/
theorem operationsFrame : Obligations.OperationsFrame := by
  intro i s t hn h
  obtain ⟨s1, st, k, x, sp, m, h1, he, rfl⟩ := exec_ends hn h
  have hm := he.bmpAfter
  refine ⟨?cfg, ?imgW, ?imgH, ?imgFmt, ?payloadLen, ?img, ?payload, ?inbox, ?bmp, ?outside, ?spent, ?lost, ?busy,
    ?stream, ?requests, ?reads⟩
  case cfg => rw [finish_cfg]; exact h1.cfg
  case imgW => rw [finish_imgW]; exact h1.imgW
  case imgH => rw [finish_imgH]; exact h1.imgH
  case imgFmt => rw [finish_imgFmt]; exact h1.imgFmt
  case payloadLen => rw [finish_payloadLen]; exact h1.payloadLen
  case img => rw [finish_img]; exact h1.img
  case payload => rw [finish_payload]; exact h1.payload
  case inbox => rw [finish_inbox]; exact h1.inbox
  case bmp =>
    intro hc hu hi hr
    rw [finish_bmp]
    exact hm.eq_of_not_writer (by simp [hc, hu, hi, hr])
  case outside => intro a ha; rw [finish_bmp]; exact hm.readByte_of_le ha
  case spent => exact fun hs => finish_spent_of_spent st k (he.spent_stays hs)
  case lost => intro hl; rw [finish_lost_field]; exact h1.lost_stays hl
  case busy => exact finish_busy st k _
  case stream => rw [finish_stream]; exact h1.stream_grows
  case requests =>
    exact h1.requests_grow.trans (requests_prefix_finish st k { s1 with session := x, spent := sp, bmp := m })
  case reads => rw [finish_reads]; exact h1.reads_grow

end Sys2Proof.Machine
end

section
/-! The statements about the operation words (30_encoding.md): the two fields of a word, the decoder on each kind of
word, and the step that runs the word written to HOP. -/

namespace Sys2Proof.Machine

open Sys2Proof.Laws Sys2Proof.Safety

/-! ### The fields of a word -/

/-- A word is made of its two fields (R70). -/
theorem hopWord_fields (w : HopWord) : hopWord (opField w) (argField w) = w :=
  (BitVec.extractLsb'_append_extractLsb'_eq_extractLsb' rfl).trans BitVec.extractLsb'_eq_self

/-- Field OP as a number (R70). -/
theorem opField_toNat (w : HopWord) : (opField w).toNat = w.toNat / 256 := by
  rw [opField, BitVec.extractLsb'_toNat, Nat.shiftRight_eq_div_pow]
  omega

/-- Field ARG as a number (R71). -/
theorem argField_toNat (w : HopWord) : (argField w).toNat = w.toNat % 256 := by
  rw [argField, BitVec.extractLsb'_toNat, Nat.shiftRight_zero]

/-- The decoder and the encoder meet at the two fields. -/
theorem decode_hopWord (op arg : Byte) : decode (hopWord op arg) = decodeFields op arg := by
  rw [decode, opField_hopWord, argField_hopWord]

/-! ### The decoder on each kind of word -/

/-- The words that are no operation (R73). -/
theorem isReserved_iff {op arg : Byte} : isReserved op arg = true ↔ op ≠ 0x22 ∧ (op ∉ plainOps ∨ arg ≠ 0) := by
  simp [isReserved, Classical.or_iff_not_imp_left]

/-- What the table gives for an OP is an operation of that OP without operand (R72). -/
theorem decodePlain_eq_some {op : Byte} {i : Instr} (h : decodePlain op = some i) :
    op ∈ plainOps ∧ i.wf = true ∧ opCode i = op ∧ argCode i = 0 := by
  rw [decodePlain] at h
  split at h <;> cases h
  all_goals
    next hop =>
      have e := BitVec.ofNat_toNat 8 op
      rw [hop, BitVec.setWidth_eq] at e
      subst e
      decide

/-- Every OP without operand has its row in the table (R72). -/
theorem decodePlain_isSome : ∀ op ∈ plainOps, (decodePlain op).isSome = true := by
  simp [plainOps, decodePlain]

/-- A word that is no operation decodes to the reserved row with its fields (R73). -/
theorem decodeFields_reserved {op arg : Byte} (h : isReserved op arg = true) :
    decodeFields op arg = .reserved op arg := by
  obtain ⟨hop, harg⟩ := isReserved_iff.1 h
  rw [decodeFields, if_neg hop]
  split_ifs with h0
  · have hno : decodePlain op = none := Option.eq_none_iff_forall_ne_some.2 fun i hi =>
      harg.resolve_right (· h0) (decodePlain_eq_some hi).1
    rw [hno, Option.getD_none]
  · rfl

/-- Every word is `START`, an operation without operand, or reserved (R72, R73). -/
theorem decodeFields_cases (op arg : Byte) :
    op = 0x22 ∨ (arg = 0 ∧ decodePlain op = some (decodeFields op arg)) ∨ isReserved op arg = true := by
  by_cases hr : isReserved op arg = true
  · exact .inr (.inr hr)
  by_cases hs : op = 0x22
  · exact .inl hs
  obtain ⟨hop, rfl⟩ : op ∈ plainOps ∧ arg = 0 := by
    rw [isReserved_iff] at hr
    tauto
  obtain ⟨i, hi⟩ := Option.isSome_iff_exists.1 (decodePlain_isSome op hop)
  exact .inr (.inl ⟨rfl, by rw [decodeFields, if_neg hs, if_pos rfl, hi, Option.getD_some]⟩)

/-- The instruction decoded from two fields is well-formed and has those fields. -/
theorem decodeFields_spec (op arg : Byte) : (decodeFields op arg).wf = true ∧
    opCode (decodeFields op arg) = op ∧ argCode (decodeFields op arg) = arg := by
  rcases decodeFields_cases op arg with rfl | ⟨rfl, h⟩ | h
  · exact ⟨rfl, rfl, rfl⟩
  · exact (decodePlain_eq_some h).2
  · rw [decodeFields_reserved h]
    exact ⟨h, rfl, rfl⟩

/-- Only the words that are no operation decode to the reserved row (R73). -/
theorem decodeFields_reserved_iff {op arg : Byte} :
    (∃ op' arg', decodeFields op arg = .reserved op' arg') ↔ isReserved op arg = true := by
  refine ⟨fun ⟨op', arg', h⟩ => ?_, fun h => ⟨op, arg, decodeFields_reserved h⟩⟩
  obtain ⟨hwf, hop, harg⟩ := decodeFields_spec op arg
  rw [h] at hwf hop harg
  rwa [← hop, ← harg]

/-! ### Decoding and encoding -/

/-- Settles O2: a reserved row keeps its fields, and every other row is read back from the table. -/
theorem decodeOfEncode : Obligations.DecodeOfEncode := by
  intro i hi
  rw [encode, decode_hopWord]
  cases i
  case reserved op arg => exact decodeFields_reserved hi
  all_goals rfl

/-- Encoding undoes decoding (R73). -/
theorem encode_decode (w : HopWord) : encode (decode w) = w := by
  obtain ⟨-, hop, harg⟩ := decodeFields_spec (opField w) (argField w)
  rw [encode, decode, hop, harg, hopWord_fields]

/-- Settles O1: each of the ten words is the encoding of the row it stands for. -/
theorem sampleWordsDecode : Obligations.SampleWordsDecode :=
  ⟨decodeOfEncode .openPort rfl, decodeOfEncode .home rfl, decodeOfEncode .pause rfl,
    decodeOfEncode (.start 0x40) rfl, decodeOfEncode .erase rfl, decodeOfEncode .uploadRaw rfl,
    decodeOfEncode .awaitDrain rfl, decodeOfEncode .unpack rfl, decodeOfEncode (.reserved 0x10 0x01) rfl,
    decodeOfEncode (.reserved 0xFF 0x00) rfl⟩

/-! ### The reserved row -/

/-- The OP values that R73 lists are those of no operation. -/
theorem reservedOp_iff (op : Byte) : ReservedOp op.toNat ↔ op ≠ 0x22 ∧ op ∉ plainOps := by
  simp only [plainOps, List.mem_cons, List.not_mem_nil, or_false]
  bv_omega

/-- The words that are no operation, in the numbers of R73. -/
theorem isReserved_fields_iff (w : HopWord) : isReserved (opField w) (argField w) = true ↔
    ReservedOp (w.toNat / 256) ∨ (w.toNat / 256 ≠ 0x22 ∧ w.toNat % 256 ≠ 0) := by
  have hop : opField w = 0x22 ↔ w.toNat / 256 = 0x22 := by rw [← opField_toNat, ← BitVec.toNat_inj]; rfl
  have harg : argField w = 0 ↔ w.toNat % 256 = 0 := by rw [← argField_toNat, ← BitVec.toNat_inj]; rfl
  rw [isReserved_iff, ← opField_toNat, reservedOp_iff, opField_toNat, ne_eq, ne_eq, hop, harg]
  tauto

/-- The end of an operation accepted in a quiet gap, with the session state it goes to: no transport that is still held
was lost (R31). -/
theorem finish_accepted {s : State} {x : Session} (hb : s.busy = false) (hl : s.lost = true → x = .disconnected)
    (st : Status) (c : Nat) :
    finish st c { s with session := x, busy := true, gaps := s.gaps.drop 1 } = finished s st c x := by
  rw [finish_calm, finished, ← hb]
  by_cases h : s.lost = true
  · exact .inl ((held_eq_false_iff _).2 (hl h))
  · exact .inr (by simpa using h)

/-- Issuing a word that is no operation raises InvalidOperation (R73). -/
theorem exec_reserved {s : State} (hs : Settled s) (hq : QuietGaps s 1) (op arg : Byte) :
    exec (.reserved op arg) s = .next (finished s .invalidOperation 0 s.session) := by
  obtain ⟨hb, hl⟩ := hs
  rw [exec, execReserved, (accept_quiet hb hq).1, Run.go_andThen, raiseError]
  exact congrArg _ (finish_accepted hb hl _ _)

/-- Settles O3: a word's decoding has the word's own fields, `decodeOfEncode` makes it the only one, and the reserved
row is told from the others by the fields. -/
theorem reservedWordsRaiseInvalidOperation : Obligations.ReservedWordsRaiseInvalidOperation := by
  refine ⟨fun w => ⟨(decodeFields_spec _ _).1, encode_decode w, fun i hi he => ?unique, ?reserved⟩,
    fun op arg s hs hq => exec_reserved hs hq op arg⟩
  case unique => rw [← he, decodeOfEncode i hi]
  case reserved => exact decodeFields_reserved_iff.trans (isReserved_fields_iff w)

/-! ### The next input -/

/-- A word written to HOP is the next operation (R70). -/
theorem step_word {s : State} {w : HopWord} {rest : List Input} (h : s.inbox = .regWrite 0 w.toNat :: rest) :
    step s = exec (decode w) { s with inbox := rest } := by
  rw [step_hopWrite w.isLt h, BitVec.ofNat_toNat, BitVec.setWidth_eq]

/-- Another input is taken as it is. -/
theorem step_other {s : State} {inp : Input} {rest : List Input} (h : s.inbox = inp :: rest)
    (hn : hopWrite inp = none) : step s = applyInput inp { s with inbox := rest } := by
  simp [step, fetch, h, hn]

/-- Without an input the state stays (R265). -/
theorem step_quiet {s : State} (h : s.inbox = []) : step s = .next s := by
  simp [step, fetch, h]

/-- Settles O59: by what the next input is; a placed word and a program of one operation are words written to HOP. -/
theorem stepRunsTheNextInput : Obligations.StepRunsTheNextInput := by
  refine fun s rest => ⟨fun w => step_word, fun inp => step_other, step_quiet, fun w => ?placed, fun i hi => ?program⟩
  case placed => exact step_word (s := s.withFetchWord 16 w.toNat) rfl
  case program =>
    have h := step_word (s := loadProgram [.op i] { s with inbox := [] }) (w := encode i) (rest := []) rfl
    rw [h, decodeOfEncode i hi]
    rfl

end Sys2Proof.Machine
end

section
/-! The statements about the command encoder (40_command_encoder.md): the parameterless frames, and the place of the
burn time in the two others. -/

namespace Sys2Proof.Machine

/-! ### The parameterless commands -/

/-- The commands without a burn time, in the order of their tags (R75). -/
def parameterlessCommands : List Command :=
  [.home, .center, .preview, .moveUp, .moveDown, .moveLeft, .moveRight, .pause, .reset, .erase]

/-- The configured frames are those of the parameterless commands, and `FRAME_START` (R10, R102 to R111). -/
theorem frames_eq_map_encodeCommand (p : Params) :
    p.frames = parameterlessCommands.map (encodeCommand p) ++ [p.frameStart] := rfl

/-- A parameterless command's frame is a configured one, whose length R10 bounds (R76). -/
theorem length_encodeCommand_of_parameterless (cfg : Config) {c : Command} (hc : c ∈ parameterlessCommands) :
    1 ≤ (encodeCommand cfg.params c).length ∧ (encodeCommand cfg.params c).length ≤ cfg.params.maxFrame := by
  obtain ⟨-, -, -, -, -, hframes, -, -⟩ := cfg.legal
  have hmem : encodeCommand cfg.params c ∈ cfg.params.frames := by
    rw [frames_eq_map_encodeCommand]
    exact List.mem_append_left _ (List.mem_map_of_mem hc)
  exact hframes _ hmem

/-- Settles O4: each frame is the encoder's row for its command, and R10 bounds the parameterless ones. -/
theorem commandFrames : Obligations.CommandFrames := fun cfg _ =>
  ⟨rfl, rfl, rfl, rfl, rfl, rfl, rfl, rfl, rfl, rfl, rfl, rfl, fun _ => length_encodeCommand_of_parameterless cfg⟩

/-! ### The burn time -/

/-- The Start frame, cut at the burn time (R77, R78). -/
theorem encodeCommand_start (p : Params) (v : Byte) :
    encodeCommand p (.start v) = p.btPrefix ++ v :: (p.btSuffix ++ p.frameStart) := by
  simp [encodeCommand, burnTimeFrame]

/-- Two Start frames differ by overwriting the one byte after `BT_PREFIX` (R114). -/
theorem encodeCommand_start_eq_set (p : Params) (v w : Byte) :
    encodeCommand p (.start v) = (encodeCommand p (.start w)).set p.btPrefix.length v := by
  simp [encodeCommand_start]

/-- The burn time stands just after `BT_PREFIX` (R114). -/
theorem getElem?_encodeCommand_start (p : Params) (v : Byte) :
    (encodeCommand p (.start v))[p.btPrefix.length]? = some v := by
  simp [encodeCommand_start]

/-- The SetBurnTime frame is the burn time between its two constant parts (R77). -/
theorem length_encodeCommand_setBurnTime (p : Params) (v : Byte) :
    (encodeCommand p (.setBurnTime v)).length = p.btPrefix.length + 1 + p.btSuffix.length := by
  simp [encodeCommand, burnTimeFrame]
  omega

/-- Settles O5: one Start frame is another with the byte after `BT_PREFIX` overwritten. -/
theorem burnTimePosition : Obligations.BurnTimePosition := by
  refine fun p v w => ⟨getElem?_encodeCommand_start p v, fun i hi => ?agree, ?startLength, ?setLength⟩
  case agree => rw [encodeCommand_start_eq_set p v w, List.getElem?_set_ne hi.symm]
  case startLength => rw [start_length, start_length]
  case setLength => rw [length_encodeCommand_setBurnTime, length_encodeCommand_setBurnTime]

end Sys2Proof.Machine
end

section
/-! The statements about the image converter (41_image_converter.md): Scale and the luminance as arithmetic, the bits of
the packed bytes from their source pixels, and the operations `CONVERT` and `UNPACK` in a quiet gap. -/

namespace Sys2Proof.Machine

open Sys2Proof.Safety

/-! ### Scale -/

/-- A bitmap coordinate samples inside the axis (R132). -/
theorem sampleIndex_lt {size x : Nat} (hs : 1 ≤ size) (hx : x ≤ 511) : sampleIndex size x < size :=
  Nat.div_lt_of_lt_mul (Nat.mul_lt_mul_of_pos_right (by omega) hs)

/-- The intermediate product of Scale on a 16-bit axis (R132). -/
theorem scaleProduct_lt (size : BitVec 16) {x : Nat} (hx : x ≤ 511) : (2 * x + 1) * size.toNat < 2 ^ 26 :=
  calc (2 * x + 1) * size.toNat ≤ 1023 * 65535 := Nat.mul_le_mul (by omega) (by omega)
    _ < 2 ^ 26 := by decide

/-- The bytes of a pixel inside the image lie inside the image's bytes (R53). -/
theorem pixelAddr_add_bpp_le {w h i j : Nat} (f : PixelFormat) (hi : i < w) (hj : j < h) :
    pixelAddr w f i j + bpp f ≤ w * h * bpp f := by
  have hpix : j * w + i + 1 ≤ w * h :=
    calc j * w + i + 1 ≤ (j + 1) * w := by rw [Nat.succ_mul]; omega
      _ ≤ w * h := by rw [Nat.mul_comm w]; exact Nat.mul_le_mul_right w hj
  calc pixelAddr w f i j + bpp f = (j * w + i + 1) * bpp f := (Nat.succ_mul _ _).symm
    _ ≤ w * h * bpp f := Nat.mul_le_mul_right _ hpix

/-- Settles O8: each size by the division it stands for. -/
theorem scaleCornerCases : Obligations.ScaleCornerCases := by
  intro x hx
  simp only [sampleIndex]
  refine ⟨?_, ?_, ?_, ?_, ?_, ?_, by decide, by decide⟩ <;> omega

/-- The products a bitmap coordinate and its mirror image sample add up to 1024 times the size. -/
theorem scaleProduct_add_mirror (size : Nat) {x : Nat} (hx : x ≤ 511) :
    (2 * x + 1) * size + (2 * (511 - x) + 1) * size = 1024 * size := by
  rw [← Nat.add_mul]
  congr 1
  omega

/-- An odd multiple of a size that 1024 does not divide leaves a rest. -/
theorem not_dvd_scaleProduct {size : Nat} (x : Nat) (h : ¬ 1024 ∣ size) : ¬ 1024 ∣ (2 * x + 1) * size := by
  have hc : Nat.Coprime (2 ^ 10) (2 * x + 1) := (Nat.coprime_two_left.2 ⟨x, rfl⟩).pow_left 10
  exact fun hd => h (hc.dvd_of_dvd_mul_left hd)

/-- Settles O9: the two products add up to `1024 × size` and neither is a multiple of 1024, so their quotients add up to
one less than the size. -/
theorem scaleCommutesWithMirror : Obligations.ScaleCommutesWithMirror := by
  refine ⟨fun size x _ hx hd => ?_, by decide, by decide⟩
  have hsum := scaleProduct_add_mirror size hx
  have hrest := not_dvd_scaleProduct x hd
  simp only [sampleIndex]
  omega

/-! ### Valid images -/

/-- The admitted formats are those of the codes 0 and 1 (R27). -/
theorem pixelFormat_eq_some {fmt : BitVec 8} {f : PixelFormat} :
    pixelFormat fmt = some f ↔
      (fmt.toNat = 0 ∨ fmt.toNat = 1) ∧ bpp f = if fmt.toNat = 0 then 1 else 3 := by
  by_cases h0 : fmt = 0
  · subst h0
    cases f <;> simp [pixelFormat, bpp]
  by_cases h1 : fmt = 1
  · subst h1
    cases f <;> simp [pixelFormat, bpp]
  have hcode : ¬(fmt.toNat = 0 ∨ fmt.toNat = 1) := by bv_omega
  rw [pixelFormat, if_neg h0, if_neg h1]
  simp [hcode]

/-- A valid image of a format meets the four conditions of R130 with the format's bytes for each pixel. -/
theorem validImage_eq_some {s : State} {f : PixelFormat} :
    validImage s = some f ↔
      (1 ≤ s.imgW.toNat ∧ s.imgW.toNat ≤ s.cfg.params.maxDim) ∧ (1 ≤ s.imgH.toNat ∧ s.imgH.toNat ≤ s.cfg.params.maxDim) ∧
        pixelFormat s.imgFmt = some f ∧ s.imgW.toNat * s.imgH.toNat * bpp f ≤ s.cfg.params.imgCap := by
  rw [validImage]
  cases hf : pixelFormat s.imgFmt with
  | none => simp
  | some g =>
    simp only [Option.some.injEq]
    split_ifs with hd hc
    · rw [Option.some.injEq]
      exact ⟨fun h => ⟨hd.1, hd.2, h, h ▸ hc⟩, fun ⟨_, _, h, _⟩ => h⟩
    · exact ⟨nofun, fun ⟨_, _, h, hcap⟩ => absurd (h ▸ hcap) hc⟩
    · exact ⟨nofun, fun ⟨hw, hh, _⟩ => absurd ⟨hw, hh⟩ hd⟩

/-- Settles O7: the sampled column and row are inside the image, and a valid image is inside the buffer. -/
theorem sampledPixelsAreInside : Obligations.SampledPixelsAreInside := by
  intro s f x y hv hx hy i j
  obtain ⟨⟨hw, -⟩, ⟨hh, -⟩, -, hcap⟩ := validImage_eq_some.1 hv
  have hi : i < s.imgW.toNat := sampleIndex_lt hw hx
  have hj : j < s.imgH.toNat := sampleIndex_lt hh hy
  have hin := pixelAddr_add_bpp_le f hi hj
  exact ⟨rfl, rfl, rfl, Nat.le_sub_one_of_lt hi, Nat.le_sub_one_of_lt hj, scaleProduct_lt _ hx, scaleProduct_lt _ hy,
    hin, hin.trans hcap⟩

/-- `CONVERT` of an invalid image, issued in a quiet gap, reports it (R144). -/
theorem exec_convert_invalid {s : State} (hs : Settled s) (hq : QuietGaps s 1) (hv : validImage s = none) :
    exec .convert s = .next (finished s .invalidImage 0 s.session) := by
  obtain ⟨hb, hl⟩ := hs
  have hv' : validImage { s with busy := true, gaps := s.gaps.drop 1 } = none := hv
  simp only [exec, execConvert, (accept_quiet hb hq).1, Run.go_andThen, hv', raiseError_eq]
  exact congrArg _ (finish_accepted hb hl _ _)

/-- Settles O6: `validImage` answers a format just under the four conditions, and where it answers none `CONVERT` only
raises the error. -/
theorem invalidImageIsRejected : Obligations.InvalidImageIsRejected := by
  refine fun s => ⟨?valid, exec_convert_invalid⟩
  case valid =>
    simp only [Option.isSome_iff_exists, validImage_eq_some, pixelFormat_eq_some]
    constructor
    · rintro ⟨f, hw, hh, ⟨hf, hb⟩, hcap⟩
      exact ⟨hw, hh, hf, hb ▸ hcap⟩
    · rintro ⟨hw, hh, hf, hcap⟩
      obtain ⟨f, hb⟩ : ∃ f, bpp f = if s.imgFmt.toNat = 0 then 1 else 3 := by
        split_ifs
        · exact ⟨.gray8, rfl⟩
        · exact ⟨.rgb888, rfl⟩
      exact ⟨f, hw, hh, ⟨hf, hb⟩, hb.symm ▸ hcap⟩

/-! ### Luminance -/

/-- The weights add up to 1000, so a gray color pixel has its own value (R136). -/
theorem luminance_rgb_gray (v : Byte) : luminance (.rgb v v v) = v.toNat := by
  simp only [luminance]
  omega

/-- The intermediate sum of a luminance (R136). -/
theorem luminanceSum_le (r g b : Byte) : 299 * r.toNat + 587 * g.toNat + 114 * b.toNat + 500 ≤ 255500 := by
  omega

/-- A luminance fits a byte (R136). -/
theorem luminance_le (p : Pixel) : luminance p ≤ 255 := by
  cases p with
  | gray g => exact Nat.le_of_lt_succ g.isLt
  | rgb r g b => exact (Nat.div_le_div_right (luminanceSum_le r g b)).trans (by decide)

/-- Settles O10: the formula is the definition, and its weights bound it. -/
theorem luminanceOfPixels : Obligations.LuminanceOfPixels :=
  ⟨fun _ => rfl, fun _ _ _ => rfl, luminance_le, luminance_rgb_gray, luminanceSum_le, rfl, rfl, rfl⟩

/-! ### The bits of the bitmap -/

/-- Settles O11: the source pixel of column x is the scaled pixel of column `511 - x`. -/
theorem bitmapClosedForm : Obligations.BitmapClosedForm := by
  intro s f x y p _ _ hp
  have hs : scaled s f (511 - x) y = .ok p := hp
  rw [inverted_eq, hs]

/-- A packed byte's bit of column x compares the luminance of its source pixel (R140, R141). -/
theorem packedByte_sourcePixel {s : State} {f : PixelFormat} {x y : Nat} {b : Byte} (hx : x < 512)
    (h : packedByte s f (y * 64 + x / 8) = .ok b) :
    ∃ p, SourcePixel s f x y p ∧
      columnBit s.cfg.params.bitOrder b x = decide (luminance p < s.cfg.params.threshold) := by
  have hbit := packedByte_column hx h
  obtain ⟨p, hp⟩ := inverted_isOk.1 ⟨_, hbit⟩
  rw [inverted_eq, hp] at hbit
  exact ⟨p, hp, (Except.ok.inj hbit).symm⟩

/-- The byte that `convert` packs for a BMP address (R141). -/
theorem collect_packedByte_getElem {s : State} {f : PixelFormat} {bytes : List Byte}
    (h : collect (packedByte s f) (List.range bmpBytes) = .ok bytes) {a : Nat} (ha : a < 32768) :
    ∃ b, bytes[a]? = some b ∧ packedByte s f a = .ok b := by
  obtain ⟨b, hb, hp⟩ := collect_getElem h a (by simpa [bmpBytes] using ha)
  exact ⟨b, hb, by rwa [List.getElem_range] at hp⟩

/-- `convert` packs one byte for each BMP address (R141). -/
theorem collect_packedByte_length {s : State} {f : PixelFormat} {bytes : List Byte}
    (h : collect (packedByte s f) (List.range bmpBytes) = .ok bytes) : bytes.length = 32768 := by
  simpa [bmpBytes] using collect_length h

/-- The packed bytes are the bitmap of the image (R140, R141). -/
theorem isBitmapOf_collect_packedByte {s : State} {f : PixelFormat} {bytes : List Byte}
    (h : collect (packedByte s f) (List.range bmpBytes) = .ok bytes) : IsBitmapOf s f bytes := by
  refine ⟨collect_packedByte_length h, fun x y hx hy => ?_⟩
  obtain ⟨b, hb, hp⟩ := collect_packedByte_getElem h (a := y * 64 + x / 8) (by omega)
  obtain ⟨p, hs, hc⟩ := packedByte_sourcePixel hx hp
  exact ⟨b, p, hb, hs, hc⟩

/-- A whole bitmap written to BMP is read back below address 32768, and nothing changes from there on (R61). -/
theorem readByte_memWrite_bitmap (s : State) {bytes : List Byte} (hl : bytes.length = 32768) :
    (∀ a, a < 32768 → (memWrite s .bmp 0 bytes).bmp.readByte a = bytes[a]?) ∧
      ∀ a, 32768 ≤ a → (memWrite s .bmp 0 bytes).bmp.readByte a = s.bmp.readByte a := by
  refine ⟨fun a ha => ?_, fun a ha => ?_⟩
  · rw [readByte_memWrite_bmp, if_pos (hl ▸ ha)]
  · rw [readByte_memWrite_bmp, if_neg (by omega)]

/-- Settles O12: `convert` writes the packed bytes to BMP, and each holds its eight pixels. -/
theorem packPlacesEveryPixel : Obligations.PackPlacesEveryPixel := by
  intro s s' f h
  obtain ⟨bytes, hc, rfl⟩ := convertImage_ok.1 h
  obtain ⟨hin, hout⟩ := readByte_memWrite_bitmap s (collect_packedByte_length hc)
  refine ⟨rfl, hout, fun x y hx hy => ?_⟩
  obtain ⟨b, hb, hp⟩ := collect_packedByte_getElem hc (a := y * 64 + x / 8) (by omega)
  exact ⟨b, (hin _ (by omega)).trans hb, packedByte_column hx hp⟩

/-! ### `CONVERT` and `UNPACK` in a quiet gap -/

/-- `CONVERT` of a valid image, issued in a quiet gap, writes its packed bytes to BMP (R142, R144). -/
theorem exec_convert_done {s : State} {f : PixelFormat} {bytes : List Byte} (hs : Settled s) (hq : QuietGaps s 1)
    (hv : validImage s = some f) (hc : collect (packedByte s f) (List.range bmpBytes) = .ok bytes) :
    exec .convert s = .next (finished (memWrite s .bmp 0 bytes) .ok 0 s.session) := by
  obtain ⟨hb, hl⟩ := hs
  have hv' : validImage { s with busy := true, gaps := s.gaps.drop 1 } = some f := hv
  have hc' : convertImage { s with busy := true, gaps := s.gaps.drop 1 } f = .ok _ :=
    convertImage_ok.2 ⟨bytes, hc, rfl⟩
  simp only [exec, execConvert, (accept_quiet hb hq).1, Run.go_andThen, hv', hc']
  exact congrArg _ (finish_accepted (s := memWrite s .bmp 0 bytes) hb hl _ _)

/-- Settles O13: written source pixels give the packed bytes, which are the image's bitmap. -/
theorem convertCompletes : Obligations.ConvertCompletes := by
  intro s f hs hq hv hw
  obtain ⟨bytes, hc⟩ := collect_isOk (packedByte s f) (List.range bmpBytes) fun a ha =>
    packedByte_isOk (List.mem_range.1 ha) fun x y _ hy => inverted_isOk.2 (hw (511 - x) y (by omega) hy)
  obtain ⟨hin, hout⟩ := readByte_memWrite_bitmap s (collect_packedByte_length hc)
  exact ⟨_, bytes, exec_convert_done hs hq hv hc, rfl, isBitmapOf_collect_packedByte hc, hin, hout⟩

/-- `UNPACK` of a written payload of the right length, issued in a quiet gap, writes it to BMP (R145, R146). -/
theorem exec_unpack_done {s : State} {bytes : List Byte} (hs : Settled s) (hq : QuietGaps s 1)
    (hl : s.payloadLen.toNat = 32768) (hm : memRead s .payload 0 bmpBytes = .ok bytes) :
    exec .unpack s = .next (finished (memWrite s .bmp 0 bytes) .ok 0 s.session) := by
  obtain ⟨hb, hlost⟩ := hs
  have hv : validPayloadLen { s with busy := true, gaps := s.gaps.drop 1 } = true := decide_eq_true hl
  have hu : unpackPayload { s with busy := true, gaps := s.gaps.drop 1 } = .ok _ :=
    unpackPayload_ok.2 ⟨bytes, hm, rfl⟩
  simp only [exec, execUnpack, (accept_quiet hb hq).1, Run.go_andThen, hv, hu, if_true]
  exact congrArg _ (finish_accepted (s := memWrite s .bmp 0 bytes) hb hlost _ _)

/-- `UNPACK` with another payload length, issued in a quiet gap, reports it (R145, R146). -/
theorem exec_unpack_rejected {s : State} (hs : Settled s) (hq : QuietGaps s 1) (hl : s.payloadLen.toNat ≠ 32768) :
    exec .unpack s = .next (finished s .invalidPayloadSize 0 s.session) := by
  obtain ⟨hb, hlost⟩ := hs
  have hv : validPayloadLen { s with busy := true, gaps := s.gaps.drop 1 } = false := decide_eq_false hl
  simp only [exec, execUnpack, (accept_quiet hb hq).1, Run.go_andThen, hv, raiseError_eq, Bool.false_eq_true, if_false]
  exact congrArg _ (finish_accepted hb hlost _ _)

/-- `MemRead` of written bytes succeeds (R14, R56). -/
theorem memRead_isOk {s : State} {sp : Space} {a n : Nat}
    (h : ∀ x, a ≤ x → x < a + n → ((s.buffer sp).readByte x).isSome = true) :
    ∃ bytes, memRead s sp a n = .ok bytes := by
  refine collect_isOk _ _ fun x hx => ?_
  obtain ⟨hle, hlt⟩ := List.mem_range'_1.1 hx
  obtain ⟨b, hb⟩ := Option.isSome_iff_exists.1 (h x hle hlt)
  exact ⟨b, memReadByte_of_some hb⟩

/-- Settles O14: a written payload is read whole and written to BMP. -/
theorem unpackCompletes : Obligations.UnpackCompletes := by
  refine fun s hs hq => ⟨fun hl hw => ?copied, exec_unpack_rejected hs hq⟩
  case copied =>
    obtain ⟨bytes, hm⟩ := memRead_isOk (s := s) (sp := .payload) (a := 0) (n := bmpBytes)
      fun x _ hx => hw x (by simpa [bmpBytes] using hx)
    obtain ⟨hlen, hread⟩ := memRead_ok.1 hm
    obtain ⟨hin, hout⟩ := readByte_memWrite_bitmap s hlen
    refine ⟨_, exec_unpack_done hs hq hl hm, rfl, fun a ha => ?_, hout⟩
    have hr := hread a ha
    rw [Nat.zero_add] at hr
    exact (hin a ha).trans hr.symm

/-! ### The laws of the bitmap -/

/-- A byte that holds the same bit for all its eight columns consists of that bit, in both bit orders (R141). -/
theorem eq_fill_of_columnBit {order : BitOrder} {b : Byte} {v : Bool} (h : ∀ k, k < 8 → columnBit order b k = v) :
    b = BitVec.fill 8 v := by
  refine BitVec.eq_of_getLsbD_eq fun i hi => ?_
  rw [BitVec.getLsbD_fill]
  cases order with
  | msbFirst =>
    have hk := h (7 - i) (by omega)
    rw [columnBit, show 7 - (7 - i) % 8 = i by omega] at hk
    simpa [hi] using hk
  | lsbFirst =>
    have hk := h i hi
    rw [columnBit, Nat.mod_eq_of_lt hi] at hk
    simpa [hi] using hk

/-- `convert` of an image whose sampled pixels all fall on one side of the threshold fills BMP with one byte (R147). -/
theorem readByte_convertImage_uniform {s s' : State} {f : PixelFormat} {v : Bool} (h : convertImage s f = .ok s')
    (hv : ∀ x y p, x < 512 → y < 512 → scaled s f x y = .ok p → decide (luminance p < s.cfg.params.threshold) = v)
    {a : Nat} (ha : a < 32768) : s'.bmp.readByte a = some (BitVec.fill 8 v) := by
  obtain ⟨bytes, hc, rfl⟩ := convertImage_ok.1 h
  obtain ⟨hl, hbits⟩ := isBitmapOf_collect_packedByte hc
  have hget : bytes[a]? = some bytes[a] := List.getElem?_eq_getElem (hl ▸ ha)
  rw [(readByte_memWrite_bitmap s hl).1 a ha, hget]
  refine congrArg some (eq_fill_of_columnBit (order := s.cfg.params.bitOrder) fun k hk => ?_)
  obtain ⟨b, p, hb, hp, hbit⟩ := hbits (8 * (a % 64) + k) (a / 64) (by omega) (by omega)
  rw [show a / 64 * 64 + (8 * (a % 64) + k) / 8 = a by omega, hget, Option.some.injEq] at hb
  have hcol : columnBit s.cfg.params.bitOrder b (8 * (a % 64) + k) = columnBit s.cfg.params.bitOrder b k := by
    simp only [columnBit, Nat.mul_add_mod]
  rw [hb, ← hcol, hbit]
  exact hv _ _ p (by omega) (by omega) hp

/-- `UNPACK`, issued in a quiet gap, reports InvalidPayloadSize just for a payload length other than 32768 (R147). -/
theorem exec_unpack_invalidPayloadSize_iff {s : State} (hs : Settled s) (hq : QuietGaps s 1) :
    (∃ t, exec .unpack s = .next t ∧ t.status = .invalidPayloadSize) ↔ s.payloadLen.toNat ≠ 32768 := by
  constructor
  · rintro ⟨t, ht, hst⟩ hl
    cases hu : unpackPayload { s with busy := true, gaps := s.gaps.drop 1 } with
    | ok s' =>
      obtain ⟨bytes, hm, -⟩ := unpackPayload_ok.1 hu
      rw [exec_unpack_done hs hq hl hm, Host.Outcome.next.injEq] at ht
      subst ht
      cases hst
    | error e =>
      obtain ⟨hacc, -⟩ := accept_quiet hs.1 hq
      rw [exec_unpackPayload_fault hacc (.inl rfl) hl hu] at ht
      cases ht
  · exact fun hl => ⟨_, exec_unpack_rejected hs hq hl, rfl⟩

/-- Settles O15: `packedBytes` answers the bytes just written, and the bits of a uniform image fill every byte. -/
theorem bitmapLaws : Obligations.BitmapLaws := by
  refine ⟨fun s s' f h => ?length, fun s s' h => ?roundTrip, fun s => exec_unpack_invalidPayloadSize_iff,
    fun s s' f h => ⟨fun hlight a ha => ?light, fun hdark a ha => ?dark⟩⟩
  case length =>
    obtain ⟨bytes, hl, rfl⟩ : ∃ bytes : List Byte, bytes.length = 32768 ∧ s' = memWrite s .bmp 0 bytes := by
      rcases h with h | h
      · obtain ⟨bytes, hc, he⟩ := convertImage_ok.1 h
        exact ⟨bytes, collect_packedByte_length hc, he⟩
      · obtain ⟨bytes, hm, he⟩ := unpackPayload_ok.1 h
        exact ⟨bytes, (memRead_ok.1 hm).1, he⟩
    exact ⟨bytes, packedBytes_memWrite s hl, hl⟩
  case roundTrip =>
    obtain ⟨bytes, hm, rfl⟩ := unpackPayload_ok.1 h
    rw [packedBytes_memWrite s (memRead_ok.1 hm).1]
    exact hm.symm
  case light =>
    exact readByte_convertImage_uniform (v := false) h
      (fun x y p hx hy hp => decide_eq_false (Nat.not_lt.2 (hlight x y p hx hy hp))) ha
  case dark =>
    exact readByte_convertImage_uniform (v := true) h (fun x y p hx hy hp => decide_eq_true (hdark x y p hx hy hp)) ha

/-! ### What `convert` reads -/

/-- The bytes of the sampled pixels are the same in two states (R133). -/
def SameSampledBytes (s1 s2 : State) (f : PixelFormat) : Prop :=
  ∀ x y k, x < 512 → y < 512 → k < bpp f →
    let a := pixelAddr s1.imgW.toNat f (sampleIndex s1.imgW.toNat x) (sampleIndex s1.imgH.toNat y) + k
    s1.img.readByte a = s2.img.readByte a

/-- A pixel is read from its own bytes (R134). -/
theorem readPixel_congr {s1 s2 : State} {f : PixelFormat} {i j : Nat} (hw : s1.imgW = s2.imgW)
    (h : ∀ k, k < bpp f → s1.img.readByte (pixelAddr s1.imgW.toNat f i j + k) =
      s2.img.readByte (pixelAddr s1.imgW.toNat f i j + k)) : readPixel s1 f i j = readPixel s2 f i j := by
  have hb : ∀ k, k < bpp f → memReadByte s1 .img (pixelAddr s1.imgW.toNat f i j + k) =
      memReadByte s2 .img (pixelAddr s1.imgW.toNat f i j + k) := fun k hk => by
    simp only [memReadByte, State.buffer, h k hk]
  cases f with
  | gray8 =>
    have h0 := hb 0 (by decide)
    rw [Nat.add_zero] at h0
    simp only [readPixel, ← hw, h0]
  | rgb888 =>
    have h0 := hb 0 (by decide)
    rw [Nat.add_zero] at h0
    simp only [readPixel, ← hw, h0, hb 1 (by decide), hb 2 (by decide)]

/-- `collect` asks the computation only about the elements of its list. -/
theorem collect_congr {ε α β : Type} {f g : α → Except ε β} {l : List α} (h : ∀ a ∈ l, f a = g a) :
    collect f l = collect g l := by
  induction l with
  | nil => rfl
  | cons a l ih => rw [collect, collect, h a List.mem_cons_self, ih fun x hx => h x (List.mem_cons_of_mem _ hx)]

section
variable {s1 s2 : State} {f : PixelFormat} (hcfg : s1.cfg = s2.cfg) (hw : s1.imgW = s2.imgW) (hh : s1.imgH = s2.imgH)
  (hread : SameSampledBytes s1 s2 f)
include hw hh hread

/-- The same sampled bytes give the same scaled pixels, or the same faults (R135). -/
theorem scaled_congr {x y : Nat} (hx : x < 512) (hy : y < 512) : scaled s1 f x y = scaled s2 f x y := by
  rw [scaled, scaled, ← hw, ← hh]
  exact readPixel_congr hw fun k hk => hread x y k hx hy hk

include hcfg

/-- The same sampled bytes give the same packed bytes, or the same faults (R135, R141). -/
theorem packedByte_congr {a : Nat} (ha : a < 32768) : packedByte s1 f a = packedByte s2 f a := by
  have hbits : collect (fun k => inverted s1 f (8 * (a % 64) + k) (a / 64)) (List.range 8) =
      collect (fun k => inverted s2 f (8 * (a % 64) + k) (a / 64)) (List.range 8) := collect_congr fun k _ => by
    rw [inverted_eq, inverted_eq, scaled_congr hw hh hread (by omega) (by omega), hcfg]
  rw [packedByte, packedByte, hbits, hcfg]

/-- The same sampled bytes give the same bitmap, or the same fault. -/
theorem collect_packedByte_congr :
    collect (packedByte s1 f) (List.range bmpBytes) = collect (packedByte s2 f) (List.range bmpBytes) :=
  collect_congr fun _ ha => packedByte_congr hcfg hw hh hread (List.mem_range.1 ha)

end

/-- `convert` faults just where the packing of the bytes does. -/
theorem convertImage_eq_error {s : State} {f : PixelFormat} {e : Fault} :
    convertImage s f = .error e ↔ collect (packedByte s f) (List.range bmpBytes) = .error e := by
  unfold convertImage
  cases collect (packedByte s f) (List.range bmpBytes) <;> simp

/-- Settles O16: both states pack the same bytes, and `convert` writes them or has their fault. -/
theorem convertReadsOnlySampledPixels : Obligations.ConvertReadsOnlySampledPixels := by
  intro s1 s2 f hcfg hw hh hread
  have hpack := collect_packedByte_congr hcfg hw hh hread
  refine ⟨fun t1 h1 => ?bitmap, fun e h1 => ?fault⟩
  case bitmap =>
    obtain ⟨bytes, hc, rfl⟩ := convertImage_ok.1 h1
    have hl := collect_packedByte_length hc
    refine ⟨_, convertImage_ok.2 ⟨bytes, hpack.symm.trans hc, rfl⟩, fun a ha => ?_⟩
    rw [(readByte_memWrite_bitmap s1 hl).1 a ha, (readByte_memWrite_bitmap s2 hl).1 a ha]
  case fault => exact convertImage_eq_error.2 (hpack.symm.trans (convertImage_eq_error.1 h1))

end Sys2Proof.Machine
end

section
/-! The chunk split (42_transmission.md, R170, R171): the chunk at an index as bytes of the payload, and the laws of the
split. -/

namespace Sys2Proof.Machine

/-! ### One chunk -/

/-- A chunk is what a limit of c bytes leaves of the payload from its own offset on (R170). -/
theorem chunk_eq_take_drop (c : Nat) (p : List Byte) (i : Nat) : chunk c p i = (p.drop (i * c)).take c := by
  rw [List.take_eq_take_min, List.length_drop, chunk, slice]

/-- The length of a chunk (R170). -/
@[simp] theorem chunk_length (c : Nat) (p : List Byte) (i : Nat) :
    (chunk c p i).length = min c (p.length - i * c) := by
  rw [chunk_eq_take_drop, List.length_take, List.length_drop]

/-- The bytes of one chunk more. -/
theorem take_append_chunk (c : Nat) (p : List Byte) (i : Nat) :
    p.take (i * c) ++ chunk c p i = p.take ((i + 1) * c) := by
  rw [chunk_eq_take_drop, Nat.add_mul, Nat.one_mul, List.take_add]

/-- A chunk in front of another is full (R170). -/
theorem chunk_length_of_succ_lt {c : Nat} {p : List Byte} {i : Nat} (hc : 1 ≤ c) (h : i + 1 < chunkCount c p.length) :
    (chunk c p i).length = c := by
  have hlt := (lt_chunkCount hc).1 h
  rw [Nat.add_mul, Nat.one_mul] at hlt
  rw [chunk_length]
  omega

/-! ### All chunks -/

@[simp] theorem chunks_length (c : Nat) (p : List Byte) : (chunks c p).length = chunkCount c p.length := by
  simp [chunks]

/-- A chunk of the payload stands at an index below the count. -/
theorem mem_chunks {c : Nat} {p q : List Byte} : q ∈ chunks c p ↔ ∃ i < chunkCount c p.length, chunk c p i = q := by
  simp [chunks]

/-- All chunks, as so many of the first ones. -/
theorem take_chunkCount_chunks (c : Nat) (p : List Byte) : (chunks c p).take (chunkCount c p.length) = chunks c p :=
  List.take_of_length_le (chunks_length c p).le

/-- All bytes, as those of so many chunks. -/
theorem take_chunkCount_mul {c : Nat} (p : List Byte) (hc : 1 ≤ c) : p.take (chunkCount c p.length * c) = p :=
  List.take_of_length_le (le_chunkCount_mul _ hc)

/-- The first i chunks are the first `i × c` bytes (R171). -/
theorem chunks_take_flatten {c : Nat} {p : List Byte} : ∀ {i : Nat}, i ≤ chunkCount c p.length →
    ((chunks c p).take i).flatten = p.take (i * c) := by
  intro i
  induction i with
  | zero => simp
  | succ i ih =>
    intro hi
    rw [chunks_take_succ hi, List.flatten_append, ih (by omega), List.flatten_singleton, take_append_chunk]

/-- The chunks concatenate to the payload (R171). -/
theorem chunks_flatten {c : Nat} (p : List Byte) (hc : 1 ≤ c) : (chunks c p).flatten = p := by
  rw [← take_chunkCount_chunks, chunks_take_flatten le_rfl, take_chunkCount_mul p hc]

/-- Every chunk has 1 to c bytes (R171). -/
theorem length_of_mem_chunks {c : Nat} {p q : List Byte} (hc : 1 ≤ c) (h : q ∈ chunks c p) :
    1 ≤ q.length ∧ q.length ≤ c := by
  obtain ⟨i, hi, rfl⟩ := mem_chunks.1 h
  have hlt := (lt_chunkCount hc).1 hi
  rw [chunk_length]
  omega

/-- The last chunk has what the others leave (R171). -/
theorem chunk_length_last {c : Nat} {p : List Byte} (hc : 1 ≤ c) (h : 0 < chunkCount c p.length) :
    (chunk c p (chunkCount c p.length - 1)).length = p.length - (chunkCount c p.length - 1) * c := by
  obtain ⟨n, hn⟩ := Nat.exists_eq_add_of_lt h
  have hle := le_chunkCount_mul p.length hc
  rw [hn, Nat.add_mul, Nat.one_mul] at hle
  rw [chunk_length, hn]
  simp only [Nat.add_sub_cancel]
  omega

/-- An empty payload has no chunk (R171). -/
theorem chunks_nil {c : Nat} (hc : 1 ≤ c) : chunks c [] = [] := by
  have h := chunkCount_le 0 hc
  rw [← List.length_eq_zero_iff, chunks_length]
  simpa using h

/-- A payload of at most c bytes is one chunk (R171). -/
theorem chunks_of_length_le {c : Nat} {p : List Byte} (hc : 1 ≤ c) (hp : p.length ≤ c) (hne : p ≠ []) :
    chunks c p = [p] := by
  have hpos := List.length_pos_iff.2 hne
  have h0 : 0 < chunkCount c p.length := (lt_chunkCount hc).2 (by omega)
  have h1 : ¬ 1 < chunkCount c p.length := fun h => absurd ((lt_chunkCount hc).1 h) (by omega)
  have hone : chunkCount c p.length = 1 := by omega
  have hwhole : chunk c p 0 = p := by simp [chunk_eq_take_drop, List.take_of_length_le hp]
  rw [chunks, hone, List.range_one, List.map_singleton, hwhole]

/-- Where c divides the length, every chunk is full. -/
theorem length_of_mem_chunks_of_dvd {c : Nat} {p q : List Byte} (hc : 1 ≤ c) (hd : c ∣ p.length) (h : q ∈ chunks c p) :
    q.length = c := by
  obtain ⟨n, hn⟩ := hd
  obtain ⟨i, hi, rfl⟩ := mem_chunks.1 h
  have hlt := (lt_chunkCount hc).1 hi
  have hle : c ≤ p.length - i * c := by
    rw [hn, Nat.mul_comm c n] at hlt ⊢
    rw [← Nat.sub_mul]
    exact Nat.le_mul_of_pos_left c (by have := Nat.lt_of_mul_lt_mul_right hlt; omega)
  rw [chunk_length, Nat.min_eq_left hle]

/-- Settles O18: each law by its lemma, and the numbers by evaluation. -/
theorem chunkLaws : Obligations.ChunkLaws := by
  refine ⟨fun c p hc => ⟨chunks_flatten p hc, chunks_length c p, fun q => length_of_mem_chunks hc,
    fun i => chunk_length_of_succ_lt hc, chunk_length_last hc, ?_, chunks_of_length_le hc⟩, fun p hp => ?_⟩
  · rintro rfl
    exact chunks_nil hc
  · refine ⟨rfl, ?_, rfl, fun q => length_of_mem_chunks_of_dvd (by decide) (by rw [hp]; decide), rfl, ?_, rfl⟩ <;>
      simp [hp]

end Sys2Proof.Machine
end

section
/-! Sends whose answers are known (42_transmission.md, R172 to R176, R253): the loop by what its write answered, a send
from the chunk at which something happens, and the exact state it leaves. -/

namespace Sys2Proof.Machine

open Sys2Proof.Safety

/-! ### LOST stops the requests -/

/-- With LOST = 1 a send that has bytes left fails at once (R176). -/
theorem sendLoop_of_lost {p : List Byte} {s : State} (fuel : Nat) (ho : s.txOff < p.length) (hl : s.lost = true) :
    sendLoop p (fuel + 1) s = .go (.failed s.txSent) s := by
  rw [sendLoop, if_pos ho]
  simp only [hl, if_true]

/-- Without `PACE_DRAIN` the pacing drain does nothing (R175). -/
theorem paceDrain_unpaced {s : State} (hp : s.cfg.params.paceDrain = false) : paceDrain s = .go true s := by
  simp [paceDrain, hp]

/-- With `PACE_DRAIN` and LOST = 0 the pacing drain is a `TxDrain` (R175). -/
theorem paceDrain_paced {s : State} (hp : s.cfg.params.paceDrain = true) (hl : s.lost = false) :
    paceDrain s = txDrain s := by
  simp [paceDrain, hp, hl]

/-- With LOST = 1 the pacing drain fails (R176). -/
theorem paceDrain_of_lost {s : State} (hp : s.cfg.params.paceDrain = true) (hl : s.lost = true) :
    paceDrain s = .go false s := by
  simp [paceDrain, hp, hl]

/-- With LOST = 1 awaitDrain issues nothing (R180). -/
theorem awaitDrain_of_lost {s : State} (hl : s.lost = true) : awaitDrain s = .go false s := by
  simp [awaitDrain, hl]

/-- Settles O24: each of the three looks at LOST before it requests anything. -/
theorem lossStopsRequests : Obligations.LossStopsRequests :=
  fun _ fuel _ hl => ⟨fun ho => sendLoop_of_lost fuel ho hl, fun hp => paceDrain_of_lost hp hl, awaitDrain_of_lost hl⟩

/-! ### One round of the loop, by what the write answered -/

section
variable {p : List Byte} {s s1 : State} {n : Nat} (fuel : Nat) (ho : s.txOff < p.length) (hl : s.lost = false)
  (hn : min s.cfg.params.chunkSize (p.length - s.txOff) = n)
include ho hl hn

/-- A write in which the step ends is the end of the send. -/
theorem sendLoop_writeStops {o : Result} (hw : txWrite (slice p s.txOff n) s = .stop o) :
    sendLoop p (fuel + 1) s = .stop o := by
  rw [sendLoop, if_pos ho]
  simp [hl, hn, hw]

/-- A write answered `Err` ends the send (R174). -/
theorem sendLoop_writeError (hw : txWrite (slice p s.txOff n) s = .go none s1) :
    sendLoop p (fuel + 1) s = .go (.failed s1.txSent) s1 := by
  rw [sendLoop, if_pos ho]
  simp [hl, hn, hw]

/-- A short write counts its bytes and ends the send (R173). -/
theorem sendLoop_shortWrite {m : Nat} (hw : txWrite (slice p s.txOff n) s = .go (some m) s1) (hm : m < n) :
    sendLoop p (fuel + 1) s = .go (.failed (s1.txSent + m)) (setCursor s1.txOff (s1.txSent + m) s1) := by
  rw [sendLoop, if_pos ho]
  simp [hl, hn, hw, hm]

/-- After a whole write the cursor moves and the pacing drain decides whether the send goes on (R172, R175). -/
theorem sendLoop_wholeWrite (hw : txWrite (slice p s.txOff n) s = .go (some n) s1) :
    sendLoop p (fuel + 1) s = (paceDrain (setCursor (s1.txOff + n) (s1.txSent + n) s1)).bind fun goOn s3 =>
      if goOn then sendLoop p fuel s3 else .go (.failed s3.txSent) s3 := by
  rw [sendLoop, if_pos ho]
  simp [hl, hn, hw]

end

/-! ### The answers and gaps of the next request -/

/-- What stands in a list at an index comes next when what is before it has been used. -/
theorem drop_of_getElem? {α : Type} {l : List α} {k : Nat} {a : α} (h : l[k]? = some a) :
    l.drop k = a :: l.drop (k + 1) := by
  obtain ⟨hk, rfl⟩ := List.getElem?_eq_some_iff.1 h
  exact List.drop_eq_getElem_cons hk

/-- What comes next when k elements have been used stands at index k. -/
theorem getElem?_of_drop {α : Type} {l rest : List α} {k : Nat} {a : α} (h : l.drop k = a :: rest) :
    l[k]? = some a := by
  rw [← Nat.add_zero k, ← List.getElem?_drop, h]
  rfl

/-- Quiet gaps and then a known one: the quiet ones, and what comes next behind them. -/
theorem quietGaps_and_next {s : State} {k : Nat} {g : List Input}
    (h : s.gaps.take (k + 1) = List.replicate k [] ++ [g]) :
    QuietGaps s k ∧ s.gaps.drop k = g :: s.gaps.drop (k + 1) := by
  refine ⟨?_, drop_of_getElem? ?_⟩
  · have ht := congrArg (List.take k) h
    rwa [List.take_take, Nat.min_eq_left (Nat.le_succ k), List.take_left' (by simp)] at ht
  · rw [← List.getElem?_take_of_lt (Nat.lt_succ_self k), h]
    simp

/-- Quiet gaps as some quiet ones and then one more. -/
theorem quietGaps_concat {s : State} {k : Nat} (h : QuietGaps s (k + 1)) :
    s.gaps.take (k + 1) = List.replicate k [] ++ [[]] := by
  rw [h, List.replicate_succ']

/-- A good answer to a write is `Ok` of its whole length. -/
theorem goodAnswer_write {n : Nat} {a : Answer} : goodAnswer (.write n) a = true ↔ a.ok = true ∧ n ≤ a.count := by
  simp [goodAnswer]

/-- The bytes of whole chunks and of a part of one more (R173). -/
theorem take_append_take_chunk {c : Nat} {p : List Byte} {i m : Nat} (hm : m ≤ (chunk c p i).length) :
    p.take (i * c) ++ (chunk c p i).take m = p.take (i * c + m) := by
  rw [chunk_length] at hm
  rw [chunk_eq_take_drop, List.take_take, Nat.min_eq_left (by omega), List.take_add]

/-! ### A send from one of its chunks -/

/-- A send whose first i chunks are answered well goes on behind them, with a round for every byte left (R172). -/
theorem send_afterChunks {p : List Byte} {s : State} {i : Nat} (hi : i ≤ chunkCount s.cfg.params.chunkSize p.length)
    (hl : s.lost = false) (hq : QuietGaps s (i * requestsPerChunk s.cfg.params)) (hg : GoodAnswers s p.length i) :
    send p s = sendLoop p (p.length - i) (afterChunks p i s) := by
  have hle := chunkCount_le p.length s.cfg.legal.1.1
  rw [← sendLoop_chunks hl hi hq hg, Nat.add_sub_cancel' (hi.trans hle), send]

/-- All chunks answered well are the whole send (R172). -/
theorem afterChunks_chunkCount (p : List Byte) (s : State) :
    afterChunks p (chunkCount s.cfg.params.chunkSize p.length) s = sent s p := by
  have hc := s.cfg.legal.1.1
  simp only [afterChunks, sent, sendRequests, sendRequestCount, take_chunkCount_mul p hc, take_chunkCount_chunks,
    Nat.min_eq_right (le_chunkCount_mul p.length hc)]

/-- Settles O19: the loop goes through all chunks and is at the payload's end. -/
theorem goodSendDeliversPayload : Obligations.GoodSendDeliversPayload := by
  intro p s hl hq hg
  have hend : p.length ≤ (sent s p).txOff := le_rfl
  rw [send_afterChunks le_rfl hl hq hg, afterChunks_chunkCount, sendLoop_end hend]
  rfl

section
variable {p : List Byte} {s s1 : State} {i : Nat} (hi : i < chunkCount s.cfg.params.chunkSize p.length)
  (hl : s.lost = false) (hq : QuietGaps s (i * requestsPerChunk s.cfg.params)) (hg : GoodAnswers s p.length i)

include hi

/-- In front of chunk i the cursor is at the chunk's offset. -/
theorem afterChunks_txOff : (afterChunks p i s).txOff = i * s.cfg.params.chunkSize :=
  Nat.min_eq_left ((lt_chunkCount s.cfg.legal.1.1).1 hi).le

/-- In front of chunk i the bytes before it are acknowledged. -/
theorem afterChunks_txSent : (afterChunks p i s).txSent = i * s.cfg.params.chunkSize := afterChunks_txOff hi

/-- In front of chunk i the send has bytes left. -/
theorem afterChunks_txOff_lt : (afterChunks p i s).txOff < p.length := by
  rw [afterChunks_txOff hi]
  exact (lt_chunkCount s.cfg.legal.1.1).1 hi

/-- In front of chunk i the loop is to write as many bytes as the chunk has. -/
theorem min_left_at_chunk : min (afterChunks p i s).cfg.params.chunkSize (p.length - (afterChunks p i s).txOff) =
    (chunk s.cfg.params.chunkSize p i).length := by
  rw [afterChunks_txOff hi, chunk_length]
  rfl

/-- What the loop writes in front of chunk i is that chunk (R170, R172). -/
theorem slice_afterChunks :
    slice p (afterChunks p i s).txOff (chunk s.cfg.params.chunkSize p i).length = chunk s.cfg.params.chunkSize p i := by
  rw [afterChunks_txOff hi, chunk_length, chunk]

include hl hq hg

/-- A send whose first i chunks are answered well comes to chunk i (R172). -/
theorem send_eq_round : send p s = sendLoop p (p.length - (i + 1) + 1) (afterChunks p i s) := by
  have hle := chunkCount_le p.length s.cfg.legal.1.1
  rw [send_afterChunks hi.le hl hq hg, show p.length - i = p.length - (i + 1) + 1 by omega]

/-- The write of chunk i answered `Err` (R174). -/
theorem send_writeError (hw : txWrite (chunk s.cfg.params.chunkSize p i) (afterChunks p i s) = .go none s1) :
    send p s = .go (.failed s1.txSent) s1 := by
  rw [send_eq_round hi hl hq hg]
  exact sendLoop_writeError _ (afterChunks_txOff_lt hi) hl (min_left_at_chunk hi) (by rwa [slice_afterChunks hi])

/-- The write of chunk i answered short (R173). -/
theorem send_shortWrite {m : Nat} (hm : m < (chunk s.cfg.params.chunkSize p i).length)
    (hw : txWrite (chunk s.cfg.params.chunkSize p i) (afterChunks p i s) = .go (some m) s1) :
    send p s = .go (.failed (s1.txSent + m)) (setCursor s1.txOff (s1.txSent + m) s1) := by
  rw [send_eq_round hi hl hq hg]
  exact sendLoop_shortWrite _ (afterChunks_txOff_lt hi) hl (min_left_at_chunk hi) (by rwa [slice_afterChunks hi]) hm

/-- The write of chunk i answered with its length: the pacing drain decides (R172, R175). -/
theorem send_wholeWrite (hw : txWrite (chunk s.cfg.params.chunkSize p i) (afterChunks p i s) =
      .go (some (chunk s.cfg.params.chunkSize p i).length) s1) :
    let n := (chunk s.cfg.params.chunkSize p i).length
    send p s = (paceDrain (setCursor (s1.txOff + n) (s1.txSent + n) s1)).bind fun goOn s3 =>
      if goOn then sendLoop p (p.length - (i + 1)) s3 else .go (.failed s3.txSent) s3 := by
  rw [send_eq_round hi hl hq hg]
  exact sendLoop_wholeWrite _ (afterChunks_txOff_lt hi) hl (min_left_at_chunk hi) (by rwa [slice_afterChunks hi])

end

/-! ### Chunk i fails -/

/-- Settles O21: chunk i is the next write, and its answer is `Err`. -/
theorem writeErrorReportsWholeChunks : Obligations.WriteErrorReportsWholeChunks := by
  intro p s i a c k hi hl hq hg ha hok
  obtain ⟨hquiet, hgap⟩ := quietGaps_and_next (quietGaps_concat hq)
  have hw := txWrite_quiet (bytes := chunk c p i) (s := afterChunks p i s) (drop_of_getElem? ha) hgap
  rw [if_neg (by simp [hok])] at hw
  rw [send_writeError hi hl hquiet hg hw]
  simp only [afterChunks_txSent hi, afterChunks_txOff hi]
  rfl

/-- Settles O22: chunk i is the next write, and its answer is short. -/
theorem shortWriteFails : Obligations.ShortWriteFails := by
  intro p s i a c k hi hl hq hg ha hok hm
  obtain ⟨hquiet, hgap⟩ := quietGaps_and_next (quietGaps_concat hq)
  have hw := txWrite_quiet (bytes := chunk c p i) (s := afterChunks p i s) (drop_of_getElem? ha) hgap
  rw [if_pos hok, Nat.min_eq_left hm.le] at hw
  rw [send_shortWrite hi hl hquiet hg hm hw]
  simp only [afterChunks_txSent hi, afterChunks_txOff hi, setCursor, ← take_append_take_chunk hm.le,
    ← List.append_assoc]
  rfl

/-! ### Chunk i is written whole -/

/-- The state of a send behind the write of chunk i, before its pacing drain, if nothing landed and the transport
answered well. -/
def afterWrite (p : List Byte) (i : Nat) (s : State) : State :=
  let c := s.cfg.params.chunkSize
  let k := i * requestsPerChunk s.cfg.params
  { s with
    txOff := min ((i + 1) * c) p.length, txSent := min ((i + 1) * c) p.length,
    stream := s.stream ++ p.take ((i + 1) * c),
    requests := s.requests ++ ((chunks c p).take i).flatMap (chunkRequests s.cfg.params) ++ [.write (chunk c p i)],
    answers := s.answers.drop (k + 1), gaps := s.gaps.drop (k + 1) }

/-- The write of chunk i, added to the state in front of it, before the cursor moves (R172). -/
theorem afterChunks_append_chunk {p : List Byte} {s : State} {i : Nat}
    (hi : i < chunkCount s.cfg.params.chunkSize p.length) :
    { afterChunks p i s with
      stream := (afterChunks p i s).stream ++ chunk s.cfg.params.chunkSize p i,
      requests := (afterChunks p i s).requests ++ [.write (chunk s.cfg.params.chunkSize p i)],
      answers := (afterWrite p i s).answers, gaps := (afterWrite p i s).gaps } =
      setCursor (i * s.cfg.params.chunkSize) (i * s.cfg.params.chunkSize) (afterWrite p i s) := by
  simp only [afterChunks, afterWrite, setCursor, ← take_append_chunk, List.append_assoc,
    Nat.min_eq_left ((lt_chunkCount s.cfg.legal.1.1).1 hi).le]

/-- A state in which LOST has been set (R25, R253). -/
def setLost (s : State) : State := { s with lost := true }

/-- Without `PACE_DRAIN` the chunk is done with its write (R175). -/
theorem afterWrite_unpaced {p : List Byte} {s : State} {i : Nat} (hp : s.cfg.params.paceDrain = false)
    (hi : i < chunkCount s.cfg.params.chunkSize p.length) : afterWrite p i s = afterChunks p (i + 1) s := by
  simp [afterWrite, afterChunks, requestsPerChunk, hp, chunks_take_succ hi, chunkRequests]

/-- With `PACE_DRAIN` the chunk is done with its drain (R175). -/
theorem afterWrite_paced {p : List Byte} {s : State} {i : Nat} (hp : s.cfg.params.paceDrain = true)
    (hi : i < chunkCount s.cfg.params.chunkSize p.length) :
    { afterWrite p i s with
      requests := (afterWrite p i s).requests ++ [.drain s.cfg.params.drainTimeout],
      answers := s.answers.drop (2 * i + 2), gaps := s.gaps.drop (2 * i + 2) } = afterChunks p (i + 1) s := by
  simp [afterWrite, afterChunks, requestsPerChunk, hp, chunks_take_succ hi, chunkRequests, Nat.mul_comm 2, Nat.add_mul]

/-- The last of two settings of the cursor holds. -/
theorem setCursor_setCursor (off sent off' sent' : Nat) (s : State) :
    setCursor off sent (setCursor off' sent' s) = setCursor off sent s := rfl

/-- The bytes up to the end of chunk i, counted. -/
theorem offset_add_chunk_length {c : Nat} {p : List Byte} {i : Nat} (hc : 1 ≤ c) (hi : i < chunkCount c p.length) :
    i * c + (chunk c p i).length = min ((i + 1) * c) p.length := by
  have hlt := (lt_chunkCount hc).1 hi
  rw [chunk_length, Nat.add_mul, Nat.one_mul]
  omega

section
variable {p : List Byte} {s : State} {i : Nat} {w : Answer} (hi : i < chunkCount s.cfg.params.chunkSize p.length)
  (hl : s.lost = false) (hg : GoodAnswers s p.length i)
include hi hl hg

/-- Behind the write of chunk i the pacing drain decides, from the state with the cursor moved on. -/
theorem send_of_chunk_written {t : State} (hq : QuietGaps s (i * requestsPerChunk s.cfg.params))
    (hoff : t.txOff = min ((i + 1) * s.cfg.params.chunkSize) p.length) (hsent : t.txSent = t.txOff)
    (h : txWrite (chunk s.cfg.params.chunkSize p i) (afterChunks p i s) =
      .go (some (chunk s.cfg.params.chunkSize p i).length)
        (setCursor (i * s.cfg.params.chunkSize) (i * s.cfg.params.chunkSize) t)) :
    send p s = (paceDrain t).bind fun goOn s3 =>
      if goOn then sendLoop p (p.length - (i + 1)) s3 else .go (.failed s3.txSent) s3 := by
  have ht : setCursor t.txOff t.txSent t = t := rfl
  rw [hsent, hoff, ← offset_add_chunk_length s.cfg.legal.1.1 hi] at ht
  rw [send_wholeWrite hi hl hq hg h]
  simp only [setCursor_txOff, setCursor_txSent]
  rw [setCursor_setCursor, ht]

variable (ha : s.answers[i * requestsPerChunk s.cfg.params]? = some w)
  (hw : goodAnswer (.write (chunk s.cfg.params.chunkSize p i).length) w = true)
include ha hw

/-- A send to which nothing happens up to the answer to the write of chunk i (R172). -/
theorem send_afterWrite (hq : QuietGaps s (i * requestsPerChunk s.cfg.params + 1)) :
    send p s = (paceDrain (afterWrite p i s)).bind fun goOn s3 =>
      if goOn then sendLoop p (p.length - (i + 1)) s3 else .go (.failed s3.txSent) s3 := by
  obtain ⟨hquiet, hgap⟩ := quietGaps_and_next (quietGaps_concat hq)
  obtain ⟨hok, hcount⟩ := goodAnswer_write.1 hw
  refine send_of_chunk_written hi hl hg hquiet rfl rfl ?_
  rw [txWrite_quiet (s := afterChunks p i s) (drop_of_getElem? ha) hgap, if_pos hok, Nat.min_eq_right hcount,
    List.take_of_length_le hcount]
  exact congrArg (Run.go _) (afterChunks_append_chunk hi)

/-- A send whose transport is lost right after the answer to the write of chunk i (R172, R253, R259). -/
theorem send_afterWrite_lost (hb : s.busy = true) (hh : s.held = true)
    (hgaps : s.gaps.take (i * requestsPerChunk s.cfg.params + 1) =
      List.replicate (i * requestsPerChunk s.cfg.params) [] ++ [[.lost]]) :
    send p s = (paceDrain (setLost (afterWrite p i s))).bind fun goOn s3 =>
      if goOn then sendLoop p (p.length - (i + 1)) s3 else .go (.failed s3.txSent) s3 := by
  obtain ⟨hquiet, hgap⟩ := quietGaps_and_next hgaps
  obtain ⟨hok, hcount⟩ := goodAnswer_write.1 hw
  refine send_of_chunk_written hi hl hg (t := setLost (afterWrite p i s)) hquiet rfl rfl ?_
  rw [txWrite_lost (s := afterChunks p i s) hb hh (drop_of_getElem? ha) hgap, if_pos hok, Nat.min_eq_right hcount,
    List.take_of_length_le hcount]
  exact congrArg (fun t => Run.go _ (setLost t)) (afterChunks_append_chunk hi)

end

section
variable {p : List Byte} {s : State} {i : Nat} {a : Answer} (hp : s.cfg.params.paceDrain = true)
  (hi : i < chunkCount s.cfg.params.chunkSize p.length) (ha : s.answers[2 * i + 1]? = some a)
  (ht : a.ok = true ∨ s.cfg.params.drainTimeout ≠ .infinite)
include hp

/-- With `PACE_DRAIN` the chunks before chunk i make `2 × i` requests (R175). -/
theorem mul_requestsPerChunk_paced (i : Nat) : i * requestsPerChunk s.cfg.params = 2 * i := by
  simp [requestsPerChunk, hp, Nat.mul_comm]

include hi ha ht

/-- The drain of chunk i when nothing lands in its gap: the chunk is done (R175). -/
theorem txDrain_afterWrite (hg : s.gaps.drop (2 * i + 1) = [] :: s.gaps.drop (2 * i + 2)) :
    txDrain (afterWrite p i s) = .go a.ok (afterChunks p (i + 1) s) := by
  rw [← mul_requestsPerChunk_paced hp i] at ha hg
  rw [txDrain_quiet (s := afterWrite p i s) (drop_of_getElem? ha) hg ht, ← afterWrite_paced hp hi,
    mul_requestsPerChunk_paced hp i]
  rfl

/-- The drain of chunk i when the transport is lost in its gap: the chunk is done (R175, R253, R259). -/
theorem txDrain_afterWrite_lost (hb : s.busy = true) (hh : s.held = true)
    (hg : s.gaps.drop (2 * i + 1) = [.lost] :: s.gaps.drop (2 * i + 2)) :
    txDrain (afterWrite p i s) = .go a.ok (setLost (afterChunks p (i + 1) s)) := by
  rw [← mul_requestsPerChunk_paced hp i] at ha hg
  rw [txDrain_lost (s := afterWrite p i s) hb hh (drop_of_getElem? ha) hg ht, ← afterWrite_paced hp hi,
    mul_requestsPerChunk_paced hp i]
  rfl

end

/-- Settles O23: chunk i is written whole, and its drain times out. -/
theorem drainTimeoutFailsSend : Obligations.DrainTimeoutFailsSend := by
  intro p s i w a c k hp ht hi hl hq hg hwrite hw ha hok
  have hk : i * requestsPerChunk s.cfg.params = 2 * i := mul_requestsPerChunk_paced hp i
  obtain ⟨hquiet, hgap⟩ := quietGaps_and_next (quietGaps_concat hq)
  have hl' : (afterWrite p i s).lost = false := hl
  rw [send_afterWrite hi hl hg (by rwa [hk]) hw (by rwa [hk]), paceDrain_paced (s := afterWrite p i s) hp hl',
    txDrain_afterWrite hp hi ha (.inr ht) hgap, hok]
  simp only [Run.go_bind, Bool.false_eq_true, if_false, afterChunks, mul_requestsPerChunk_paced hp (i + 1)]
  rfl

/-! ### The transport is lost -/

/-- The answers to chunk i, if the first `i + 1` chunks are answered well. -/
theorem goodAnswers_next {s : State} {p : List Byte} {i : Nat} (h : GoodAnswers s p.length (i + 1)) :
    ∃ w, s.answers[i * requestsPerChunk s.cfg.params]? = some w ∧
      goodAnswer (.write (chunk s.cfg.params.chunkSize p i).length) w = true ∧
      (s.cfg.params.paceDrain = true → ∃ d, s.answers[2 * i + 1]? = some d ∧ d.ok = true) := by
  have hnext := (goodAnswers_succ.1 h).2
  rw [← chunk_length] at hnext
  unfold askedOfChunk at hnext
  split at hnext
  · next hp =>
    rw [mul_requestsPerChunk_paced hp] at hnext ⊢
    obtain ⟨w, hdrop, hw, hrest⟩ := answersGood_cons hnext
    obtain ⟨d, hdrop', hd, -⟩ := answersGood_cons hrest
    rw [List.drop_drop] at hdrop'
    exact ⟨w, getElem?_of_drop hdrop, hw, fun _ => ⟨d, getElem?_of_drop hdrop', hd⟩⟩
  · next hp =>
    obtain ⟨w, hdrop, hw, -⟩ := answersGood_cons hnext
    exact ⟨w, getElem?_of_drop hdrop, hw, fun h => absurd h hp⟩

/-- A send that finds LOST = 1 behind its first i chunks ends there (R176). -/
theorem sendLoop_afterChunks_lost {p : List Byte} {s : State} {i : Nat}
    (hi : i ≤ chunkCount s.cfg.params.chunkSize p.length) :
    sendLoop p (p.length - i) (setLost (afterChunks p i s)) =
      .go (if i = chunkCount s.cfg.params.chunkSize p.length then .done p.length
        else .failed (i * s.cfg.params.chunkSize)) (setLost (afterChunks p i s)) := by
  have hc := s.cfg.legal.1.1
  split
  · next he =>
    have hend : (setLost (afterChunks p i s)).txSent = p.length := by
      rw [he, afterChunks_chunkCount]
      rfl
    rw [sendLoop_end (s := setLost (afterChunks p i s)) hend.ge, hend]
  · next hne =>
    have hlt : i < chunkCount s.cfg.params.chunkSize p.length := lt_of_le_of_ne hi hne
    have hle := chunkCount_le p.length hc
    have hsent : (setLost (afterChunks p i s)).txSent = i * s.cfg.params.chunkSize := afterChunks_txSent hlt
    rw [show p.length - i = p.length - (i + 1) + 1 by omega,
      sendLoop_of_lost (s := setLost (afterChunks p i s)) _ (afterChunks_txOff_lt hlt) rfl, hsent]

/-- Settles O60: the loss comes with the drain of the last chunk that counts, or with its write if none follows. -/
theorem lossDuringSend : Obligations.LossDuringSend := by
  intro p s i c r hb hh hl
  refine ⟨fun h1 hi hg hgaps => ?behind, fun w hp hi hg ha hw hgaps => ?between⟩
  case behind =>
    obtain ⟨j, rfl⟩ := Nat.exists_eq_add_of_le' h1
    obtain ⟨w, ha, hw, hd⟩ := goodAnswers_next hg
    have hg := GoodAnswers.mono hg (Nat.le_succ j)
    refine Eq.trans ?_ (sendLoop_afterChunks_lost hi)
    cases hp : s.cfg.params.paceDrain with
    | true =>
      obtain ⟨d, had, hok⟩ := hd hp
      have hk := mul_requestsPerChunk_paced hp
      have hr : (j + 1) * r = 2 * j + 1 + 1 := by rw [hk]; omega
      rw [hr] at hgaps
      obtain ⟨hq, hgap⟩ := quietGaps_and_next hgaps
      have hl' : (afterWrite p j s).lost = false := hl
      rw [send_afterWrite hi hl hg ha hw (by rwa [hk]), paceDrain_paced (s := afterWrite p j s) hp hl',
        txDrain_afterWrite_lost hp hi had (.inl hok) hb hh hgap, hok]
      rfl
    | false =>
      have hr : requestsPerChunk s.cfg.params = 1 := by simp [requestsPerChunk, hp]
      rw [send_afterWrite_lost hi hl hg ha hw hb hh (by simpa [r, hr] using hgaps), afterWrite_unpaced hp hi,
        paceDrain_unpaced (s := setLost (afterChunks p (j + 1) s)) hp]
      rfl
  case between =>
    rw [← mul_requestsPerChunk_paced hp] at ha hgaps ⊢
    rw [send_afterWrite_lost hi hl hg ha hw hb hh hgaps, paceDrain_of_lost (s := setLost (afterWrite p i s)) hp rfl]
    rfl

end Sys2Proof.Machine
end

section
/-! What the stream holds after a send, for every transport (42_transmission.md, R172, R178): one round of the loop by
how it goes, the state between two rounds, and what a send that answered has left. -/

namespace Sys2Proof.Machine

/-! ### One round of the loop -/

/-- How many bytes the loop writes next (R172). -/
def nextLength (p : List Byte) (s : State) : Nat := min s.cfg.params.chunkSize (p.length - s.txOff)

/-- The state the pacing drain starts from: the next bytes acknowledged in full (R172). -/
def movedOn (p : List Byte) (s s1 : State) : State :=
  setCursor (s1.txOff + nextLength p s) (s1.txSent + nextLength p s) s1

/-- How a round of a send with bytes left goes: it ends the send, the step ends in it, or the loop goes on. -/
inductive SendRound (p : List Byte) (fuel : Nat) (s : State) : Run SendResult → Prop where
  /-- LOST = 1: nothing is written (R176). -/
  | lost : SendRound p fuel s (.go (.failed s.txSent) s)
  /-- The step ends in the gap of the write. -/
  | writeStops {o : Result} (hw : txWrite (slice p s.txOff (nextLength p s)) s = .stop o) : SendRound p fuel s (.stop o)
  /-- The write is answered `Err` (R174). -/
  | writeError {s1 : State} (hw : txWrite (slice p s.txOff (nextLength p s)) s = .go none s1) :
      SendRound p fuel s (.go (.failed s1.txSent) s1)
  /-- The write is answered short (R173). -/
  | shortWrite {m : Nat} {s1 : State} (hw : txWrite (slice p s.txOff (nextLength p s)) s = .go (some m) s1) :
      SendRound p fuel s (.go (.failed (s1.txSent + m)) (setCursor s1.txOff (s1.txSent + m) s1))
  /-- The step ends in the pacing drain. -/
  | drainStops {s1 : State} {o : Result}
      (hw : txWrite (slice p s.txOff (nextLength p s)) s = .go (some (nextLength p s)) s1)
      (hd : paceDrain (movedOn p s s1) = .stop o) : SendRound p fuel s (.stop o)
  /-- The pacing drain fails (R175, R176). -/
  | drainFailed {s1 s3 : State} (hw : txWrite (slice p s.txOff (nextLength p s)) s = .go (some (nextLength p s)) s1)
      (hd : paceDrain (movedOn p s s1) = .go false s3) : SendRound p fuel s (.go (.failed s3.txSent) s3)
  /-- The chunk is done, and the loop goes on (R172). -/
  | goesOn {s1 s3 : State} (hw : txWrite (slice p s.txOff (nextLength p s)) s = .go (some (nextLength p s)) s1)
      (hd : paceDrain (movedOn p s s1) = .go true s3) : SendRound p fuel s (sendLoop p fuel s3)

/-- The loop writes that many bytes. -/
theorem slice_nextLength_length {p : List Byte} {s : State} (ho : s.txOff ≤ p.length) :
    (slice p s.txOff (nextLength p s)).length = nextLength p s :=
  slice_length (by rw [nextLength]; omega)

/-- While bytes are left the loop writes some (R170). -/
theorem nextLength_pos {p : List Byte} {s : State} (ho : s.txOff < p.length) : 1 ≤ nextLength p s := by
  have hc := s.cfg.legal.1.1
  rw [nextLength]
  omega

/-- With bytes left the loop does such a round. -/
theorem sendLoop_sendRound {p : List Byte} (fuel : Nat) {s : State} (hb : s.busy = true) (ho : s.txOff < p.length) :
    SendRound p fuel s (sendLoop p (fuel + 1) s) := by
  cases hl : s.lost with
  | true =>
    rw [sendLoop_of_lost fuel ho hl]
    exact .lost
  | false =>
    cases hw : txWrite (slice p s.txOff (nextLength p s)) s with
    | stop o =>
      rw [sendLoop_writeStops fuel ho hl rfl hw]
      exact .writeStops hw
    | go answer s1 =>
      cases answer with
      | none =>
        rw [sendLoop_writeError fuel ho hl rfl hw]
        exact .writeError hw
      | some m =>
        obtain ⟨-, -, -, n, hn, -, ha⟩ := txWrite_go hb hw
        rw [slice_nextLength_length ho.le, ← ha m rfl] at hn
        rcases hn.lt_or_eq with hm | rfl
        · rw [sendLoop_shortWrite fuel ho hl rfl hw hm]
          exact .shortWrite hw
        · rw [sendLoop_wholeWrite fuel ho hl rfl hw]
          change SendRound p fuel s ((paceDrain (movedOn p s s1)).bind _)
          cases hd : paceDrain (movedOn p s s1) with
          | stop o => exact .drainStops hw hd
          | go goOn s3 =>
            cases goOn with
            | false => exact .drainFailed hw hd
            | true => exact .goesOn hw hd

/-! ### The state between two rounds -/

/-- A send between two rounds: what stands before the cursor is acknowledged and in the stream (R172). -/
structure Sending (p before : List Byte) (s : State) : Prop where
  busy : s.busy = true
  sent : s.txSent = s.txOff
  off_le : s.txOff ≤ p.length
  stream : s.stream = before ++ p.take s.txOff

/-- The pacing drain leaves the stream and the cursor alone (R175). -/
theorem paceDrain_go {s s' : State} {goOn : Bool} (hb : s.busy = true) (h : paceDrain s = .go goOn s') :
    s'.stream = s.stream ∧ s'.txOff = s.txOff ∧ s'.txSent = s.txSent := by
  cases hp : s.cfg.params.paceDrain with
  | false =>
    rw [paceDrain_unpaced hp] at h
    cases h
    exact ⟨rfl, rfl, rfl⟩
  | true =>
    cases hl : s.lost with
    | true =>
      rw [paceDrain_of_lost hp hl] at h
      cases h
      exact ⟨rfl, rfl, rfl⟩
    | false =>
      rw [paceDrain_paced hp hl] at h
      obtain ⟨hst, -, hoff, hsent⟩ := txDrain_go hb h
      exact ⟨hst, hoff, hsent⟩

section
variable {p before : List Byte} {s s1 : State} (hs : Sending p before s)
include hs

/-- The next write of a send: a part of the next bytes reaches the stream, as long as the answer says if it is `Ok`. -/
theorem Sending.write_go {answer : Option Nat}
    (hw : txWrite (slice p s.txOff (nextLength p s)) s = .go answer s1) :
    s1.txOff = s.txOff ∧ s1.txSent = s.txOff ∧
      s1.requests = s.requests ++ [.write (slice p s.txOff (nextLength p s))] ∧
      ∃ m ≤ nextLength p s, s1.stream = before ++ p.take s.txOff ++ (p.drop s.txOff).take m ∧
        ∀ k, answer = some k → k = m := by
  obtain ⟨hrq, hoff, hsent, m, hm, hst, ha⟩ := txWrite_go hs.busy hw
  rw [slice_nextLength_length hs.off_le] at hm
  rw [slice, List.take_take, Nat.min_eq_left hm, hs.stream] at hst
  exact ⟨hoff, hsent.trans hs.sent, hrq, m, hm, hst, ha⟩

/-- After a write answered `Ok(m)` the first m of the next bytes are in the stream. -/
theorem Sending.write_some {m : Nat} (hw : txWrite (slice p s.txOff (nextLength p s)) s = .go (some m) s1) :
    s1.txOff = s.txOff ∧ s1.txSent = s.txOff ∧ s.txOff + m ≤ p.length ∧
      s1.stream = before ++ p.take (s.txOff + m) := by
  obtain ⟨hoff, hsent, -, n, hn, hst, ha⟩ := hs.write_go hw
  obtain rfl := ha m rfl
  have hle := hs.off_le
  refine ⟨hoff, hsent, by rw [nextLength] at hn; omega, ?_⟩
  rw [hst, List.append_assoc, ← List.take_add]

/-- A whole write and its pacing drain lead to the state before the next round (R172, R175). -/
theorem Sending.next {s3 : State} {goOn : Bool}
    (hw : txWrite (slice p s.txOff (nextLength p s)) s = .go (some (nextLength p s)) s1)
    (hd : paceDrain (movedOn p s s1) = .go goOn s3) :
    Sending p before s3 ∧ s3.txOff = s.txOff + nextLength p s ∧ s3.cfg = s.cfg := by
  have hw1 := (txWrite_sound _ hs.busy).go hw
  have hb1 : (movedOn p s s1).busy = true := hw1.busy.trans hs.busy
  have hd1 := (paceDrain_sound hb1).go hd
  obtain ⟨hoff, hsent, hle, hst⟩ := hs.write_some hw
  obtain ⟨hst3, hoff3, hsent3⟩ := paceDrain_go hb1 hd
  rw [movedOn, setCursor_txOff, hoff] at hoff3
  rw [movedOn, setCursor_txSent, hsent] at hsent3
  rw [movedOn, setCursor_stream, hst] at hst3
  exact ⟨⟨hd1.busy.trans hb1, by rw [hsent3, hoff3], by rwa [hoff3], by rw [hst3, hoff3]⟩, hoff3,
    hd1.cfg.trans hw1.cfg⟩

end

/-! ### The answer of a send -/

/-- What a send of p that answered has left, with chunks of c bytes: all of p in the stream, or the acknowledged bytes
and the first bytes of the chunk that the last request wrote (R178). -/
def SentAsAnswered (p before : List Byte) (c : Nat) (s' : State) : SendResult → Prop
  | .done k => k = p.length ∧ s'.stream = before ++ p
  | .failed k => k ≤ p.length ∧ ∃ j, s'.stream = before ++ p.take k ++ (p.drop k).take j ∧
      (j ≠ 0 → ∃ earlier, s'.requests = earlier ++ [.write (slice p k (min c (p.length - k)))] ∧
        j ≤ min c (p.length - k))

/-- A failure with no byte in the stream but the acknowledged ones. -/
theorem SentAsAnswered.of_take {p before : List Byte} {c k : Nat} {s' : State} (hk : k ≤ p.length)
    (h : s'.stream = before ++ p.take k) : SentAsAnswered p before c s' (.failed k) :=
  ⟨hk, 0, by rw [h, List.take_zero, List.append_nil], fun h0 => absurd rfl h0⟩

/-- A send whose cursor is at the end has sent the payload. -/
theorem Sending.sentAsAnswered_done {p before : List Byte} {c : Nat} {s : State} (hs : Sending p before s)
    (h : p.length ≤ s.txOff) : SentAsAnswered p before c s (.done s.txSent) := by
  refine ⟨hs.sent.trans (Nat.le_antisymm hs.off_le h), ?_⟩
  rw [hs.stream, List.take_of_length_le h]

/-- The loop of a send keeps what stands between two rounds, and leaves the stream as it answers (R172, R178). -/
theorem sendLoop_sentAsAnswered {p before : List Byte} : ∀ {fuel : Nat} {s s' : State} {r : SendResult},
    Sending p before s → p.length - s.txOff ≤ fuel → sendLoop p fuel s = .go r s' →
    SentAsAnswered p before s.cfg.params.chunkSize s' r := by
  intro fuel
  induction fuel with
  | zero =>
    intro s s' r hs hf h
    cases h
    exact hs.sentAsAnswered_done (by omega)
  | succ fuel ih =>
    intro s s' r hs hf h
    rcases Nat.lt_or_ge s.txOff p.length with ho | ho
    · have hround := sendLoop_sendRound fuel hs.busy ho
      generalize sendLoop p (fuel + 1) s = run at h hround
      cases hround with
      | writeStops hw => cases h
      | drainStops hw hd => cases h
      | lost =>
        cases h
        exact .of_take (hs.sent ▸ hs.off_le) (hs.sent ▸ hs.stream)
      | writeError hw =>
        cases h
        obtain ⟨hoff, hsent, hrq, m, hm, hst, -⟩ := hs.write_go hw
        rw [hsent]
        exact ⟨hs.off_le, m, hst, fun _ => ⟨s.requests, hrq, hm⟩⟩
      | shortWrite hw =>
        cases h
        obtain ⟨-, hsent, hle, hst⟩ := hs.write_some hw
        rw [hsent]
        exact .of_take hle hst
      | drainFailed hw hd =>
        cases h
        obtain ⟨hs3, -, -⟩ := hs.next hw hd
        exact .of_take (hs3.sent ▸ hs3.off_le) (hs3.sent ▸ hs3.stream)
      | goesOn hw hd =>
        obtain ⟨hs3, hoff, hcfg⟩ := hs.next hw hd
        have hpos := nextLength_pos ho
        rw [← hcfg]
        exact ih hs3 (by omega) h
    · rw [sendLoop_end ho] at h
      cases h
      exact hs.sentAsAnswered_done ho

/-- A send leaves the stream as it answers (R172, R178). -/
theorem send_sentAsAnswered {p : List Byte} {s s' : State} {r : SendResult} (hb : s.busy = true)
    (h : send p s = .go r s') : SentAsAnswered p s.stream s.cfg.params.chunkSize s' r := by
  have hs : Sending p s.stream (setCursor 0 0 s) := ⟨hb, rfl, Nat.zero_le _, by simp⟩
  exact sendLoop_sentAsAnswered (s := setCursor 0 0 s) hs (Nat.sub_le _ _) h

/-- Settles O20: by the rounds of the send. -/
theorem streamHoldsWhatWasSent : Obligations.StreamHoldsWhatWasSent := by
  intro p s s' r hb h
  have hsent := send_sentAsAnswered hb h
  cases r with
  | done k => exact hsent
  | failed k => exact hsent

end Sys2Proof.Machine
end

section
/-! The size of the writes (42_transmission.md, R170, R172, R179): what the steps inside an operation request, and that
every write an operation requests has 1 to `CHUNK_SIZE` bytes, also if a block reset ends it. -/

namespace Sys2Proof.Machine

open Sys2Proof.Safety

/-! ### Bounded writes -/

/-- The log of requests has grown from what it was, by no write but such of 1 to c bytes. -/
def BoundedWrites (c : Nat) (before : List TxRequest) (s : State) : Prop :=
  ∃ new, s.requests = before ++ new ∧ ∀ bytes, TxRequest.write bytes ∈ new → 1 ≤ bytes.length ∧ bytes.length ≤ c

/-- An operation in progress with chunks of c bytes whose writes so far are bounded. -/
structure BoundedSoFar (c : Nat) (before : List TxRequest) (s : State) : Prop where
  busy : s.busy = true
  chunkSize : s.cfg.params.chunkSize = c
  writes : BoundedWrites c before s

/-- A part of an operation keeps the writes bounded: where it goes on, and where a block reset ends the step in it. -/
def Run.Bounded {α : Type} (c : Nat) (before : List TxRequest) : Run α → Prop
  | .go _ s => BoundedSoFar c before s
  | .stop o => ∀ t, o = .next t → BoundedWrites c before t

variable {c : Nat} {before : List TxRequest}

theorem BoundedWrites.refl (c : Nat) (s : State) : BoundedWrites c s.requests s :=
  ⟨[], (List.append_nil _).symm, fun _ h => absurd h List.not_mem_nil⟩

/-- The bound speaks of the log alone. -/
theorem BoundedWrites.congr {s t : State} (h : BoundedWrites c before s) (e : t.requests = s.requests) :
    BoundedWrites c before t := by
  obtain ⟨new, hnew, hle⟩ := h
  exact ⟨new, e.trans hnew, hle⟩

/-- One request more. -/
theorem BoundedWrites.append {s t : State} {q : TxRequest} (h : BoundedWrites c before s)
    (hq : ∀ bytes, q = .write bytes → 1 ≤ bytes.length ∧ bytes.length ≤ c) (e : t.requests = s.requests ++ [q]) :
    BoundedWrites c before t := by
  obtain ⟨new, hnew, hle⟩ := h
  refine ⟨new ++ [q], by rw [e, hnew, List.append_assoc], fun bytes hm => ?_⟩
  rcases List.mem_append.1 hm with hm | hm
  · exact hle bytes hm
  · exact hq bytes (List.mem_singleton.1 hm).symm

/-- The end of an operation writes nothing (R31). -/
theorem BoundedWrites.finish {s t : State} (h : BoundedWrites c before s) {st : Status} {k : Nat}
    (e : t.requests = s.requests := by rfl) : BoundedWrites c before (finish st k t) := by
  have ht := h.congr e
  have hreq := finish_requests st k t
  split at hreq
  · exact ht.append (fun _ hq => by cases hq) hreq
  · exact ht.congr hreq

/-- A change of the state apart from BUSY, the parameters and the log. -/
theorem BoundedSoFar.congr {s t : State} (h : BoundedSoFar c before s) (hb : t.busy = s.busy) (hc : t.cfg = s.cfg)
    (hr : t.requests = s.requests) : BoundedSoFar c before t :=
  ⟨hb.trans h.busy, by rw [hc, h.chunkSize], h.writes.congr hr⟩

theorem Run.Bounded.of_go {α : Type} {r : Run α} {a : α} {s : State} (h : r.Bounded c before) (e : r = .go a s) :
    BoundedSoFar c before s := by
  subst e; exact h

theorem Run.Bounded.of_stop {α β : Type} {r : Run α} {o : Result} (h : r.Bounded c before) (e : r = .stop o) :
    (Run.stop o : Run β).Bounded c before := by
  subst e; exact h

/-- One part of an operation after another. -/
theorem Run.Bounded.bind {α β : Type} {r : Run α} {f : α → State → Run β} (h : r.Bounded c before)
    (hf : ∀ a s, r = .go a s → BoundedSoFar c before s → (f a s).Bounded c before) : (r.bind f).Bounded c before := by
  cases r with
  | go a s => exact hf a s rfl h
  | stop o => exact h

/-- The step an operation answers after a part of it. -/
theorem Run.Bounded.andThen {α : Type} {r : Run α} {f : α → State → Result} {t : State} (h : r.Bounded c before)
    (e : r.andThen f = .next t) (hf : ∀ a s, BoundedSoFar c before s → f a s = .next t → BoundedWrites c before t) :
    BoundedWrites c before t := by
  cases r with
  | go a s => exact hf a s h e
  | stop o => exact h t e

/-! ### Inputs, gaps and requests -/

/-- The inputs of a gap request nothing, a block reset among them included (R280). -/
theorem applyInputs_bounded (inputs : List Input) : ∀ {s : State}, BoundedSoFar c before s →
    (applyInputs inputs s).Bounded c before := by
  induction inputs with
  | nil => exact fun h => h
  | cons inp rest ih =>
    intro s h
    rw [applyInputs]
    cases hi : applyInput inp s with
    | fault f => exact fun t ht => by cases ht
    | refused r => exact fun t ht => by cases ht
    | next s1 =>
      by_cases hr : inp = .blockReset
      · subst hr
        cases hi
        rintro t ⟨⟩
        exact h.writes.congr rfl
      · obtain ⟨h1, -, -, -, hrq, -, -⟩ := applyInput_busy h.busy hr hi
        simp only [if_neg hr]
        exact ih (h.congr h1.busy h1.cfg hrq)

/-- A gap requests nothing (R15). -/
theorem gap_bounded {s : State} (h : BoundedSoFar c before s) : (gap s).Bounded c before := by
  unfold gap
  split
  · exact applyInputs_bounded _ (h.congr rfl rfl rfl)
  · exact h.congr rfl rfl rfl

/-- A request that is no write out of bounds, and the draw of its answer. -/
theorem BoundedSoFar.request {s : State} (h : BoundedSoFar c before s) {q : TxRequest}
    (hq : ∀ bytes, q = .write bytes → 1 ≤ bytes.length ∧ bytes.length ≤ c) :
    BoundedSoFar c before (drawAnswer (logRequest q s)).2 := by
  obtain ⟨l, d, hd, -⟩ := drawAnswer_snd (logRequest q s)
  rw [hd]
  exact ⟨h.busy, h.chunkSize, h.writes.append hq rfl⟩

theorem txOpen_bounded {s : State} (h : BoundedSoFar c before s) : (txOpen s).Bounded c before :=
  (gap_bounded (h.request fun _ hq => by cases hq)).bind fun _ _ _ h1 => h1

theorem txDrain_bounded {s : State} (h : BoundedSoFar c before s) : (txDrain s).Bounded c before := by
  have hreq := h.request (q := .drain s.cfg.params.drainTimeout) fun _ hq => by cases hq
  unfold txDrain
  generalize drawAnswer (logRequest (.drain s.cfg.params.drainTimeout) s) = d at hreq ⊢
  refine (gap_bounded hreq).bind fun _ s2 _ h2 => ?_
  split
  · rintro t ⟨⟩
  · exact h2

theorem txWrite_bounded {s : State} {bytes : List Byte} (h : BoundedSoFar c before s)
    (hlen : 1 ≤ bytes.length ∧ bytes.length ≤ c) : (txWrite bytes s).Bounded c before := by
  have hreq := h.request (q := .write bytes) fun _ hq => by cases hq; exact hlen
  unfold txWrite
  generalize drawAnswer (logRequest (.write bytes) s) = d at hreq ⊢
  exact (gap_bounded (s := appendStream _ d.2) (hreq.congr rfl rfl rfl)).bind fun _ _ _ h2 => h2

/-! ### Sends and drains -/

theorem paceDrain_bounded {s : State} (h : BoundedSoFar c before s) : (paceDrain s).Bounded c before := by
  unfold paceDrain
  split_ifs
  · exact h
  · exact txDrain_bounded h
  · exact h

theorem awaitDrain_bounded {s : State} (h : BoundedSoFar c before s) : (awaitDrain s).Bounded c before := by
  unfold awaitDrain
  split_ifs
  · exact h
  · exact txDrain_bounded h

/-- What the loop writes while bytes are left is within the bounds (R170, R172). -/
theorem nextWrite_bounded {p : List Byte} {s : State} (h : BoundedSoFar c before s) (ho : s.txOff < p.length) :
    (txWrite (slice p s.txOff (nextLength p s)) s).Bounded c before := by
  refine txWrite_bounded h ?_
  rw [slice_nextLength_length ho.le]
  exact ⟨nextLength_pos ho, h.chunkSize ▸ Nat.min_le_left _ _⟩

/-- Every round of the loop keeps the writes bounded. -/
theorem sendLoop_bounded (p : List Byte) : ∀ (fuel : Nat) {s : State}, BoundedSoFar c before s →
    (sendLoop p fuel s).Bounded c before := by
  intro fuel
  induction fuel with
  | zero => exact fun h => h
  | succ fuel ih =>
    intro s h
    rcases Nat.lt_or_ge s.txOff p.length with ho | ho
    · have hwrite := nextWrite_bounded h ho
      have hdrain : ∀ {s1 : State}, txWrite (slice p s.txOff (nextLength p s)) s = .go (some (nextLength p s)) s1 →
          (paceDrain (movedOn p s s1)).Bounded c before :=
        fun hw => paceDrain_bounded ((hwrite.of_go hw).congr rfl rfl rfl)
      have hround := sendLoop_sendRound fuel h.busy ho
      generalize sendLoop p (fuel + 1) s = run at hround ⊢
      cases hround with
      | lost => exact h
      | writeStops hw => exact hwrite.of_stop hw
      | writeError hw => exact hwrite.of_go hw
      | shortWrite hw => exact (hwrite.of_go hw).congr rfl rfl rfl
      | drainStops hw hd => exact (hdrain hw).of_stop hd
      | drainFailed hw hd => exact (hdrain hw).of_go hd
      | goesOn hw hd => exact ih ((hdrain hw).of_go hd)
    · rw [sendLoop_end ho]
      exact h

/-- A send writes nothing out of bounds (R170, R172). -/
theorem send_bounded (p : List Byte) {s : State} (h : BoundedSoFar c before s) : (send p s).Bounded c before :=
  sendLoop_bounded p _ (s := setCursor 0 0 s) (h.congr rfl rfl rfl)

/-! ### The operations -/

/-- An operation, from its acceptance on. -/
theorem accept_andThen_bounded {s t : State} {f : Unit → State → Result} (e : (accept s).andThen f = .next t)
    (hf : ∀ s1, BoundedSoFar s.cfg.params.chunkSize s.requests s1 → f () s1 = .next t →
      BoundedWrites s.cfg.params.chunkSize s.requests t) : BoundedWrites s.cfg.params.chunkSize s.requests t := by
  cases hb : s.busy with
  | true => rw [accept_busy hb] at e; cases e
  | false =>
    rw [accept_idle hb] at e
    have haccepted : BoundedSoFar s.cfg.params.chunkSize s.requests { s with busy := true } := ⟨rfl, rfl, .refl _ s⟩
    exact (gap_bounded haccepted).andThen e fun _ => hf

/-- The checks of R201 request nothing. -/
theorem checked_bounded {allowed : Session → Bool} {s t : State} {body : State → Result} (h : BoundedSoFar c before s)
    (e : checked allowed s body = .next t) (hbody : body s = .next t → BoundedWrites c before t) :
    BoundedWrites c before t := by
  rcases checked_next e with ⟨-, rfl⟩ | ⟨-, -, rfl⟩ | ⟨-, -, e⟩
  · exact h.writes.finish
  · exact h.writes.finish
  · exact hbody e

/-- The operations that send a command frame (R203). -/
theorem sendCommand_bounded {cmd : Command} {allowed : Session → Bool} {onDone onFailed : Session → Session}
    {s t : State} (e : sendCommand cmd allowed onDone onFailed s = .next t) :
    BoundedWrites s.cfg.params.chunkSize s.requests t := by
  refine accept_andThen_bounded e fun s1 h1 e => checked_bounded h1 e fun e =>
    (send_bounded _ h1).andThen e fun r s2 h2 e => ?_
  cases r with
  | done k => cases e; exact h2.writes.finish
  | failed k => cases e; exact h2.writes.finish

theorem execOpen_bounded {s t : State} (e : execOpen s = .next t) :
    BoundedWrites s.cfg.params.chunkSize s.requests t := by
  refine accept_andThen_bounded e fun s1 h1 e => ?_
  split_ifs at e
  · cases e
    exact h1.writes.finish
  · cases e
    exact h1.writes.finish
  · refine (txOpen_bounded h1).andThen e fun ok s2 h2 e => ?_
    cases ok with
    | true => cases e; exact h2.writes.finish
    | false => cases e; exact h2.writes.finish

theorem execClose_bounded {s t : State} (e : execClose s = .next t) :
    BoundedWrites s.cfg.params.chunkSize s.requests t := by
  refine accept_andThen_bounded e fun s1 h1 e => checked_bounded h1 e fun e => ?_
  have hclose : BoundedSoFar s.cfg.params.chunkSize s.requests (logRequest .close s1) :=
    ⟨h1.busy, h1.chunkSize, h1.writes.append (fun _ hq => by cases hq) rfl⟩
  refine (gap_bounded hclose).andThen e fun _ s2 h2 e => ?_
  cases e
  exact h2.writes.finish

theorem execEraseSettled_bounded {s t : State} (e : execEraseSettled s = .next t) :
    BoundedWrites s.cfg.params.chunkSize s.requests t := by
  refine accept_andThen_bounded e fun s1 h1 e => checked_bounded h1 e fun e => ?_
  cases e
  exact h1.writes.finish

theorem execAwaitDrain_bounded {s t : State} (e : execAwaitDrain s = .next t) :
    BoundedWrites s.cfg.params.chunkSize s.requests t := by
  refine accept_andThen_bounded e fun s1 h1 e => checked_bounded h1 e fun e =>
    (awaitDrain_bounded h1).andThen e fun ok s2 h2 e => ?_
  cases ok with
  | true => cases e; exact h2.writes.finish
  | false => cases e; exact h2.writes.finish

theorem execReserved_bounded {op arg : Byte} {s t : State} (e : execReserved op arg s = .next t) :
    BoundedWrites s.cfg.params.chunkSize s.requests t := by
  refine accept_andThen_bounded e fun s1 h1 e => ?_
  cases e
  exact h1.writes.finish

/-- What `convert` writes to BMP requests nothing (R144). -/
theorem BoundedSoFar.convertImage {s s2 : State} {f : PixelFormat} (h : BoundedSoFar c before s)
    (hc : convertImage s f = .ok s2) : BoundedSoFar c before s2 := by
  obtain ⟨bytes, -, rfl⟩ := convertImage_ok.1 hc
  exact h.congr rfl rfl rfl

/-- What `unpack` writes to BMP requests nothing (R146). -/
theorem BoundedSoFar.unpackPayload {s s2 : State} (h : BoundedSoFar c before s) (hu : unpackPayload s = .ok s2) :
    BoundedSoFar c before s2 := by
  obtain ⟨bytes, -, rfl⟩ := unpackPayload_ok.1 hu
  exact h.congr rfl rfl rfl

/-- The part the two uploads share (R218, R219). -/
theorem uploadBitmap_bounded {s t : State} (h : BoundedSoFar c before s) (e : uploadBitmap s = .next t) :
    BoundedWrites c before t := by
  unfold uploadBitmap at e
  split at e
  · cases e
  · have hup : BoundedSoFar c before { s with session := .uploading } := h.congr rfl rfl rfl
    refine (send_bounded _ hup).andThen e fun r s2 h2 e => ?_
    cases r with
    | done k => cases e; exact h2.writes.finish
    | failed k => cases e; exact h2.writes.finish

theorem execConvert_bounded {s t : State} (e : execConvert s = .next t) :
    BoundedWrites s.cfg.params.chunkSize s.requests t := by
  refine accept_andThen_bounded e fun s1 h1 e => ?_
  split at e
  · cases e
    exact h1.writes.finish
  · split at e
    · next hc =>
      cases e
      exact (h1.convertImage hc).writes.finish
    · cases e

theorem execUnpack_bounded {s t : State} (e : execUnpack s = .next t) :
    BoundedWrites s.cfg.params.chunkSize s.requests t := by
  refine accept_andThen_bounded e fun s1 h1 e => ?_
  split at e
  · split at e
    · next hu =>
      cases e
      exact (h1.unpackPayload hu).writes.finish
    · cases e
  · cases e
    exact h1.writes.finish

theorem execUploadImage_bounded {s t : State} (e : execUploadImage s = .next t) :
    BoundedWrites s.cfg.params.chunkSize s.requests t := by
  refine accept_andThen_bounded e fun s1 h1 e => checked_bounded h1 e fun e => ?_
  split at e
  · cases e
    exact h1.writes.finish
  · split at e
    · next hc => exact uploadBitmap_bounded (h1.convertImage hc) e
    · cases e

theorem execUploadRaw_bounded {s t : State} (e : execUploadRaw s = .next t) :
    BoundedWrites s.cfg.params.chunkSize s.requests t := by
  refine accept_andThen_bounded e fun s1 h1 e => checked_bounded h1 e fun e => ?_
  split at e
  · split at e
    · next hu => exact uploadBitmap_bounded (h1.unpackPayload hu) e
    · cases e
  · cases e
    exact h1.writes.finish

/-- Settles O25: operation by operation, those that send a frame by their one template. -/
theorem writesStayWithinChunkSize : Obligations.WritesStayWithinChunkSize := by
  intro i s t e
  cases i with
  | openPort => exact execOpen_bounded e
  | close => exact execClose_bounded e
  | eraseSettled => exact execEraseSettled_bounded e
  | awaitDrain => exact execAwaitDrain_bounded e
  | convert => exact execConvert_bounded e
  | unpack => exact execUnpack_bounded e
  | uploadImage => exact execUploadImage_bounded e
  | uploadRaw => exact execUploadRaw_bounded e
  | reserved op arg => exact execReserved_bounded (op := op) (arg := arg) e
  | home | center | preview | moveUp | moveDown | moveLeft | moveRight => exact sendCommand_bounded e
  | pause => exact sendCommand_bounded (show execPause s = .next t from e)
  | reset => exact sendCommand_bounded (show execReset s = .next t from e)
  | start v => exact sendCommand_bounded (show execStart v s = .next t from e)
  | erase => exact sendCommand_bounded (show execErase s = .next t from e)

end Sys2Proof.Machine
end

section
/-! The invariant between operations (43_session_sequencer.md, R221; 20_memory.md, R50): what an input can change, where
an operation can end, and that every step keeps the invariant and the parameters. -/

namespace Sys2Proof.Machine

open Sys2Proof.Safety

/-! ### The invariant -/

/-- The invariant, with the three buffers as one family. -/
theorem inv_iff_buffers {s : State} : Inv s ↔
    s.busy = false ∧ s.session ≠ .uploading ∧ (s.spent = true → s.session = .disconnected) ∧
      (s.lost = true → s.session = .disconnected ∧ s.spent = true) ∧
      ∀ sp, (s.buffer sp).wf (capacity s.cfg sp) := by
  have hbuf : (∀ sp, (s.buffer sp).wf (capacity s.cfg sp)) ↔
      s.img.wf (capacity s.cfg .img) ∧ s.payload.wf (capacity s.cfg .payload) ∧ s.bmp.wf (capacity s.cfg .bmp) :=
    ⟨fun h => ⟨h .img, h .payload, h .bmp⟩, fun ⟨hi, hp, hb⟩ sp => by cases sp <;> assumption⟩
  rw [hbuf]

/-- The reset values of R38 meet the invariant, whatever lies outside the block. -/
theorem blockReset_inv (s : State) : Inv (blockReset s) :=
  ⟨rfl, by simp [State.reset], nofun, nofun, Memory.wf_nil _, Memory.wf_nil _, Memory.wf_nil _⟩

/-- Settles O46: flags and session by evaluation, and an empty buffer is in the canonical form. -/
theorem invariantHoldsAfterReset : Obligations.InvariantHoldsAfterReset :=
  inv_iff_buffers.2 ⟨rfl, by simp [State.reset], nofun, nofun, reset_wf⟩

/-! ### Inputs -/

/-- What a host access changes (R35, R51): what the host has read, its registers, and the content of IMG and PAYLOAD,
whose canonical form it keeps. -/
structure HostAccess (s t : State) : Prop where
  eq : t = { s with
    reads := t.reads, imgW := t.imgW, imgH := t.imgH, imgFmt := t.imgFmt, payloadLen := t.payloadLen, img := t.img,
    payload := t.payload }
  buffers : (∀ sp, (s.buffer sp).wf (capacity s.cfg sp)) → ∀ sp, (t.buffer sp).wf (capacity t.cfg sp)

/-- A register access that takes place leaves the buffers alone. -/
theorem HostAccess.of_registers {s t : State}
    (h : t = { s with
      reads := t.reads, imgW := t.imgW, imgH := t.imgH, imgFmt := t.imgFmt, payloadLen := t.payloadLen }) :
    HostAccess s t := by
  rw [h]
  refine ⟨rfl, fun hw sp => ?_⟩
  cases sp with
  | img => exact hw .img
  | payload => exact hw .payload
  | bmp => exact hw .bmp

/-- A register read the port gives logs a value (R35, R58). -/
theorem hostRegRead_access {num : Nat} {s t : State} (h : hostRegRead num s = .next t) : HostAccess s t := by
  simp only [hostRegRead] at h
  split at h
  · cases h
  split_ifs at h
  split at h
  · cases h
  · cases h
    exact .of_registers rfl

/-- A register write the port gives is to one of the four host registers (R35). -/
theorem hostRegWrite_access {num value : Nat} {s t : State} (h : hostRegWrite num value s = .next t) :
    HostAccess s t := by
  simp only [hostRegWrite] at h
  split at h
  · cases h
  split_ifs at h
  split at h <;> cases h <;> exact .of_registers rfl

/-- A memory read the port gives logs a value (R51, R58). -/
theorem hostMemRead_access {sp : Space} {a : Nat} {s t : State} (h : hostMemRead sp a s = .next t) :
    HostAccess s t := by
  simp only [hostMemRead] at h
  split_ifs at h
  split at h <;> cases h
  exact .of_registers rfl

/-- A memory write the port gives is one byte of IMG or PAYLOAD, inside its space (R51, R52). -/
theorem hostMemWrite_access {sp : Space} {a : Nat} {b : Byte} {s t : State} (h : hostMemWrite sp a b s = .next t) :
    HostAccess s t := by
  simp only [hostMemWrite] at h
  split_ifs at h with _ hsp ha
  cases h
  have hin : a + [b].length ≤ capacity s.cfg sp := Nat.not_le.1 ha
  cases sp with
  | img => exact ⟨rfl, fun hw => memWrite_wf hw hin⟩
  | payload => exact ⟨rfl, fun hw => memWrite_wf hw hin⟩
  | bmp => exact absurd rfl hsp

/-- Every next state an input answers: a host access, the loss, or block reset. -/
theorem applyInput_next {inp : Input} {s t : State} (h : applyInput inp s = .next t) :
    HostAccess s t ∨ (inp = .lost ∧ t = loseTransport s) ∨ (inp = .blockReset ∧ t = blockReset s) := by
  cases inp with
  | regRead num => exact .inl (hostRegRead_access h)
  | regWrite num value => exact .inl (hostRegWrite_access h)
  | memRead sp a => exact .inl (hostMemRead_access h)
  | memWrite sp a b => exact .inl (hostMemWrite_access h)
  | lost => cases h; exact .inr (.inl ⟨rfl, rfl⟩)
  | blockReset => cases h; exact .inr (.inr ⟨rfl, rfl⟩)

/-- A host access keeps the invariant. -/
theorem HostAccess.inv {s t : State} (h : HostAccess s t) (hs : Inv s) : Inv t := by
  obtain ⟨hb, hu, hsp, hl, hw⟩ := inv_iff_buffers.1 hs
  refine inv_iff_buffers.2 ⟨?_, ?_, ?_, ?_, h.buffers hw⟩ <;> rw [h.eq] <;> assumption

/-- The loss changes LOST, the session, SPENT and the log of requests, nothing else (R253). -/
theorem loseTransport_eq (s : State) : loseTransport s = { s with
    lost := (loseTransport s).lost, session := (loseTransport s).session, spent := (loseTransport s).spent,
    requests := (loseTransport s).requests } := by
  unfold loseTransport
  split_ifs <;> rfl

/-- A loss at rest keeps the invariant: it ends the session (R253). -/
theorem loseTransport_inv {s : State} (hs : Inv s) : Inv (loseTransport s) := by
  obtain ⟨hb, hu, hsp, hl, hw⟩ := hs
  unfold loseTransport
  split_ifs with hh hb'
  · exact absurd (hb ▸ hb') nofun
  · exact ⟨hb, nofun, fun _ => rfl, fun _ => ⟨rfl, rfl⟩, hw⟩
  · exact ⟨hb, hu, hsp, hl, hw⟩

/-- Every input keeps the invariant and the parameters. -/
theorem applyInput_keeps {inp : Input} {s t : State} (h : applyInput inp s = .next t) :
    (Inv s → Inv t) ∧ t.cfg = s.cfg := by
  rcases applyInput_next h with ha | ⟨-, rfl⟩ | ⟨-, rfl⟩
  · exact ⟨ha.inv, by rw [ha.eq]⟩
  · exact ⟨loseTransport_inv, by rw [loseTransport_eq]⟩
  · exact ⟨fun _ => blockReset_inv s, rfl⟩

/-! ### The ends of operations -/

/-- Success leaves an operation out of Uploading (R202). -/
theorem onSuccess_ne_uploading {i : Instr} {x : Session} (h : x ≠ .uploading) : onSuccess i x ≠ .uploading := by
  cases i <;> simp [onSuccess, h]

/-- Failure leaves the session as it was, but for `RESET` in a connected state (R203, R214). -/
theorem onError_eq (i : Instr) (x : Session) :
    onError i x = if i = .reset ∧ x ≠ .disconnected then .idle else x := by
  cases i
  case reset => cases x <;> rfl
  all_goals rfl

/-- Of the operations that get to run, only `CLOSE` succeeds into Disconnected from a connected state (R202, R205). -/
theorem onSuccess_eq_disconnected {i : Instr} {x : Session} (h : onSuccess i x = .disconnected) :
    i = .close ∨ x = .disconnected := by
  cases i <;> simp_all [onSuccess]

/-- What an operation that gets to run in Disconnected finds and leaves: `OPEN` needs SPENT = 0, `CONVERT` and `UNPACK`
change no session (R201). -/
theorem GetsToRun.in_disconnected {i : Instr} {s : State} (h : GetsToRun i s) (hs : s.session = .disconnected) :
    (i = .openPort ∧ s.spent = false) ∨ i = .convert ∨ i = .unpack := by
  rcases h with ⟨hi, -, hsp⟩ | hi | hi | ⟨-, hne, -⟩
  · exact .inl ⟨hi, hsp⟩
  · exact .inr (.inl hi)
  · exact .inr (.inr hi)
  · exact absurd hs hne

section
variable {i : Instr} {s s1 : State} {st : Status} {k : Nat} {x : Session} {sp : Bool} {m : Memory}
  (he : Ends i s s1 st k x sp m)
include he

/-- No operation ends in Uploading (R221 (1)). -/
theorem Ends.session_ne_uploading (hs : s.session ≠ .uploading) : x ≠ .uploading := by
  cases he with
  | turnedAway => exact hs
  | done => exact onSuccess_ne_uploading hs
  | failed =>
    rw [onError_eq]
    split_ifs
    · exact nofun
    · exact hs

/-- An operation that ends with SPENT = 1 ends in Disconnected (R221 (3)). -/
theorem Ends.disconnected_of_spent (hs : s.spent = true → s.session = .disconnected) (h : sp = true) :
    x = .disconnected := by
  cases he with
  | turnedAway => exact hs h
  | done hrun =>
    rcases Bool.or_eq_true_iff.1 h with hsp | hi
    · have hd := hs hsp
      rcases hrun.in_disconnected hd with ⟨-, hno⟩ | rfl | rfl
      · exact absurd (hno ▸ hsp) nofun
      · exact hd
      · exact hd
    · rw [eq_of_beq hi]
      rfl
  | failed => rw [onError_eq, if_neg (fun hr => hr.2 (hs h)), hs h]

/-- An operation that leaves a connected state for Disconnected spends the block (R205). -/
theorem Ends.spent_of_disconnected (hs : s.session ≠ .disconnected) (h : x = .disconnected) : sp = true := by
  cases he with
  | turnedAway => exact absurd h hs
  | done => simp [(onSuccess_eq_disconnected h).resolve_right hs]
  | failed =>
    rw [onError_eq] at h
    split_ifs at h
    exact absurd h hs

end

/-- A new bitmap is in the canonical form if the old one was (R50). -/
theorem BmpAfter.wf {i : Instr} {s : State} {m : Memory} (h : BmpAfter i s m) (hs : s.bmp.wf bmpBytes) :
    m.wf bmpBytes := by
  rcases h with rfl | ⟨-, bytes, hl, rfl⟩
  · exact hs
  · exact Memory.wf_writeBytes hs (by simp [hl, bmpBytes])

/-- `finish` leaves the buffers alone (R31). -/
@[simp] theorem finish_buffer (st : Status) (c : Nat) (s : State) (sp : Space) :
    (finish st c s).buffer sp = s.buffer sp := by
  cases sp with
  | img => exact finish_img st c s
  | payload => exact finish_payload st c s
  | bmp => exact finish_bmp st c s

/-- `finish` ends a lost session, so it meets the invariant where the session and SPENT to end with agree (R31). -/
theorem finish_inv {st : Status} {c : Nat} {s : State} (hu : s.session ≠ .uploading)
    (hsp : s.spent = true → s.session = .disconnected)
    (hl : s.lost = true → s.session = .disconnected → s.spent = true)
    (hw : ∀ sp, (s.buffer sp).wf (capacity s.cfg sp)) : Inv (finish st c s) := by
  refine inv_iff_buffers.2 ⟨finish_busy st c s, ?_, ?_, ?_, fun sp => by simpa using hw sp⟩
  · rw [finish_session]
    split_ifs
    · exact nofun
    · exact hu
  · rw [finish_session, finish_spent]
    split_ifs
    · exact fun _ => rfl
    · exact hsp
  · rw [finish_lost_field, finish_session, finish_spent]
    intro hlost
    by_cases hd : s.session = .disconnected
    · simp [hd, hl hlost hd]
    · simp [(held_eq_true_iff s).2 hd, hlost]

/-- Every operation keeps the invariant. -/
theorem exec_inv {i : Instr} {s t : State} (hs : Inv s) (h : exec i s = .next t) : Inv t := by
  obtain ⟨-, hu, hsp, hl, himg, hpayload, hbmp⟩ := hs
  rcases (exec_answered h).2 with ⟨-, s1, -, rfl⟩ | ⟨s1, st, k, x, sp, m, h1, he, rfl⟩
  · exact blockReset_inv s1
  refine finish_inv (he.session_ne_uploading hu) (he.disconnected_of_spent hsp) (fun hlost hx => ?lost)
    fun b => ?buffers
  case lost =>
    rcases h1.lost_held hlost with hbefore | hheld
    · exact he.spent_stays (hl hbefore).2
    · exact he.spent_of_disconnected ((held_eq_true_iff _).1 hheld) hx
  case buffers =>
    have hcfg : s1.cfg = s.cfg := h1.cfg
    cases b with
    | img => simpa [State.buffer, hcfg, show s1.img = s.img from h1.img] using himg
    | payload => simpa [State.buffer, hcfg, show s1.payload = s.payload from h1.payload] using hpayload
    | bmp => exact he.bmpAfter.wf hbmp

/-- No operation changes the parameters (R65). -/
theorem exec_cfg {i : Instr} {s t : State} (h : exec i s = .next t) : t.cfg = s.cfg := by
  rcases (exec_answered h).2 with ⟨-, s1, h1, rfl⟩ | ⟨s1, st, k, x, sp, m, h1, -, rfl⟩
  · exact h1.cfg
  · rw [finish_cfg]
    exact h1.cfg

/-- Every next state a step answers: the state itself, or what an operation or another input left of the state without
the input taken. -/
theorem step_next {s t : State} (h : step s = .next t) :
    t = s ∨ ∃ rest, (∃ i, exec i { s with inbox := rest } = .next t) ∨
      ∃ inp, applyInput inp { s with inbox := rest } = .next t := by
  cases hin : s.inbox with
  | nil =>
    rw [step_quiet hin] at h
    cases h
    exact .inl rfl
  | cons inp rest =>
    refine .inr ⟨rest, ?_⟩
    cases hw : hopWrite inp with
    | none => exact .inr ⟨inp, step_other hin hw ▸ h⟩
    | some w => exact .inl ⟨decode w, by simpa [step, fetch, hin, hw] using h⟩

/-- Settles O47: the invariant does not speak of the inbox, and operations and inputs keep it and the parameters. -/
theorem stepKeepsInvariant : Obligations.StepKeepsInvariant := by
  intro s t h
  rcases step_next h with rfl | ⟨rest, ⟨i, h⟩ | ⟨inp, h⟩⟩
  · exact ⟨id, rfl⟩
  · exact ⟨fun hs => exec_inv (s := { s with inbox := rest }) hs h, exec_cfg (s := { s with inbox := rest }) h⟩
  · exact applyInput_keeps (s := { s with inbox := rest }) h

end Sys2Proof.Machine
end

section
/-! The transition table (43_session_sequencer.md, R202, R221, R222): the session state every operation leaves, for
every transport, and what follows for Engraving and Ready. -/

namespace Sys2Proof.Machine

open Sys2Proof.Safety

/-- An operation that needs the transport and gets to run between operations is allowed by the table (R202). -/
theorem GetsToRun.allowed {i : Instr} {s : State} (h : GetsToRun i s) (hi : needsTransport i = true)
    (hu : s.session ≠ .uploading) : s.session ∈ tableAllows i := by
  rcases h with ⟨rfl, -⟩ | rfl | rfl | ⟨-, -, ha⟩
  · cases hi
  · cases hi
  · cases hi
  · exact ha.resolve_right hu

/-- `OPEN` gets to run in Disconnected only (R204). -/
theorem GetsToRun.openPort {s : State} (h : GetsToRun .openPort s) : s.session = .disconnected := by
  have hd : s.session = .disconnected ∧ s.spent = false := by simpa [GetsToRun, needsTransport] using h
  exact hd.1

/-- An operation is turned away with an error (R201). -/
theorem TurnedAway.ne_ok {i : Instr} {s : State} {st : Status} (h : TurnedAway i s st) : st ≠ .ok := by
  rintro rfl
  exact h

/-- A failure is an error (R250). -/
theorem FailsWith.ne_ok {i : Instr} {st : Status} (h : FailsWith i st) : st ≠ .ok := by
  rintro rfl
  exact h

/-- A `RESET` that is turned away finds Disconnected: the table has no dash for it (R202, R214). -/
theorem TurnedAway.reset {s : State} {st : Status} (h : TurnedAway .reset s st) (hu : s.session ≠ .uploading) :
    s.session = .disconnected := by
  cases st with
  | notConnected => simpa [TurnedAway, needsTransport] using h
  | invalidState =>
    have hd : s.session ≠ .disconnected ∧ s.session ∉ tableAllows .reset := by
      simpa [TurnedAway, needsTransport] using h
    cases hx : s.session <;> simp_all [tableAllows]
  | ok | connectionFailed | transmissionFailed | timedOut => exact h.elim
  | invalidImage | invalidPayloadSize | invalidOperation => simp [TurnedAway] at h

/-- How an operation that was not disturbed by a loss ends: with `OK` in the table's success state, or with an error in
its failure state (R202, R203). -/
theorem exec_session {i : Instr} {s t : State} (hu : s.session ≠ .uploading) (hn : NoBlockReset s)
    (h : exec i s = .next t) (hl : t.lost = false) :
    (t.status = .ok ∧ GetsToRun i s ∧ t.session = onSuccess i s.session) ∨
      (t.status ≠ .ok ∧ t.session = onError i s.session) := by
  obtain ⟨s1, st, k, x, sp, m, h1, he, rfl⟩ := exec_ends hn h
  rw [finish_lost_field] at hl
  have hses : (finish st k { s1 with session := x, spent := sp, bmp := m }).session = x := by
    rw [finish_session, hl, Bool.and_false, if_neg nofun]
  rw [finish_status, hses]
  cases he with
  | turnedAway ht =>
    refine .inr ⟨ht.ne_ok, ?_⟩
    rw [onError_eq, if_neg]
    rintro ⟨rfl, hd⟩
    exact hd (ht.reset hu)
  | done hrun => exact .inl ⟨rfl, hrun, rfl⟩
  | failed _ hf => exact .inr ⟨hf.ne_ok, rfl⟩

/-- Settles O43: without a loss by how the operation ends; a loss has ended the session by the invariant. -/
theorem sessionFollowsTransitionTable : Obligations.SessionFollowsTransitionTable := by
  intro i s t hs hn h
  obtain ⟨-, -, -, hlost, -⟩ := exec_inv hs h
  obtain ⟨-, hu, -⟩ := hs
  refine ⟨fun hl hok => ?_, fun hl herr => ?_, hlost⟩
  · rcases exec_session hu hn h hl with ⟨-, -, hx⟩ | ⟨hne, -⟩
    · exact hx
    · exact absurd hok hne
  · rcases exec_session hu hn h hl with ⟨hok, -, -⟩ | ⟨-, hx⟩
    · exact absurd hok herr
    · exact hx

/-! ### Engraving -/

/-- What the table allows in Engraving stays there, but for `PAUSE`, `RESET` and `CLOSE` (R202, R222). -/
theorem onSuccess_engraving {i : Instr} {s : State} (h : GetsToRun i s) (hs : s.session = .engraving) :
    onSuccess i s.session = .engraving ∨ i = .pause ∨ i = .reset ∨ i = .close := by
  have hallowed := fun hi => h.allowed hi (by simp [hs])
  have hopen := fun hi : i = .openPort => (hi ▸ h).openPort
  rw [hs] at hallowed hopen ⊢
  cases i <;> simp_all [needsTransport, tableAllows, onSuccess]

/-- A host access leaves the session alone (R35, R51). -/
theorem HostAccess.session {s t : State} (h : HostAccess s t) : t.session = s.session := by
  rw [h.eq]

/-- Settles O44: an operation ends by the table or with a loss, and of the inputs only the loss touches the session. -/
theorem engravingIsLeftOnlyBy : Obligations.EngravingIsLeftOnlyBy := by
  refine ⟨fun i s t hs hn h hx => ?operation, fun inp s t hinp h hx => ?input⟩
  case operation =>
    obtain ⟨-, hu, -⟩ := hs
    cases hl : t.lost with
    | true => simp
    | false =>
      rcases exec_session hu hn h hl with ⟨-, hrun, ht⟩ | ⟨-, ht⟩
      · rw [ht]
        rcases onSuccess_engraving hrun hx with h | h | h | h <;> simp [h]
      · rw [ht, onError_eq, hx]
        by_cases hr : i = .reset <;> simp [hr]
  case input =>
    rcases applyInput_next h with ha | ⟨hlost, -⟩ | ⟨hreset, -⟩
    · exact .inl (ha.session.trans hx)
    · exact .inr hlost
    · exact absurd hreset hinp

/-! ### Ready -/

/-- Into Ready, Engraving or Paused from outside leads only the success of an upload, to Ready (R202, R221 (2)). -/
theorem onSuccess_into_ready {i : Instr} {s : State} (h : GetsToRun i s) (hu : s.session ≠ .uploading)
    (ht : onSuccess i s.session ∈ [Session.ready, .engraving, .paused]) :
    s.session ∈ [Session.ready, .engraving, .paused] ∨
      (s.session = .idle ∧ (i = .uploadImage ∨ i = .uploadRaw) ∧ onSuccess i s.session = .ready) := by
  have hallowed := fun hi => h.allowed hi hu
  cases i
  case start v =>
    have hsub : tableAllows (.start v) ⊆ [Session.ready, .engraving, .paused] := by simp [tableAllows]
    exact .inl (hsub (hallowed rfl))
  all_goals simp_all [needsTransport, tableAllows, onSuccess]

/-- No failure leads into Ready, Engraving or Paused from outside (R203, R214). -/
theorem onError_into_ready {i : Instr} {x : Session} (h : onError i x ∈ [Session.ready, .engraving, .paused]) :
    x ∈ [Session.ready, .engraving, .paused] := by
  rw [onError_eq] at h
  split_ifs at h
  · simp at h
  · exact h

/-- Settles O45: a loss ends in Disconnected; without one the table's success or failure state is left. -/
theorem readyNeedsAnUpload : Obligations.ReadyNeedsAnUpload := by
  intro i s t hs hn h ht
  obtain ⟨-, -, -, hlost, -⟩ := exec_inv hs h
  obtain ⟨-, hu, -⟩ := hs
  cases hl : t.lost with
  | true => simp [(hlost hl).1] at ht
  | false =>
    rcases exec_session hu hn h hl with ⟨hok, hrun, hx⟩ | ⟨-, hx⟩
    · rw [hx] at ht ⊢
      exact (onSuccess_into_ready hrun hu ht).imp_right fun ⟨hi, hup, hr⟩ => ⟨hi, hup, hok, hr⟩
    · exact .inl (onError_into_ready (hx ▸ ht))

end Sys2Proof.Machine
end

section
/-! Operations that are turned away or send no bytes (43_session_sequencer.md, R201, R202, R204, R205, R217, R220), when
nothing lands in their gaps. -/

namespace Sys2Proof.Machine

open Sys2Proof.Safety

/-! ### Acceptance in a quiet gap -/

/-- The state in which an operation begins that was accepted in a quiet gap (R70, R200). -/
def accepted (s : State) : State := { s with busy := true, gaps := s.gaps.drop 1 }

@[simp] theorem accepted_cfg (s : State) : (accepted s).cfg = s.cfg := rfl
@[simp] theorem accepted_session (s : State) : (accepted s).session = s.session := rfl
@[simp] theorem accepted_spent (s : State) : (accepted s).spent = s.spent := rfl
@[simp] theorem accepted_busy (s : State) : (accepted s).busy = true := rfl
@[simp] theorem accepted_lost (s : State) : (accepted s).lost = s.lost := rfl
@[simp] theorem accepted_answers (s : State) : (accepted s).answers = s.answers := rfl
@[simp] theorem accepted_gaps (s : State) : (accepted s).gaps = s.gaps.drop 1 := rfl

/-- Acceptance in a quiet gap leaves the accepted state. -/
theorem accept_eq_accepted {s : State} {n : Nat} (hb : s.busy = false) (hq : QuietGaps s (n + 1)) :
    accept s = .go () (accepted s) :=
  (accept_quiet hb hq).1

/-- The gaps that were quiet behind the gap of acceptance. -/
theorem quietGaps_accepted {s : State} {n : Nat} (h : QuietGaps s (n + 1)) : QuietGaps (accepted s) n :=
  QuietGaps.drop (m := 1) (by rwa [Nat.add_comm]) rfl

/-- An operation that passes the checks of R201 in a quiet gap goes on with its own steps. -/
theorem accept_checked {s : State} {n : Nat} {allowed : Session → Bool} {body : State → Result}
    (hb : s.busy = false) (hq : QuietGaps s (n + 1)) (hx : s.session ≠ .disconnected) (ha : allowed s.session = true) :
    ((accept s).andThen fun _ s1 => checked allowed s1 body) = body (accepted s) := by
  rw [accept_eq_accepted hb hq, Run.go_andThen]
  exact checked_allowed hx ha

/-- A settled state with a connected session has not lost its transport (R221 (4), R253). -/
theorem lost_eq_false_of_settled {s : State} (hs : Settled s) (hx : s.session ≠ .disconnected) : s.lost = false :=
  Bool.eq_false_iff.2 fun hl => hx (hs.2 hl)

/-- An operation that ends as it was accepted in a settled state, the session unchanged (R31). -/
theorem finish_of_accepted {s : State} (hs : Settled s) (st : Status) (c : Nat) :
    finish st c (accepted s) = finished s st c s.session :=
  finish_accepted hs.1 hs.2 st c

/-! ### The checks of R201 -/

/-- Step 2 of R201, failed. -/
theorem checked_disconnected {allowed : Session → Bool} {s : State} (body : State → Result)
    (h : s.session = .disconnected) : checked allowed s body = .next (finish .notConnected 0 s) := by
  rw [checked, if_pos h, raiseError_eq]

/-- Step 3 of R201, failed. -/
theorem checked_refused {allowed : Session → Bool} {s : State} (body : State → Result) (h : s.session ≠ .disconnected)
    (ha : allowed s.session = false) : checked allowed s body = .next (finish .invalidState 0 s) := by
  rw [checked, if_neg h, if_neg (by simp [ha]), raiseError_eq]

/-- Every operation that needs the transport is accepted and then checked, in the connected states by the table of
R202. -/
theorem exec_checked {i : Instr} (hi : needsTransport i = true) : ∃ allowed body,
    (∀ s, exec i s = (accept s).andThen fun _ s1 => checked allowed s1 body) ∧
      ∀ x ∈ [Session.idle, .erasing, .ready, .engraving, .paused], allowed x = decide (x ∈ tableAllows i) := by
  cases i
  case openPort | convert | unpack | reserved => cases hi
  all_goals exact ⟨_, _, fun _ => rfl, by simp [tableAllows, inIdleOrReady, inAnySession]⟩

/-- Settles O41: step 2 of R201 comes first in each of them. -/
theorem disconnectedMeansNotConnected : Obligations.DisconnectedMeansNotConnected := by
  intro i s hi hb hx hq
  obtain ⟨allowed, body, hexec, -⟩ := exec_checked hi
  rw [hexec, accept_eq_accepted hb hq, Run.go_andThen, checked_disconnected (s := accepted s) body hx,
    finish_of_accepted ⟨hb, fun _ => hx⟩, hx]

/-- Settles O42: step 3 of R201 asks the table. -/
theorem tableDashesMeanInvalidState : Obligations.TableDashesMeanInvalidState := by
  intro i s hi hs hx hdash hq
  obtain ⟨allowed, body, hexec, htable⟩ := exec_checked hi
  have hconn : s.session ≠ .disconnected := fun h => by simp [h] at hx
  have hno : allowed s.session = false := by rw [htable _ hx]; exact decide_eq_false hdash
  rw [hexec, accept_eq_accepted hs.1 hq, Run.go_andThen, checked_refused (s := accepted s) body hconn hno,
    finish_of_accepted hs]

/-! ### `OPEN` and `CLOSE` -/

/-- Settles O26: one quiet `TxOpen`, and `finish` with no loss to attend to. -/
theorem openCompletes : Obligations.OpenCompletes := by
  intro s a rest hb hl hx hsp hq ha
  have hacc := accept_eq_accepted hb hq
  have hopen := txOpen_quiet (s := accepted s) ha (quietGaps_succ (quietGaps_accepted hq))
  simp only [exec, execOpen, hacc, Run.go_andThen, accepted_spent, accepted_session, hsp, hx, hopen, raiseError_eq]
  cases hok : a.ok <;> simp [finish_calm, hl, hb, accepted]

/-- Settles O27: the two checks of `OPEN` come before its request. -/
theorem openRejected : Obligations.OpenRejected := by
  intro s hs hq
  rw [exec, execOpen, accept_eq_accepted hs.1 hq, Run.go_andThen, accepted_spent, accepted_session]
  refine ⟨fun hsp => ?_, fun hsp hx => ?_⟩
  · rw [if_pos hsp, raiseError_eq, finish_of_accepted hs]
  · rw [if_neg (by simp [hsp]), if_pos hx, raiseError_eq, finish_of_accepted hs]

/-- Settles O28: after the request `TxClose` the session is Disconnected, so `finish` releases nothing more. -/
theorem closeCompletes : Obligations.CloseCompletes := by
  intro s hb hx hq
  have hgap := (gap_quiet (s := logRequest .close (accepted s)) (n := 0) (quietGaps_accepted hq)).1
  rw [exec, execClose, accept_checked hb hq hx rfl, hgap, Run.go_andThen, finish_calm _ _ _ (.inl rfl)]
  simp [logRequest, accepted, hb]

/-! ### `ERASE_SETTLED` and `AWAIT_DRAIN` -/

/-- Settles O34: in Erasing the checks pass, and only `finish` is left to do. -/
theorem eraseSettledCompletes : Obligations.EraseSettledCompletes := by
  intro s hs hx hq
  have hconn : s.session ≠ .disconnected := by simp [hx]
  have hl := lost_eq_false_of_settled hs hconn
  rw [exec, execEraseSettled, accept_checked hs.1 hq hconn (by simp [hx])]
  exact congrArg _ (finish_accepted hs.1 (by simp [hl]) _ _)

/-- A `TxDrain(INFINITE)` that is not answered `Ok` in a quiet gap never ends (R254; log entry 7). -/
theorem txDrain_unanswered {s : State} {a : Answer} {rest : List Answer} {g : List (List Input)}
    (ha : s.answers = a :: rest) (hg : s.gaps = [] :: g) (hok : a.ok = false)
    (ht : s.cfg.params.drainTimeout = .infinite) : txDrain s = .stop (.fault .drainNeverAnswered) := by
  simp [txDrain, drawAnswer, logRequest, gap, ha, hg, applyInputs, hok, ht]

/-- While the transport is not lost, `awaitDrain` is a `TxDrain` (R180). -/
theorem awaitDrain_of_not_lost {s : State} (hl : s.lost = false) : awaitDrain s = txDrain s := by
  simp [awaitDrain, hl]

/-- Settles O35: by what the one drain answers. -/
theorem awaitDrainCompletes : Obligations.AwaitDrainCompletes := by
  intro s a rest hs hx hq ha
  have hl := lost_eq_false_of_settled hs hx
  have hgaps := quietGaps_succ (quietGaps_accepted hq)
  rw [exec, execAwaitDrain, accept_checked hs.1 hq hx rfl,
    awaitDrain_of_not_lost (s := accepted s) hl]
  refine ⟨fun ht => ?_, fun hok ht => ?_⟩
  · rw [txDrain_quiet (s := accepted s) ha hgaps ht, Run.go_andThen]
    cases hok : a.ok <;> simp [finish_calm, hl, hs.1, accepted]
  · rw [txDrain_unanswered (s := accepted s) ha hgaps hok ht, Run.stop_andThen]

end Sys2Proof.Machine
end

section
/-! Operations that send a command frame (43_session_sequencer.md, R203, R206 to R216): how they end by what their send
answers, and their completion on a transport that answers well. -/

namespace Sys2Proof.Machine

open Sys2Proof.Safety

/-! ### The end of an operation that sent bytes -/

/-- The session an operation ends in, if it is a connected one, by whether the transport was lost (R31, R253). -/
theorem finish_in_session {s : State} {x : Session} (hx : x ≠ .disconnected) (st : Status) (k : Nat) :
    (s.lost = false → finish st k { s with session := x } =
      endCursor { s with session := x, status := st, count := word32 k, busy := false }) ∧
    (s.lost = true → finish st k { s with session := x } = endedLost s st k) :=
  ⟨fun hl => finish_calm _ _ _ (.inr hl), fun hl => finish_lost _ _ _ ((held_eq_true_iff _).2 hx) hl⟩

section
variable {s s1 : State} {cmd : Command} {allowed : Session → Bool} {onDone onFailed : Session → Session} {k : Nat}
  (hb : s.busy = false) (hq : QuietGaps s 1) (hx : s.session ≠ .disconnected) (ha : allowed s.session = true)
include hb hq hx ha

/-- A command whose send is done (R203). -/
theorem sendCommand_done (hs : send (encodeCommand s.cfg.params cmd) (accepted s) = .go (.done k) s1) :
    sendCommand cmd allowed onDone onFailed s = .next (finish .ok k { s1 with session := onDone s.session }) := by
  have hses : s1.session = s.session := ((send_sound _ rfl).go hs).session
  rw [sendCommand, accept_checked hb hq hx ha, accepted_cfg, hs, Run.go_andThen, hses]

/-- A command whose send fails (R203). -/
theorem sendCommand_failed (hs : send (encodeCommand s.cfg.params cmd) (accepted s) = .go (.failed k) s1) :
    sendCommand cmd allowed onDone onFailed s =
      .next (finish .transmissionFailed k { s1 with session := onFailed s.session }) := by
  have hses : s1.session = s.session := ((send_sound _ rfl).go hs).session
  rw [sendCommand, accept_checked hb hq hx ha, accepted_cfg, hs, Run.go_andThen, hses]
  rfl

end

/-- The motion operations with their commands (R206 to R212). -/
def motions : List (Instr × Command) :=
  [(.home, .home), (.center, .center), (.preview, .preview), (.moveUp, .moveUp), (.moveDown, .moveDown),
    (.moveLeft, .moveLeft), (.moveRight, .moveRight)]

/-- A motion operation is the command-send template, allowed in Idle and Ready, that keeps the session (R202, R206). -/
theorem exec_motion {q : Instr × Command} (h : q ∈ motions) :
    (∀ s, exec q.1 s = sendCommand q.2 inIdleOrReady unchanged unchanged s) ∧ tableAllows q.1 = [.idle, .ready] ∧
      (∀ x, onSuccess q.1 x = x) ∧ q.1 ≠ .reset := by
  fin_cases h <;> exact ⟨fun _ => rfl, rfl, fun _ => rfl, nofun⟩

/-- `PAUSE` is the command-send template (R213). -/
theorem exec_pause (s : State) :
    exec .pause s = sendCommand .pause (fun x => x == .engraving) (fun _ => .paused) unchanged s := rfl

/-- `RESET` is the command-send template (R214). -/
theorem exec_reset (s : State) :
    exec .reset s = sendCommand .reset inAnySession (fun _ => .idle) (fun _ => .idle) s := rfl

/-- `START v` is the command-send template (R215). -/
theorem exec_start (v : Byte) (s : State) :
    exec (.start v) s =
      sendCommand (.start v) (fun x => x == .ready || x == .paused) (fun _ => .engraving) unchanged s := rfl

/-- `ERASE` is the command-send template (R216). -/
theorem exec_erase (s : State) :
    exec .erase s = sendCommand .erase (fun x => x == .idle) (fun _ => .erasing) unchanged s := rfl

/-- Every operation that sends a command is the command-send template with its row of the table (R202, R203). -/
theorem exec_eq_sendCommand {i : Instr} {c : Command}
    (h : (i, c) ∈ motions ++ [(.pause, .pause), (.reset, .reset), (.erase, .erase)] ∨
      ∃ v, (i, c) = (Instr.start v, Command.start v)) :
    ∃ allowed onDone onFailed, (∀ s, exec i s = sendCommand c allowed onDone onFailed s) ∧
      ∀ x ∈ tableAllows i, x ≠ .disconnected ∧ allowed x = true ∧ onDone x = onSuccess i x ∧
        onSuccess i x ≠ .disconnected ∧ onFailed x = if i = .reset then .idle else x := by
  rcases h with h | ⟨v, h⟩
  · rcases List.mem_append.1 h with h | h
    · obtain ⟨hexec, htable, hsucc, hreset⟩ := exec_motion h
      refine ⟨_, _, _, hexec, ?_⟩
      simp [htable, hsucc, hreset, inIdleOrReady, unchanged]
    · simp only [List.mem_cons, Prod.mk.injEq, List.not_mem_nil, or_false] at h
      rcases h with ⟨rfl, rfl⟩ | ⟨rfl, rfl⟩ | ⟨rfl, rfl⟩
      · exact ⟨_, _, _, exec_pause, by decide⟩
      · exact ⟨_, _, _, exec_reset, by decide⟩
      · exact ⟨_, _, _, exec_erase, by decide⟩
  · cases h
    exact ⟨_, _, _, exec_start v, by simp [tableAllows, onSuccess, unchanged]⟩

/-- Settles O39: the template's two ends, each with and without a loss. -/
theorem failedSendTransitions : Obligations.FailedSendTransitions := by
  intro s s2 i c k hic hb hx hq
  obtain ⟨allowed, onDone, onFailed, hexec, htable⟩ := exec_eq_sendCommand hic
  obtain ⟨hconn, ha, hdone, hsucc, hfailed⟩ := htable _ hx
  have hfail : (if i = .reset then Session.idle else s.session) ≠ .disconnected := by
    split_ifs
    · exact nofun
    · exact hconn
  refine ⟨fun hsend => ?failed, fun hsend => ?done⟩
  case failed =>
    rw [hexec, sendCommand_failed hb hq hconn ha hsend, hfailed]
    obtain ⟨hkept, hlost⟩ := finish_in_session (s := s2) hfail .transmissionFailed k
    exact ⟨fun hl => congrArg _ (hkept hl), fun hl => congrArg _ (hlost hl)⟩
  case done =>
    rw [hexec, sendCommand_done hb hq hconn ha hsend, hdone]
    obtain ⟨hkept, hlost⟩ := finish_in_session (s := s2) hsucc .ok k
    exact ⟨fun hl => congrArg _ (hkept hl), fun hl => congrArg _ (hlost hl)⟩

/-! ### A transport that answers well -/

/-- The send of an operation in a good run, from any session state it has gone to (R172, R175). -/
theorem send_good {s : State} {p : List Byte} (x : Session) (hl : s.lost = false) (hr : GoodRun s p.length) :
    send p { accepted s with session := x } = .go (.done p.length) (sent { accepted s with session := x } p) :=
  goodSendDeliversPayload p { accepted s with session := x } hl (quietGaps_accepted hr.1) hr.2

/-- The end of an operation after a good send (R31, R203). -/
theorem finish_sent {s : State} (hb : s.busy = false) (hl : s.lost = false) (p : List Byte) (x y : Session) :
    finish .ok p.length { sent { accepted s with session := x } p with session := y } = sentAndFinished s p y := by
  simp [finish_calm, hl, sent, sentAndFinished, accepted, endCursor, hb]

/-- A command in a good run, where it is allowed (R203). -/
theorem sendCommand_good {s : State} {cmd : Command} {allowed : Session → Bool} {onDone onFailed : Session → Session}
    (hs : Settled s) (hx : s.session ≠ .disconnected) (ha : allowed s.session = true)
    (hr : GoodRun s (encodeCommand s.cfg.params cmd).length) :
    sendCommand cmd allowed onDone onFailed s =
      .next (sentAndFinished s (encodeCommand s.cfg.params cmd) (onDone s.session)) := by
  have hl := lost_eq_false_of_settled hs hx
  have hq : QuietGaps s 1 := QuietGaps.mono hr.1 (Nat.le_add_left _ _)
  rw [sendCommand_done hs.1 hq hx ha (send_good s.session hl hr)]
  exact congrArg _ (finish_sent hs.1 hl _ _ _)

/-- Settles O29: Idle and Ready are connected and allow the motion template. -/
theorem motionCommandsComplete : Obligations.MotionCommandsComplete := by
  intro s i c hic hs hx hr
  obtain ⟨hexec, -, -, -⟩ := exec_motion hic
  have hrow : s.session ≠ .disconnected ∧ inIdleOrReady s.session = true := by
    rcases hx with hx | hx <;> simp [hx, inIdleOrReady]
  rw [hexec]
  exact sendCommand_good hs hrow.1 hrow.2 hr

/-- Settles O30: Engraving is connected and allows `PAUSE`. -/
theorem pauseCompletes : Obligations.PauseCompletes := by
  intro s hs hx hr
  rw [exec_pause]
  exact sendCommand_good hs (by simp [hx]) (by simp [hx]) hr

/-- Settles O31: every connected state allows `RESET`. -/
theorem resetCompletes : Obligations.ResetCompletes := by
  intro s hs hx hr
  rw [exec_reset]
  exact sendCommand_good hs hx rfl hr

/-- Settles O32: the frame is the encoder's for `START v`, and Ready and Paused allow it. -/
theorem startCompletes : Obligations.StartCompletes := by
  intro s v hs hx frame hr
  have hrow : s.session ≠ .disconnected ∧ (s.session == .ready || s.session == .paused) = true := by
    rcases hx with hx | hx <;> simp [hx]
  rw [exec_start]
  exact sendCommand_good hs hrow.1 hrow.2 hr

/-- Settles O33: Idle is connected and allows `ERASE`. -/
theorem eraseCompletes : Obligations.EraseCompletes := by
  intro s hs hx hr
  rw [exec_erase]
  exact sendCommand_good hs (by simp [hx]) (by simp [hx]) hr

end Sys2Proof.Machine
end

section
/-! The uploads (43_session_sequencer.md, R218, R219): their operand checks, how they end by what the send of the bitmap
answers, and their completion on a transport that answers well. -/

namespace Sys2Proof.Machine

open Sys2Proof.Safety

/-! ### The operand checks -/

section
variable {s s1 : State} {n : Nat} (hb : s.busy = false) (hx : s.session = .idle) (hq : QuietGaps s (n + 1))
include hb hx hq

/-- `UPLOAD_IMAGE` of an image that converts goes on with its bitmap (R218). -/
theorem exec_uploadImage_converted {f : PixelFormat} (hv : validImage s = some f)
    (hc : convertImage (accepted s) f = .ok s1) : exec .uploadImage s = uploadBitmap s1 := by
  have hv' : validImage (accepted s) = some f := hv
  rw [exec, execUploadImage, accept_checked hb hq (by simp [hx]) (by simp [hx])]
  simp only [hv', hc]

/-- `UPLOAD_RAW` of a whole payload goes on with its bitmap (R219). -/
theorem exec_uploadRaw_unpacked (hl : s.payloadLen.toNat = 32768) (hu : unpackPayload (accepted s) = .ok s1) :
    exec .uploadRaw s = uploadBitmap s1 := by
  have hv : validPayloadLen (accepted s) = true := decide_eq_true hl
  rw [exec, execUploadRaw, accept_checked hb hq (by simp [hx]) (by simp [hx]), if_pos hv]
  simp only [hu]

end

/-- Settles O38: the operand checks come before anything is written or sent. -/
theorem uploadOperandChecks : Obligations.UploadOperandChecks := by
  intro s hs hx hq
  have hconn : s.session ≠ .disconnected := by simp [hx]
  have hend : ∀ st, finish st 0 (accepted s) = finished s st 0 .idle := fun st => hx ▸ finish_of_accepted hs st 0
  refine ⟨fun hv => ?image, fun hlen => ?raw⟩
  case image =>
    have hv' : validImage (accepted s) = none := hv
    rw [exec, execUploadImage, accept_checked hs.1 hq hconn (by simp [hx])]
    simp only [hv', raiseError_eq, hend]
  case raw =>
    have hv : validPayloadLen (accepted s) = false := decide_eq_false hlen
    rw [exec, execUploadRaw, accept_checked hs.1 hq hconn (by simp [hx]), if_neg (by simp [hv]), raiseError_eq, hend]

/-! ### The send of the bitmap -/

/-- An upload whose send is done (R218, R219). -/
theorem uploadBitmap_done {s s1 : State} {p : List Byte} {k : Nat} (hp : packedBytes s = .ok p)
    (hs : send p { s with session := .uploading } = .go (.done k) s1) :
    uploadBitmap s = .next (finish .ok k { s1 with session := .ready }) := by
  simp only [uploadBitmap, hp, hs, Run.go_andThen]

/-- An upload whose send fails (R218, R219). -/
theorem uploadBitmap_failed {s s1 : State} {p : List Byte} {k : Nat} (hp : packedBytes s = .ok p)
    (hs : send p { s with session := .uploading } = .go (.failed k) s1) :
    uploadBitmap s = .next (finish .transmissionFailed k { s1 with session := .idle }) := by
  simp only [uploadBitmap, hp, hs, Run.go_andThen, raiseError_eq]

/-- Settles O40: both uploads go on with the bitmap, and its send has two ends, each with and without a loss. -/
theorem failedUploadReturnsToIdle : Obligations.FailedUploadReturnsToIdle := by
  intro s s1 s2 i p k hb hx hq s0 hi hp
  obtain ⟨hexec, hbusy⟩ : exec i s = uploadBitmap s1 ∧ s1.busy = true := by
    rcases hi with ⟨rfl, f, hv, hc⟩ | ⟨rfl, hl, hu⟩
    · obtain ⟨bytes, -, hs1⟩ := convertImage_ok.1 hc
      exact ⟨exec_uploadImage_converted hb hx hq hv hc, by rw [hs1]; rfl⟩
    · obtain ⟨bytes, -, hs1⟩ := unpackPayload_ok.1 hu
      exact ⟨exec_uploadRaw_unpacked hb hx hq hl hu, by rw [hs1]; rfl⟩
  have hbmp : ∀ r, send p { s1 with session := .uploading } = .go r s2 → s2.bmp = s1.bmp := fun r hsend =>
    ((send_sound (s := { s1 with session := .uploading }) p hbusy).go hsend).bmp
  refine ⟨fun hsend => ⟨hbmp _ hsend, ?failed⟩, fun hsend => ⟨hbmp _ hsend, ?done⟩⟩
  case failed =>
    rw [hexec, uploadBitmap_failed hp hsend]
    obtain ⟨hkept, hlost⟩ := finish_in_session (s := s2) (x := .idle) nofun .transmissionFailed k
    exact ⟨fun hl => congrArg _ (hkept hl), fun hl => congrArg _ (hlost hl)⟩
  case done =>
    rw [hexec, uploadBitmap_done hp hsend]
    obtain ⟨hkept, hlost⟩ := finish_in_session (s := s2) (x := .ready) nofun .ok k
    exact ⟨fun hl => congrArg _ (hkept hl), fun hl => congrArg _ (hlost hl)⟩

/-! ### A transport that answers well -/

/-- An image whose sampled pixels are written has a packed byte for every address (R134, R141). -/
theorem collect_packedByte_isOk {s : State} {f : PixelFormat} (h : SampledWritten s f) :
    ∃ bytes, collect (packedByte s f) (List.range bmpBytes) = .ok bytes :=
  collect_isOk _ _ fun _ ha =>
    packedByte_isOk (List.mem_range.1 ha) fun x y _ hy => inverted_isOk.2 (h (511 - x) y (by omega) hy)

/-- The bitmap just written is sent in a good run (R143, R218, R219). -/
theorem uploadBitmap_good {s : State} {bytes : List Byte} (hb : s.busy = false) (hl : s.lost = false)
    (hlen : bytes.length = 32768) (hr : GoodRun s 32768) :
    uploadBitmap (memWrite (accepted s) .bmp 0 bytes) =
      .next (sentAndFinished (memWrite s .bmp 0 bytes) bytes .ready) := by
  rw [← hlen] at hr
  have hsend := send_good (s := memWrite s .bmp 0 bytes) .uploading hl hr
  rw [uploadBitmap_done (packedBytes_memWrite (accepted s) hlen) hsend]
  exact congrArg _ (finish_sent (s := memWrite s .bmp 0 bytes) hb hl bytes _ _)

/-- Settles O36: the image converts, and its bitmap is sent. -/
theorem uploadImageCompletes : Obligations.UploadImageCompletes := by
  intro s f hs hx hv hw hr
  have hl := lost_eq_false_of_settled hs (by simp [hx])
  obtain ⟨bytes, hc⟩ := collect_packedByte_isOk hw
  have hlen := collect_packedByte_length hc
  have hconv : convertImage (accepted s) f = .ok (memWrite (accepted s) .bmp 0 bytes) :=
    convertImage_ok.2 ⟨bytes, hc, rfl⟩
  obtain ⟨hin, hout⟩ := readByte_memWrite_bitmap s hlen
  refine ⟨sentAndFinished (memWrite s .bmp 0 bytes) bytes .ready, bytes, ?_, rfl, isBitmapOf_collect_packedByte hc,
    hin, hout⟩
  rw [exec_uploadImage_converted hs.1 hx hr.1 hv hconv, uploadBitmap_good hs.1 hl hlen hr]

/-- Settles O37: the payload unpacks, and is sent. -/
theorem uploadRawCompletes : Obligations.UploadRawCompletes := by
  intro s bytes hs hx hpl hlen hread hr
  have hl := lost_eq_false_of_settled hs (by simp [hx])
  have hm : memRead (accepted s) .payload 0 bmpBytes = .ok bytes :=
    memRead_ok.2 ⟨hlen, fun a ha => by rw [Nat.zero_add]; exact hread a ha⟩
  obtain ⟨hin, hout⟩ := readByte_memWrite_bitmap s hlen
  refine ⟨sentAndFinished (memWrite s .bmp 0 bytes) bytes .ready, ?_, rfl, hin, hout⟩
  rw [exec_uploadRaw_unpacked hs.1 hx hr.1 hpl (unpackPayload_ok.2 ⟨bytes, hm, rfl⟩), uploadBitmap_good hs.1 hl hlen hr]

end Sys2Proof.Machine
end

section
/-! Errors and the loss of the transport (60_exceptions.md): the loss event at rest and inside an operation, what an
operation that is turned away leaves alone, and which operation reports which error with which count. -/

namespace Sys2Proof.Machine

open Sys2Proof.Safety

/-! ### The loss event -/

/-- The loss of a held transport at rest ends the session at once (R253). -/
theorem loseTransport_of_idle {s : State} (hb : s.busy = false) (hx : s.session ≠ .disconnected) :
    loseTransport s = { s with
      lost := true, session := .disconnected, spent := true, requests := s.requests ++ [.close] } := by
  rw [loseTransport, if_pos ((held_eq_true_iff s).2 hx), if_neg (by simp [hb])]
  rfl

/-- The loss of a held transport while an operation is in progress sets LOST only (R253). -/
theorem loseTransport_of_busy {s : State} (hb : s.busy = true) (hx : s.session ≠ .disconnected) :
    loseTransport s = { s with lost := true } := by
  rw [loseTransport, if_pos ((held_eq_true_iff s).2 hx), if_pos hb]

/-- Settles O52: the loss event by BUSY. -/
theorem lossEvent : Obligations.LossEvent := fun _ hx =>
  ⟨fun hb => congrArg _ (loseTransport_of_idle hb hx), fun hb => congrArg _ (loseTransport_of_busy hb hx)⟩

/-! ### A loss inside an operation -/

/-- Acceptance when the transport is lost in its gap: the operation begins with LOST set (R253). -/
theorem accept_lost {s : State} {g : List (List Input)} (hb : s.busy = false) (hx : s.session ≠ .disconnected)
    (hg : s.gaps = [.lost] :: g) : accept s = .go () { accepted s with lost := true } := by
  simp [accept_idle hb, gap, hg, applyInputs, applyInput, loseTransport_of_busy, hx, accepted]

/-- Settles O53: with LOST set at acceptance no drain is issued, after the answer only `finish` is left to do; either
way `finish` finds the held transport lost. -/
theorem lossInsideAnOperation : Obligations.LossInsideAnOperation := by
  intro s g hb hl hx
  have hheld := (held_eq_true_iff s).2 hx
  refine ⟨fun hg => ?before, fun a rest hok ha hg => ?after⟩
  case before =>
    rw [exec, execAwaitDrain, accept_lost hb hx hg, Run.go_andThen,
      checked_allowed (s := { accepted s with lost := true }) hx rfl, awaitDrain_of_lost rfl, Run.go_andThen,
      if_neg nofun, raiseError_eq, finish_lost]
    · simp [accepted, hg, hb]
    · exact hheld
    · rfl
  case after =>
    have hq : QuietGaps s 1 := by simp [QuietGaps, hg]
    have hgap : (accepted s).gaps = [.lost] :: g := by simp [hg]
    rw [exec, execAwaitDrain, accept_checked hb hq hx rfl, awaitDrain_of_not_lost (s := accepted s) hl,
      txDrain_lost (s := accepted s) rfl hheld ha hgap (.inl hok), Run.go_andThen, if_pos hok, finish_lost]
    · simp [accepted, hb]
    · exact hheld
    · rfl

/-! ### Errors before transmission -/

/-- The errors of R201 steps 1 to 4, which come before the first request (R251). -/
def earlyErrors : List Status :=
  [.notConnected, .invalidImage, .invalidPayloadSize, .invalidState, .invalidOperation]

/-- A failure of an operation that got to run is none of the errors of R201 steps 1 to 4 (R250). -/
theorem FailsWith.not_early {i : Instr} {st : Status} (h : FailsWith i st) : st ∉ earlyErrors := by
  cases st with
  | ok | notConnected | invalidImage | invalidPayloadSize | invalidState | invalidOperation => exact h.elim
  | connectionFailed | transmissionFailed | timedOut => decide

section
variable {i : Instr} {s s1 : State} {st : Status} {k : Nat} {x : Session} {sp : Bool} {m : Memory}
  (he : Ends i s s1 st k x sp m)
include he

/-- An operation that ends with an error of R201 steps 1 to 4 was turned away: it did nothing (R251). -/
theorem Ends.of_early (hst : st ∈ earlyErrors) :
    k = 0 ∧ x = s.session ∧ sp = s.spent ∧ m = s.bmp ∧ s1.stream = s.stream ∧ s1.requests = s.requests := by
  cases he with
  | turnedAway _ hstream hrequests => exact ⟨rfl, rfl, rfl, rfl, hstream, hrequests⟩
  | done => simp [earlyErrors] at hst
  | failed _ hf => exact absurd hst hf.not_early

/-- What an error means: the operation was turned away with it, or failed with it (R250). -/
theorem Ends.cause (hst : st ≠ .ok) : TurnedAway i s st ∨ FailsWith i st := by
  cases he with
  | turnedAway h => exact .inl h
  | done => exact absurd rfl hst
  | failed _ hf => exact .inr hf

/-- Only `OK` and TransmissionFailed come with a count (R250). -/
theorem Ends.count_eq_zero (hok : st ≠ .ok) (hfail : st ≠ .transmissionFailed) : k = 0 := by
  cases he with
  | turnedAway => rfl
  | done => exact absurd rfl hok
  | failed _ _ hc => exact hc hfail

/-- The count is at most what the operation has to send (R172, R203). -/
theorem Ends.count_le : k ≤ payloadLength s.cfg.params i := by
  cases he with
  | turnedAway => exact Nat.zero_le _
  | done _ hk => exact hk
  | failed _ _ _ hk => exact hk

end

/-- Settles O49: an operation that is turned away did nothing, and `finish` adds at most the end of a lost session. -/
theorem errorsArePrecise : Obligations.ErrorsArePrecise := by
  intro i s t hn h hst
  obtain ⟨s1, st, k, x, sp, m, -, he, rfl⟩ := exec_ends hn h
  rw [finish_status] at hst
  obtain ⟨rfl, rfl, rfl, rfl, hstream, hrequests⟩ := he.of_early hst
  rw [finish_stream, finish_bmp, finish_count, word32_zero, finish_lost_field]
  refine ⟨hstream, rfl, rfl, ?released, fun hl => ?calm⟩
  case released =>
    rw [finish_requests, hrequests]
    split
    · exact .inr rfl
    · exact .inl rfl
  case calm =>
    rw [finish_calm _ _ _ (.inr hl)]
    exact ⟨rfl, rfl, hrequests⟩

/-! ### Which operation reports which error -/

/-- TransmissionFailed is a failure of an operation that sends bytes (R250). -/
theorem FailsWith.sendsBytes {i : Instr} (h : FailsWith i .transmissionFailed) : sendsBytes i = true := by
  rcases h with rfl | rfl | ⟨c, hc⟩
  · rfl
  · rfl
  · fin_cases hc <;> rfl

/-- InvalidState is reported where the table of R202 has a dash. -/
theorem TurnedAway.invalidState {i : Instr} {s : State} (h : TurnedAway i s .invalidState) :
    (needsTransport i = true ∨ i = .openPort) ∧ s.session ≠ .disconnected ∧ s.session ∉ tableAllows i := by
  rcases h with ⟨hi, hx, hdash⟩ | ⟨rfl, -, hx⟩
  · exact ⟨.inl hi, hx, hdash⟩
  · exact ⟨.inr rfl, hx, List.not_mem_nil⟩

/-- A reserved word never gets to run (R73). -/
theorem not_getsToRun_reserved (op arg : Byte) (s : State) : ¬ GetsToRun (.reserved op arg) s := by
  simp [GetsToRun, needsTransport]

/-- A reserved word is turned away with InvalidOperation (R73, R252). -/
theorem TurnedAway.reserved {op arg : Byte} {s : State} {st : Status} (h : TurnedAway (.reserved op arg) s st) :
    st = .invalidOperation := by
  cases st with
  | invalidOperation => rfl
  | ok | connectionFailed | transmissionFailed | timedOut => exact h.elim
  | notConnected | invalidState | invalidImage | invalidPayloadSize => simp [TurnedAway, needsTransport] at h

/-- A reserved word ends with InvalidOperation (R73). -/
theorem Ends.reserved {op arg : Byte} {s s1 : State} {st : Status} {k : Nat} {x : Session} {sp : Bool} {m : Memory}
    (he : Ends (.reserved op arg) s s1 st k x sp m) : st = .invalidOperation := by
  cases he with
  | turnedAway h => exact h.reserved
  | done hrun => exact absurd hrun (not_getsToRun_reserved op arg s)
  | failed hrun => exact absurd hrun (not_getsToRun_reserved op arg s)

/-- What an operation has to send: nothing, the bitmap, the Start frame, or a configured frame (R102 to R113). -/
theorem payloadLength_cases (p : Params) (i : Instr) : payloadLength p i = 0 ∨ payloadLength p i = 32768 ∨
    payloadLength p i = startLength p ∨ ∃ f ∈ p.frames, payloadLength p i = f.length := by
  cases i
  case openPort | close | eraseSettled | awaitDrain | convert | unpack | reserved => exact .inl rfl
  case uploadImage | uploadRaw => exact .inr (.inl rfl)
  case start => exact .inr (.inr (.inl rfl))
  all_goals
    refine .inr (.inr (.inr ⟨_, ?_, rfl⟩))
    simp [Params.frames]

/-- While no configured frame is longer than the bitmap, no operation sends more than R30's maximum of COUNT. -/
theorem payloadLength_le (cfg : Config) (i : Instr) (hmax : cfg.params.maxFrame ≤ 32768) :
    payloadLength cfg.params i ≤ max 32768 (startLength cfg.params) := by
  obtain ⟨-, -, -, -, -, hframes, -, -⟩ := cfg.legal
  rcases payloadLength_cases cfg.params i with h | h | h | ⟨f, hf, h⟩ <;> rw [h]
  · exact Nat.zero_le _
  · exact Nat.le_max_left _ _
  · exact Nat.le_max_right _ _
  · exact ((hframes f hf).2.trans hmax).trans (Nat.le_max_left _ _)

/-- Settles O50: each error has the cause `Ends` gives, and so has the count. -/
theorem resultsByOperation : Obligations.ResultsByOperation := by
  intro i s t hn h
  obtain ⟨s1, st, k, x, sp, m, -, he, rfl⟩ := exec_ends hn h
  rw [finish_status, finish_count]
  refine ⟨?connectionFailed, ?notConnected, ?invalidImage, ?invalidPayloadSize, ?transmissionFailed, ?timedOut,
    ?invalidState, ⟨?invalidOperation, ?reserved⟩, ?zero, k, rfl, he.count_le, fun hmax => ?bound⟩
  case connectionFailed => rintro rfl; exact (he.cause nofun).resolve_left id
  case notConnected => rintro rfl; exact (he.cause nofun).resolve_right id
  case invalidImage => rintro rfl; exact ((he.cause nofun).resolve_right id).1.imp_right And.left
  case invalidPayloadSize => rintro rfl; exact ((he.cause nofun).resolve_right id).1.imp_right And.left
  case transmissionFailed => rintro rfl; exact ((he.cause nofun).resolve_left id).sendsBytes
  case timedOut => rintro rfl; exact (he.cause nofun).resolve_left id
  case invalidState => rintro rfl; exact ((he.cause nofun).resolve_right id).invalidState
  case invalidOperation => rintro rfl; exact (he.cause nofun).resolve_right id
  case reserved => rintro ⟨op, arg, rfl⟩; exact he.reserved
  case zero => intro hok hfail; rw [he.count_eq_zero hok hfail, word32_zero]
  case bound => exact he.count_le.trans (payloadLength_le s.cfg i hmax)

end Sys2Proof.Machine
end

section
/-! Block reset as an input (70_reset_and_hazards.md): the state it leaves, for any state it is taken in. -/

namespace Sys2Proof.Machine

open Sys2Proof.Safety

/-- Block reset leaves every buffer as it is after reset (R280). -/
@[simp] theorem blockReset_buffer (s : State) (sp : Space) : (blockReset s).buffer sp = State.reset.buffer sp := by
  cases sp <;> rfl

/-- Block reset drops the transport (R280). -/
@[simp] theorem blockReset_held (s : State) : (blockReset s).held = State.reset.held := rfl

/-- Settles O58: block reset gives the registers and buffers the values of the reset state, which O57 lists. -/
theorem blockResetInput : Obligations.BlockResetInput := by
  intro s
  obtain ⟨hsession, hspent, hbusy, hlost, himgW, himgH, himgFmt, hlen, -, hcount, -, hheld, hbuffers⟩ := resetState
  refine ⟨blockReset s, rfl, hsession, hspent, hbusy, hlost, blockReset_status s, hcount, himgW, himgH, himgFmt, hlen,
    fun sp a => ?buffers, hheld, blockReset_cfg s, blockReset_stream s⟩
  rw [blockReset_buffer, hbuffers]

end Sys2Proof.Machine
end
